-- ==== Sys2Proof/Word.lean ====
section
/-! DEFINITION. The widths the spec gives its values (00_scope.md R11): bytes, 32-bit patterns and
command words, 64-bit patterns and registers. -/

namespace Sys2Proof

/-- A `b8` (R11): one cell of BUF, a keystream byte, a perceptron seed. -/
abbrev Byte := BitVec 8

/-- A `b32` (R11): a command word (R58), a binary32 pattern (R17), STATUS and AUX. -/
abbrev Word32 := BitVec 32

/-- A `b64` (R11): DATA, GVAL, GPAR, a window entry, a binary64 pattern (R16). -/
abbrev Word64 := BitVec 64

end Sys2Proof
end

