-- ==== Sys2Proof/Config.lean ====
section
/-! DEFINITION. What the spec fixes as a parameter's value, and the free values: the contents of the two
memories after reset, which nothing in Lean can evaluate. -/

namespace Sys2Proof

/-- The least capacity of BUF (00_scope.md R9). -/
def Config.bufcapMin : Nat := 1000

/-- The greatest capacity of BUF (R9). -/
def Config.bufcapMax : Nat := 65535

/-- The recommended default of BUFCAP (R9); the value `State.reset` carries. DESIGN CHOICE, log 1. -/
def Config.bufcapDefault : Nat := 4096

/-- `NMAX` (R7): the largest legal modulus exponent of the integer map. -/
def Config.nmax : Nat := 32

/-- FREE VALUE (10_state.md R43, 93_implementation_defined.md U8; log 3): the byte of BUF that the
`launch`-th reset left at an address. -/
opaque Config.launchByte (launch addr : Nat) : Byte

/-- FREE VALUE (R43, U8; log 3): the entry of WIN that the `launch`-th reset left at an index. -/
opaque Config.launchEntry (launch idx : Nat) : Word64

/-- The canonical quiet NaN of binary64 (R19, U6; log 6). -/
def Config.nan64 : Word64 := 0x7FF8000000000000

/-- The binary32 pattern a NaN converts to (R22, U6; log 6). -/
def Config.nan32 : Word32 := 0x7FC00000

/-- `F_ONE` (R25): 1.0. -/
def Config.fOne : Word64 := 0x3FF0000000000000

/-- `F_255` (R25): 255.0. -/
def Config.f255 : Word64 := 0x406FE00000000000

/-- `F_DEFPAR` (R8, R25): the binary64 value nearest 3.97, GNEWL's coefficient. -/
def Config.fDefpar : Word64 := 0x400FC28F5C28F5C3

end Sys2Proof
end

