-- ==== Sys2Proof/Syntax.lean ====
section
/-! DEFINITION. The commands of the CKC command set (30_encoding.md R68), one constructor per row of
the opcode table, and the derivation modes (R67). -/

namespace Sys2Proof

/-- DerivationMode (R67), in the document's order 0, 1, 2. The reserved value 3 has no constructor. -/
inductive Mode where
  | rawCast
  | mantissaByte
  | windowNormalized
deriving DecidableEq, Repr

/-- The 23 commands (R68). A field has the width the command word gives it (R61 to R66); an operand
wider than a field travels in DATA (R58, R66). -/
inductive Instr where
  /-- 0x01, format Z, R117. -/
  | clre
  /-- 0x10, format N, R78. -/
  | gnewi (n : BitVec 6)
  /-- 0x11, format Z, R79. -/
  | gnewl
  /-- 0x12, format Z, R80. -/
  | gnext
  /-- 0x13, format Z, R81. -/
  | ggetv
  /-- 0x14, format Z, R82. -/
  | gsetv
  /-- 0x15, format Z, R83. -/
  | ggetp
  /-- 0x16, format Z, R84. -/
  | gsetp
  /-- 0x20, format Z, R88. -/
  | mext
  /-- 0x28, format K, R92. -/
  | wsetl (k : BitVec 16)
  /-- 0x29, format K, R93. -/
  | wwr (k : BitVec 16)
  /-- 0x2A, format K, R94. -/
  | wrd (k : BitVec 16)
  /-- 0x2B, format K, R95. -/
  | wfill (k : BitVec 16)
  /-- 0x2C, format K, R96. -/
  | wnorm (k : BitVec 16)
  /-- 0x2D, format Z, R97. -/
  | wnormv
  /-- 0x30, format Z, R109. -/
  | preseed
  /-- 0x31, format Z, R110. -/
  | peval
  /-- 0x32, format R, R111. -/
  | prdw (row : BitVec 3)
  /-- 0x33, format Z, R112. -/
  | prdb
  /-- 0x40, format B, R115. -/
  | bwr (addr : BitVec 16) (imm8 : Byte)
  /-- 0x41, format K, R116. -/
  | brd (k : BitVec 16)
  /-- 0x50, format T, R101. -/
  | xtr (mode : Mode) (len : BitVec 16)
  /-- 0x51, format T, R113. -/
  | ptr (mode : Mode) (len : BitVec 16)
deriving DecidableEq, Repr

end Sys2Proof
end

