-- ==== Sys2Proof/WellFormed.lean ====
section
/-! DEFINITION. Which terms of `Instr` are commands: the extra conditions of 30_encoding.md R68. -/

namespace Sys2Proof

/-- GNEWI's extra condition `1 <= n <= 32` (R68, R69 (c)). -/
def legalExponent (n : BitVec 6) : Bool :=
  decide (1 ≤ n.toNat) && decide (n.toNat ≤ Config.nmax)

/-- PTR's extra condition `mode = 1 or mode = 2` (R68, R69 (e)). -/
def legalPerceptronMode (mode : Mode) : Bool :=
  match mode with
  | .rawCast => false
  | .mantissaByte => true
  | .windowNormalized => true

/-- A term that has a command word: every field width is in the types, so only the extra conditions of
R68 are left to check. -/
def Instr.wf (i : Instr) : Bool :=
  match i with
  | .clre => true
  | .gnewi n => legalExponent n
  | .gnewl => true
  | .gnext => true
  | .ggetv => true
  | .gsetv => true
  | .ggetp => true
  | .gsetp => true
  | .mext => true
  | .wsetl _ => true
  | .wwr _ => true
  | .wrd _ => true
  | .wfill _ => true
  | .wnorm _ => true
  | .wnormv => true
  | .preseed => true
  | .peval => true
  | .prdw _ => true
  | .prdb => true
  | .bwr _ _ => true
  | .brd _ => true
  | .xtr _ _ => true
  | .ptr mode _ => legalPerceptronMode mode

end Sys2Proof
end

