-- ==== Sys2Proof/Decode.lean ====
section
/-! DEFINITION. Decoding a command word (30_encoding.md R58 to R70), rejecting by name, and the encoder
written from the same formats. -/

namespace Sys2Proof

/-- Why a word is illegal: the five cases of R69. -/
inductive DecodeError where
  /-- R69 (a): the opcode is none of the 23. -/
  | unassignedOpcode
  /-- R69 (b): a must-be-zero bit of the format is 1. -/
  | mustBeZero
  /-- R69 (c): GNEWI with `n = 0` or `n >= 33`. -/
  | exponentOutOfRange
  /-- R69 (d): XTR or PTR with `mode = 3`. -/
  | reservedMode
  /-- R69 (e): PTR with `mode = 0`. -/
  | rawPerceptron
deriving DecidableEq, Repr

/-! ### Fields (R59, R66) -/

/-- `op = c[31:24]` (R59). -/
def opField (c : Word32) : BitVec 8 := c.extractLsb' 24 8
/-- `k`, `addr`, `len` `= c[15:0]` (R66). -/
def lowField (c : Word32) : BitVec 16 := c.extractLsb' 0 16
/-- `imm8 = c[23:16]` (R66). -/
def imm8Field (c : Word32) : Byte := c.extractLsb' 16 8
/-- `mode = c[17:16]` (R66). -/
def modeField (c : Word32) : BitVec 2 := c.extractLsb' 16 2
/-- `n = c[5:0]` (R66). -/
def nField (c : Word32) : BitVec 6 := c.extractLsb' 0 6
/-- `row = c[2:0]` (R66). -/
def rowField (c : Word32) : BitVec 3 := c.extractLsb' 0 3

/-- The number a mode has in a command word (R67). -/
def modeBits (mode : Mode) : BitVec 2 :=
  match mode with
  | .rawCast => 0
  | .mantissaByte => 1
  | .windowNormalized => 2

/-- The mode a number stands for; 3 is reserved (R67). -/
def modeOfBits (b : BitVec 2) : Except DecodeError Mode :=
  if b = 0 then .ok .rawCast
  else if b = 1 then .ok .mantissaByte
  else if b = 2 then .ok .windowNormalized
  else .error .reservedMode

/-! ### Formats -/

/-- Format Z (R60): bits 23:0 must be zero. -/
def decodeZ (c : Word32) (i : Instr) : Except DecodeError Instr :=
  if c.extractLsb' 0 24 = 0 then .ok i else .error .mustBeZero

/-- Format K (R61): bits 23:16 must be zero. -/
def decodeK (c : Word32) (f : BitVec 16 → Instr) : Except DecodeError Instr :=
  if c.extractLsb' 16 8 = 0 then .ok (f (lowField c)) else .error .mustBeZero

/-- Format B (R62): no must-be-zero bit. -/
def decodeB (c : Word32) (f : BitVec 16 → Byte → Instr) : Except DecodeError Instr :=
  .ok (f (lowField c) (imm8Field c))

/-- Format T (R63): bits 23:18 must be zero. -/
def decodeT (c : Word32) (f : Mode → BitVec 16 → Except DecodeError Instr) :
    Except DecodeError Instr :=
  if c.extractLsb' 18 6 = 0 then
    match modeOfBits (modeField c) with
    | .ok mode => f mode (lowField c)
    | .error e => .error e
  else .error .mustBeZero

/-- Format N (R64): bits 23:6 must be zero. -/
def decodeN (c : Word32) (f : BitVec 6 → Except DecodeError Instr) : Except DecodeError Instr :=
  if c.extractLsb' 6 18 = 0 then f (nField c) else .error .mustBeZero

/-- Format R (R65): bits 23:3 must be zero. -/
def decodeR (c : Word32) (f : BitVec 3 → Instr) : Except DecodeError Instr :=
  if c.extractLsb' 3 21 = 0 then .ok (f (rowField c)) else .error .mustBeZero

/-- GNEWI's word exists for `1 <= n <= 32` only (R69 (c)). -/
def buildGnewi (n : BitVec 6) : Except DecodeError Instr :=
  if legalExponent n then .ok (.gnewi n) else .error .exponentOutOfRange

/-- PTR's word exists for modes 1 and 2 only (R69 (e)). -/
def buildPtr (mode : Mode) (len : BitVec 16) : Except DecodeError Instr :=
  if legalPerceptronMode mode then .ok (.ptr mode len) else .error .rawPerceptron

/-- R59, R68, R69: the opcode alone selects the command and its format; a word that is no command is
rejected by name. Every word gets an answer. -/
def decode (c : Word32) : Except DecodeError Instr :=
  match (opField c).toNat with
  | 0x01 => decodeZ c .clre
  | 0x10 => decodeN c buildGnewi
  | 0x11 => decodeZ c .gnewl
  | 0x12 => decodeZ c .gnext
  | 0x13 => decodeZ c .ggetv
  | 0x14 => decodeZ c .gsetv
  | 0x15 => decodeZ c .ggetp
  | 0x16 => decodeZ c .gsetp
  | 0x20 => decodeZ c .mext
  | 0x28 => decodeK c .wsetl
  | 0x29 => decodeK c .wwr
  | 0x2A => decodeK c .wrd
  | 0x2B => decodeK c .wfill
  | 0x2C => decodeK c .wnorm
  | 0x2D => decodeZ c .wnormv
  | 0x30 => decodeZ c .preseed
  | 0x31 => decodeZ c .peval
  | 0x32 => decodeR c .prdw
  | 0x33 => decodeZ c .prdb
  | 0x40 => decodeB c .bwr
  | 0x41 => decodeK c .brd
  | 0x50 => decodeT c (fun mode len => .ok (.xtr mode len))
  | 0x51 => decodeT c buildPtr
  | _ => .error .unassignedOpcode

/-- The command a word of the opcode table stands for, in the table's bit numbering: a command word is
one 32-bit number handed over whole (20_memory.md R46), so the table's bit i is the word's bit i. Bits
above `nbits` are zero, and no command is wider than 32 bits. -/
def decodeTableWord (nbits w : Nat) : Option Instr :=
  if w % 2 ^ nbits < 2 ^ 32 then
    match decode (BitVec.ofNat 32 (w % 2 ^ nbits)) with
    | .ok i => some i
    | .error _ => none
  else none

/-! ### The encoder, from the same formats

The fields are concatenated from bit 31 down; `setWidth 32` only names the sum of their widths. -/

/-- Format Z (R60). -/
def encodeZ (op : BitVec 8) : Word32 := (op ++ 0#24).setWidth 32
/-- Format K (R61). -/
def encodeK (op : BitVec 8) (k : BitVec 16) : Word32 := (op ++ 0#8 ++ k).setWidth 32
/-- Format B (R62). -/
def encodeB (op : BitVec 8) (addr : BitVec 16) (imm8 : Byte) :
    Word32 := (op ++ imm8 ++ addr).setWidth 32
/-- Format T (R63). -/
def encodeT (op : BitVec 8) (mode : Mode) (len : BitVec 16) : Word32 :=
  (op ++ 0#6 ++ modeBits mode ++ len).setWidth 32
/-- Format N (R64). -/
def encodeN (op : BitVec 8) (n : BitVec 6) : Word32 := (op ++ 0#18 ++ n).setWidth 32
/-- Format R (R65). -/
def encodeR (op : BitVec 8) (row : BitVec 3) : Word32 := (op ++ 0#21 ++ row).setWidth 32

/-- The opcode of each command (R68). -/
def Instr.opcode (i : Instr) : BitVec 8 :=
  match i with
  | .clre => 0x01
  | .gnewi _ => 0x10
  | .gnewl => 0x11
  | .gnext => 0x12
  | .ggetv => 0x13
  | .gsetv => 0x14
  | .ggetp => 0x15
  | .gsetp => 0x16
  | .mext => 0x20
  | .wsetl _ => 0x28
  | .wwr _ => 0x29
  | .wrd _ => 0x2A
  | .wfill _ => 0x2B
  | .wnorm _ => 0x2C
  | .wnormv => 0x2D
  | .preseed => 0x30
  | .peval => 0x31
  | .prdw _ => 0x32
  | .prdb => 0x33
  | .bwr _ _ => 0x40
  | .brd _ => 0x41
  | .xtr _ _ => 0x50
  | .ptr _ _ => 0x51

/-- The word of a command (R60 to R68); for an ill-formed term, the illegal word with the same fields. -/
def encode (i : Instr) : Word32 :=
  match i with
  | .clre => encodeZ i.opcode
  | .gnewi n => encodeN i.opcode n
  | .gnewl => encodeZ i.opcode
  | .gnext => encodeZ i.opcode
  | .ggetv => encodeZ i.opcode
  | .gsetv => encodeZ i.opcode
  | .ggetp => encodeZ i.opcode
  | .gsetp => encodeZ i.opcode
  | .mext => encodeZ i.opcode
  | .wsetl k => encodeK i.opcode k
  | .wwr k => encodeK i.opcode k
  | .wrd k => encodeK i.opcode k
  | .wfill k => encodeK i.opcode k
  | .wnorm k => encodeK i.opcode k
  | .wnormv => encodeZ i.opcode
  | .preseed => encodeZ i.opcode
  | .peval => encodeZ i.opcode
  | .prdw row => encodeR i.opcode row
  | .prdb => encodeZ i.opcode
  | .bwr addr imm8 => encodeB i.opcode addr imm8
  | .brd k => encodeK i.opcode k
  | .xtr mode len => encodeT i.opcode mode len
  | .ptr mode len => encodeT i.opcode mode len

end Sys2Proof
end

