-- ==== Sys2Proof/Machine/State.lean ====
section
/-! DEFINITION. The state of the block (10_state.md R26 to R39), the host accesses still to come, and
the state after reset (R43). -/

namespace Sys2Proof.Machine

open Sys2Proof

/-- The values of ERR (60_exceptions.md R119). Codes 7 to 15 are never produced and have no
constructor. -/
inductive ErrCode where
  /-- 0: no error. -/
  | ok
  /-- 1: a window's maximum is a zero (R120). -/
  | divZero
  /-- 2: reserved, raised by no command (R122). -/
  | invalidSeed
  /-- 3: a finite draw is too large for binary32 (R121). -/
  | f32Range
  /-- 4: an illegal command word (R123). -/
  | illegal
  /-- 5: no generator, or one of the wrong variant (R124). -/
  | badGen
  /-- 6: an address, index or length out of range (R125). -/
  | bounds
deriving DecidableEq, Repr

/-- GVAR (R29, R32): which map the generator is. -/
inductive Variant where
  /-- 0: the integer map. -/
  | int
  /-- 1: the logistic map. -/
  | log
deriving DecidableEq, Repr

/-- A weight cell of the perceptron (R36): three values, the storage code `10` does not exist. -/
inductive Weight where
  | zero
  | plus
  | minus
deriving DecidableEq, Repr

/-- A bias cell of the perceptron (R37). -/
inductive Bias where
  | minusHalf
  | plusHalf
deriving DecidableEq, Repr

/-- Eight like things, numbered 0 to 7 (00_scope.md R10): a row of weights, the rows, the biases. -/
structure Eight (α : Type) where
  c0 : α
  c1 : α
  c2 : α
  c3 : α
  c4 : α
  c5 : α
  c6 : α
  c7 : α
deriving DecidableEq, Repr

/-- The same value in all eight places. -/
def Eight.fill {α : Type} (a : α) : Eight α := ⟨a, a, a, a, a, a, a, a⟩

/-- A sparse memory: the cells written since launch, by address. What a cell not listed holds is said
in Machine/Ops.lean. -/
abbrev Memory (α : Type) := List (Nat × α)

/-- What the host can do to the block: one port access (R40) or a reset (70_reset_and_hazards.md R139). -/
inductive HostAccess where
  /-- CMD, port 0, 32 bits, write only: `HostIssue(c)`. -/
  | writeCmd (c : Word32)
  /-- A read of CMD: does nothing, returns zero. -/
  | readCmd
  /-- `HostReadStatus()`, port 1. -/
  | readStatus
  /-- A write to the read-only STATUS: does nothing, returns zero. -/
  | writeStatus (v : Word32)
  /-- `HostReadAux()`, port 2. -/
  | readAux
  /-- A write to the read-only AUX: does nothing, returns zero. -/
  | writeAux (v : Word32)
  /-- `HostReadData()`, port 3. -/
  | readData
  /-- `HostWriteData(v)`, port 3. -/
  | writeData (v : Word64)
  /-- The reset input (R139). -/
  | reset
deriving DecidableEq, Repr

/-- The state. The fields from `data` to `buf` are the whole architectural state of the block (R26);
`bufcap` is the parameter of the step (R9, R42); `launches`, `inputs` and `reply` are the model's own. -/
structure State where
  /-- DATA (R27). -/
  data : Word64
  /-- ERR, seen in STATUS[3:0] (R29, R31). -/
  err : ErrCode
  /-- ERRIDX, seen in AUX[15:0] (R30). -/
  erridx : BitVec 16
  /-- GV, seen in STATUS[4] (R29, R32). -/
  gv : Bool
  /-- GVAR, seen in STATUS[5] (R29, R32). -/
  gvar : Variant
  /-- GN, seen in STATUS[11:6] (R29, R32). -/
  gn : BitVec 6
  /-- GVAL (R33). -/
  gval : Word64
  /-- GPAR (R34). -/
  gpar : Word64
  /-- W[i][j]: row i holds the weights into output bit i (R36). -/
  w : Eight (Eight Weight)
  /-- B[i] (R37). -/
  b : Eight Bias
  /-- The entries of WIN written since launch (R38). -/
  win : Memory Word64
  /-- WLEN, seen in AUX[31:16] (R30, R38). -/
  wlen : BitVec 16
  /-- The bytes of BUF written since launch (R39). -/
  buf : List Host.Cell
  /-- The parameter BUFCAP, and WCAP with it (R9, R42; log 1). No step writes it. -/
  bufcap : Nat
  /-- How many resets there have been: selects the free contents of the memories (log 3). -/
  launches : Nat
  /-- The host accesses still to come, oldest first (log 2). -/
  inputs : List HostAccess
  /-- What the last access returned to the host, if it returned a value (R40; log 4). -/
  reply : Option Word64
deriving DecidableEq, Repr

/-- A step of the block never stops the machine: an error is a next state (60_exceptions.md R118, R128),
and no address is outside what the BOUNDS check covers. So there is no fault, and no constructor: safe. -/
inductive Fault where
deriving DecidableEq, Repr

/-- Why a command has no meaning. -/
inductive Refusal where
  /-- Raised only by an arm of exec for a command not modelled yet (safe); every command has a meaning,
  so nothing raises it. -/
  | notModelled (mnemonic : String)
deriving DecidableEq, Repr

/-- The state after reset (R43), for the recommended capacity (log 1), with no host access pending. -/
def State.reset : State where
  data := 0
  err := .ok
  erridx := 0
  gv := false
  gvar := .int
  gn := 0
  gval := 0
  gpar := 0
  w := Eight.fill (Eight.fill .zero)
  b := Eight.fill .minusHalf
  win := []
  wlen := 0
  buf := []
  bufcap := Config.bufcapDefault
  launches := 0
  inputs := []
  reply := none

/-! ### Updates, one per register or group of registers written together -/

/-- `DATA <- v`. -/
def State.setData (s : State) (v : Word64) : State := { s with data := v }
/-- `ERR <- e`. -/
def State.setErr (s : State) (e : ErrCode) : State := { s with err := e }
/-- `ERRIDX <- i`. -/
def State.setErridx (s : State) (i : BitVec 16) : State := { s with erridx := i }
/-- `GV <- 1`, `GVAR <- var`, `GN <- n`: written together, by GNEWI and GNEWL only (R29). -/
def State.setGen (s : State) (var : Variant) (n : BitVec 6) : State :=
  { s with gv := true, gvar := var, gn := n }
/-- `GVAL <- v`. -/
def State.setGval (s : State) (v : Word64) : State := { s with gval := v }
/-- `GPAR <- v`. -/
def State.setGpar (s : State) (v : Word64) : State := { s with gpar := v }
/-- All of W and B, written together by a reseed (R36, R37). -/
def State.setPerceptron (s : State) (w : Eight (Eight Weight)) (b : Eight Bias) : State :=
  { s with w := w, b := b }
/-- The contents of WIN. -/
def State.setWin (s : State) (m : Memory Word64) : State := { s with win := m }
/-- `WLEN <- n`. -/
def State.setWlen (s : State) (n : BitVec 16) : State := { s with wlen := n }
/-- The contents of BUF. -/
def State.setBuf (s : State) (m : List Host.Cell) : State := { s with buf := m }
/-- The accesses still to come. -/
def State.setInputs (s : State) (l : List HostAccess) : State := { s with inputs := l }
/-- What the host is returned. -/
def State.setReply (s : State) (r : Option Word64) : State := { s with reply := r }

end Sys2Proof.Machine
end

