-- ==== Sys2Proof/Machine/Ops.lean ====
section
/-! DEFINITION. The operations over memory and over the eight-fold cells, and the error entry and
return (60_exceptions.md R128, R131). -/

namespace Sys2Proof.Machine

open Sys2Proof

/-! ### The eight-fold cells -/

/-- The cell of an index (R10, R36, R37). -/
def Eight.get {α : Type} (v : Eight α) (i : Fin 8) : α :=
  match i with
  | 0 => v.c0
  | 1 => v.c1
  | 2 => v.c2
  | 3 => v.c3
  | 4 => v.c4
  | 5 => v.c5
  | 6 => v.c6
  | 7 => v.c7

/-- The cells given by index. -/
def Eight.tabulate {α : Type} (f : Fin 8 → α) : Eight α :=
  ⟨f 0, f 1, f 2, f 3, f 4, f 5, f 6, f 7⟩

/-! ### Sparse memory

A memory lists the cells written since launch, addresses strictly rising. An address not listed has no
value in the list; `State.bufRead` and `State.winRead` say what the block reads there. -/

/-- The value written last at an address, if one was written. -/
def Memory.find {α : Type} (m : Memory α) (a : Nat) : Option α :=
  match m with
  | [] => none
  | (k, v) :: rest => if k = a then some v else Memory.find rest a

/-- Write one cell, keeping the addresses strictly rising. -/
def Memory.put {α : Type} (m : Memory α) (a : Nat) (v : α) : Memory α :=
  match m with
  | [] => [(a, v)]
  | (k, u) :: rest =>
    if a < k then (a, v) :: (k, u) :: rest
    else if a = k then (a, v) :: rest
    else (k, u) :: Memory.put rest a v

/-- Every listed address is above `lo` and the addresses rise strictly. -/
def Memory.risesFrom {α : Type} (lo : Option Nat) (m : Memory α) : Bool :=
  match m with
  | [] => true
  | (k, _) :: rest =>
    (match lo with
      | none => true
      | some l => decide (l < k)) && Memory.risesFrom (some k) rest

/-- The canonical form: addresses strictly rising. (An address not listed has no value in the list, so
no entry can equal it, and memories that answer every address alike are equal lists.) -/
def Memory.wf {α : Type} (m : Memory α) : Bool := Memory.risesFrom none m

/-- Every listed address is below a capacity (20_memory.md R44). -/
def Memory.below {α : Type} (cap : Nat) (m : Memory α) : Bool :=
  m.all (fun cell => decide (cell.1 < cap))

/-! ### BUF and WIN (R14, R38, R39, R44, R48) -/

/-- `WCAP = BUFCAP` (00_scope.md R9). -/
def State.wcap (s : State) : Nat := s.bufcap

/-- `BUF[a]`: the byte written last, or the unspecified byte the launch left there (R43, R52; log 3). -/
def State.bufRead (s : State) (a : Nat) : Byte :=
  match Memory.find s.buf a with
  | some v => v
  | none => Config.launchByte s.launches a

/-- `BUF[a] <- v`. -/
def State.bufWrite (s : State) (a : Nat) (v : Byte) : State := s.setBuf (Memory.put s.buf a v)

/-- `WIN[k]`: the entry written last, or the unspecified entry the launch left there (R43, R52; log 3). -/
def State.winRead (s : State) (k : Nat) : Word64 :=
  match Memory.find s.win k with
  | some v => v
  | none => Config.launchEntry s.launches k

/-- `WIN[k] <- v`. -/
def State.winWrite (s : State) (k : Nat) (v : Word64) : State := s.setWin (Memory.put s.win k v)

/-- The current window `WIN[0], ..., WIN[WLEN-1]` (R38). -/
def State.window (s : State) : List Word64 := (List.range s.wlen.toNat).map s.winRead

/-! ### Error entry and return -/

/-- `raise E(i)` (00_scope.md R15, 60_exceptions.md R128): ERR and ERRIDX are written and nothing else;
the command ends, so the caller returns this state. -/
def raise (e : ErrCode) (i : Nat) (s : State) : State :=
  (s.setErr e).setErridx (BitVec.ofNat 16 i)

/-- The return from the error state (R117, R131): ERR is cleared, nothing is restored, ERRIDX stays. -/
def clearError (s : State) : State := s.setErr .ok

end Sys2Proof.Machine
end

