-- ==== Sys2Proof/Machine/Operands.lean ====
section
/-! DEFINITION. The operand forms: what a command reads from DATA and how it returns a result there
(10_state.md R27, 30_encoding.md R66). -/

namespace Sys2Proof.Machine

open Sys2Proof

/-- `zext_64(v)` (00_scope.md R12). -/
def zext64 {n : Nat} (v : BitVec n) : Word64 := v.setWidth 64

/-- The whole operand: a binary64 pattern in DATA (R27). -/
def State.dataOperand (s : State) : Word64 := s.data

/-- `DATA[31:0]`: an integer seed or value, a binary32 pattern; the rest is ignored (R27). -/
def State.dataWord (s : State) : Word32 := s.data.extractLsb' 0 32

/-- `DATA[7:0]`: a perceptron seed or input; the rest is ignored (R27). -/
def State.dataByte (s : State) : Byte := s.data.extractLsb' 0 8

/-- `DATA <- zext_64(v)`: a result narrower than 64 bits is zero-extended (R27). -/
def State.returnResult {n : Nat} (s : State) (v : BitVec n) : State := s.setData (zext64 v)

end Sys2Proof.Machine
end

