-- ==== Sys2Proof/Machine/Flags.lean ====
section
/-! DEFINITION. ERR, the block's only flag (10_state.md R31), the views STATUS and AUX (R29, R30), and
the order of checks every command goes through (30_encoding.md R71, 60_exceptions.md R127). -/

namespace Sys2Proof.Machine

open Sys2Proof

/-- The number of an error code (R119). -/
def errBits (e : ErrCode) : BitVec 4 :=
  match e with
  | .ok => 0
  | .divZero => 1
  | .invalidSeed => 2
  | .f32Range => 3
  | .illegal => 4
  | .badGen => 5
  | .bounds => 6

/-- The number of a variant (R29): 0 is INT, 1 is LOG. -/
def variantBit (v : Variant) : BitVec 1 :=
  match v with
  | .int => 0
  | .log => 1

/-- STATUS (R29): ERR in 3:0, GV in 4, GVAR in 5, GN in 11:6, zero in 31:12. -/
def State.status (s : State) : Word32 :=
  (0#20 ++ s.gn ++ variantBit s.gvar ++ BitVec.ofBool s.gv ++ errBits s.err).setWidth 32

/-- AUX (R30): ERRIDX in 15:0, WLEN in 31:16. -/
def State.aux (s : State) : Word32 := (s.wlen ++ s.erridx).setWidth 32

/-- What a command goes through before its own rule (R71, R127): refused while ERR is non-zero (R130),
else ILLEGAL, BOUNDS, BADGEN in that order, each before anything is written, else `body`. -/
def command (legal inBounds genReady : Bool) (body : State → State) (s : State) : State :=
  if s.err ≠ .ok then s
  else if legal = false then raise .illegal 0 s
  else if inBounds = false then raise .bounds 0 s
  else if genReady = false then raise .badGen 0 s
  else body s

/-- The check of GNEXT, GGETV, GSETV, WFILL, XTR and PTR: a generator of either variant (R124). -/
def State.hasGenerator (s : State) : Bool := s.gv

/-- The check of GGETP and GSETP: a logistic generator (R124). -/
def State.hasLogistic (s : State) : Bool := s.gv && decide (s.gvar = .log)

end Sys2Proof.Machine
end

