-- ==== Sys2Proof/Machine/Buffer.lean ====
section
/-! DEFINITION. Buffer access and error clearing (45_buffer_control.md): BWR, BRD, CLRE. -/

namespace Sys2Proof.Machine

open Sys2Proof

/-- R115. -/
def execBwr (addr : BitVec 16) (imm8 : Byte) (s : State) : Host.Outcome State Fault Refusal :=
  .next (command true (decide (addr.toNat < s.bufcap)) true
    (fun s => s.bufWrite addr.toNat imm8) s)

/-- R116. -/
def execBrd (k : BitVec 16) (s : State) : Host.Outcome State Fault Refusal :=
  .next (command true (decide (k.toNat < s.bufcap)) true
    (fun s => s.returnResult (s.bufRead k.toNat)) s)

/-- R117: the one command that is not refused in the error state; with no error it does nothing. -/
def execClre (s : State) : Host.Outcome State Fault Refusal := .next (clearError s)

end Sys2Proof.Machine
end

