-- ==== Sys2Proof/Machine/Mantissa.lean ====
section
/-! DEFINITION. The mantissa-byte extractor (41_mantissa.md): `Extract` and MEXT. -/

namespace Sys2Proof.Machine

open Sys2Proof

/-- `Extract` (R87, R45): bits 7 to 0 of a binary32 pattern. -/
def extract (p : Word32) : Byte := p.extractLsb' 0 8

/-- R88. -/
def execMext (s : State) : Host.Outcome State Fault Refusal :=
  .next (command true true true (fun s => s.returnResult (extract s.dataWord)) s)

end Sys2Proof.Machine
end

