-- ==== Sys2Proof/Machine/Float.lean ====
section
/-! DEFINITION. The floating primitives (00_scope.md R16 to R25) on bit patterns, computed exactly over
the natural numbers and rounded once. -/

namespace Sys2Proof.Machine

open Sys2Proof

/-! ### binary64 patterns (R16) -/

/-- The sign bit `p[63]`. -/
def F64.sign (p : Word64) : Bool := p.getLsbD 63
/-- The biased exponent `p[62:52]`. -/
def F64.exponent (p : Word64) : Nat := (p.extractLsb' 52 11).toNat
/-- The fraction `p[51:0]`. -/
def F64.fraction (p : Word64) : Nat := (p.extractLsb' 0 52).toNat
/-- A NaN: exponent 2047, fraction not 0. -/
def F64.isNaN (p : Word64) : Bool := decide (F64.exponent p = 2047) && decide (F64.fraction p ≠ 0)
/-- An infinity: exponent 2047, fraction 0. -/
def F64.isInf (p : Word64) : Bool := decide (F64.exponent p = 2047) && decide (F64.fraction p = 0)
/-- Neither a NaN nor an infinity. -/
def F64.isFinite (p : Word64) : Bool := decide (F64.exponent p ≠ 2047)
/-- A zero of either sign. -/
def F64.isZero (p : Word64) : Bool := decide (F64.exponent p = 0) && decide (F64.fraction p = 0)

/-- 1.0 as a count of binary64's least unit `2^-1074` (R16). -/
@[irreducible] def F64.one : Nat := 2 ^ 1074

/-- binary32's least unit `2^-149` (R17) as a count of binary64's. -/
@[irreducible] def F64.perF32Unit : Nat := 2 ^ 925

/-- `|real(p)|` of a finite pattern, as an exact count of the unit `2^-1074` (R16): `f` for a subnormal,
`(2^52 + f) * 2^(e-1)` for a normal. On an infinity the same formula gives `2^2098`, beyond every finite
pattern, which is where the comparisons (R20) put it. -/
def F64.magnitude (p : Word64) : Nat :=
  if F64.exponent p = 0 then F64.fraction p
  else (2 ^ 52 + F64.fraction p) * 2 ^ (F64.exponent p - 1)

/-- `real(p)` of a finite pattern in units of `2^-1074`. -/
def F64.units (p : Word64) : Int :=
  if F64.sign p then - (F64.magnitude p : Int) else (F64.magnitude p : Int)

/-- A pattern from a sign and the pattern of its magnitude. -/
def F64.withSign (neg : Bool) (mag : Nat) : Word64 :=
  BitVec.ofNat 64 (mag + if neg then 2 ^ 63 else 0)

/-- The infinity of a sign. -/
def F64.infinity (neg : Bool) : Word64 := F64.withSign neg (2047 * 2 ^ 52)

/-- The zero of a sign. -/
def F64.zero (neg : Bool) : Word64 := F64.withSign neg 0

/-! ### Rounding (R18, R22) -/

/-- The integer nearest `n / d`, ties to the even one (`d > 0`). -/
def nearestEven (n d : Nat) : Nat :=
  if 2 * (n % d) < d then n / d
  else if d < 2 * (n % d) then n / d + 1
  else if n / d % 2 = 0 then n / d
  else n / d + 1

/-- How many binary places above the format's least unit the spacing lies for a value `n / d` counted in
that unit, in a format with `p` significant bits: 0 below `2^p`, then one more per binade. -/
def roundShift (p n d : Nat) : Nat := (n / d).log2 - (p - 1)

/-- The pattern (without sign) of the value `n / d`, counted in the format's least unit, rounded to
nearest with ties to even, the exponent range unbounded above. The rounded value is `k * 2^j` units with
`k <= 2^p`, and its pattern is `j * 2^(p-1) + k`: an exponent field `j + 1` over fraction
`k - 2^(p-1)` for `k` at or above `2^(p-1)`, the subnormal `k` for `j = 0`, and a carry out of the
significand steps the exponent field. -/
def roundPattern (p n d : Nat) : Nat :=
  roundShift p n d * 2 ^ (p - 1) + nearestEven n (d * 2 ^ roundShift p n d)

/-- binary64 of `± n / d` units of `2^-1074`: rounded once, to the infinity of the sign on overflow, to a
zero of the sign on underflow (R18). -/
def F64.ofRatio (neg : Bool) (n d : Nat) : Word64 :=
  F64.withSign neg (min (roundPattern 53 n d) (2047 * 2 ^ 52))

/-! ### Arithmetic (R18, R19) -/

/-- `f64_mul` (R18, R19). -/
def F64.mul (a b : Word64) : Word64 :=
  if F64.isNaN a || F64.isNaN b then Config.nan64
  else if F64.isInf a || F64.isInf b then
    if F64.isZero a || F64.isZero b then Config.nan64
    else F64.infinity (F64.sign a != F64.sign b)
  else F64.ofRatio (F64.sign a != F64.sign b) (F64.magnitude a * F64.magnitude b) F64.one

/-- `f64_sub` (R18, R19): `a - b`. A zero difference is negative for `(-0) - (+0)` only. -/
def F64.sub (a b : Word64) : Word64 :=
  if F64.isNaN a || F64.isNaN b then Config.nan64
  else if F64.isInf a then
    if F64.isInf b && F64.sign a == F64.sign b then Config.nan64 else F64.infinity (F64.sign a)
  else if F64.isInf b then F64.infinity (!F64.sign b)
  else if F64.units a - F64.units b = 0 then F64.zero (F64.sign a && !F64.sign b)
  else F64.ofRatio (decide (F64.units a - F64.units b < 0)) (F64.units a - F64.units b).natAbs 1

/-- `f64_div` (R18, R19): `a / b`. Infinity over a finite non-zero value is not in R18's list; it is
IEEE 754's infinity of the quotient sign (log 7). -/
def F64.div (a b : Word64) : Word64 :=
  if F64.isNaN a || F64.isNaN b then Config.nan64
  else if F64.isInf a then
    if F64.isInf b then Config.nan64 else F64.infinity (F64.sign a != F64.sign b)
  else if F64.isInf b then F64.zero (F64.sign a != F64.sign b)
  else if F64.isZero b then
    if F64.isZero a then Config.nan64 else F64.infinity (F64.sign a != F64.sign b)
  else F64.ofRatio (F64.sign a != F64.sign b) (F64.magnitude a * F64.one) (F64.magnitude b)

/-! ### Comparisons (R20), absolute value (R21) -/

/-- `f64_lt` (R20): false on a NaN, equal zeros, infinities beyond every finite value. -/
def F64.lt (a b : Word64) : Bool :=
  !F64.isNaN a && !F64.isNaN b && decide (F64.units a < F64.units b)

/-- `f64_gt` (R20). -/
def F64.gt (a b : Word64) : Bool :=
  !F64.isNaN a && !F64.isNaN b && decide (F64.units b < F64.units a)

/-- `f64_eq` (R20). -/
def F64.eq (a b : Word64) : Bool :=
  !F64.isNaN a && !F64.isNaN b && decide (F64.units a = F64.units b)

/-- `f64_abs` (R21): the sign bit cleared, nothing else. -/
def F64.abs (a : Word64) : Word64 := (0#1 ++ a.extractLsb' 0 63).setWidth 64

/-! ### Conversions (R22, R23, R24) -/

/-- `f64_to_f32` (R22): `none` is `ok = false`. The least unit of binary32 is `2^-149`, which is `2^925`
units of `2^-1074`; `|y| >= 2^128` is a pattern at or above the infinity's. -/
def F64.toF32 (x : Word64) : Option Word32 :=
  if F64.isNaN x then some Config.nan32
  else if F64.isInf x then some (if F64.sign x then 0xFF800000 else 0x7F800000)
  else if F64.isZero x then some (if F64.sign x then 0x80000000 else 0x00000000)
  else if 255 * 2 ^ 23 ≤ roundPattern 24 (F64.magnitude x) F64.perF32Unit then none
  else some (BitVec.ofNat 32
    (roundPattern 24 (F64.magnitude x) F64.perF32Unit + if F64.sign x then 2 ^ 31 else 0))

/-- `trunc(real(p))` of a finite pattern (R13): toward zero. -/
def F64.trunc (p : Word64) : Int := (F64.units p).tdiv F64.one

/-- `F2B` (R23): 0 for a NaN or an infinity, else the truncation modulo 256 into 0 to 255, also for
negative values. The one place that narrows a floating value (93_implementation_defined.md U3; log 6). -/
def F64.toByte (x : Word64) : Byte :=
  if F64.isNaN x || F64.isInf x then 0
  else BitVec.ofInt 8 (F64.trunc x % 256)

/-- `I2F` (R24): the binary64 pattern of a natural number; exact below `2^32`. -/
def F64.ofNat (v : Nat) : Word64 := F64.ofRatio false (v * F64.one) 1

end Sys2Proof.Machine
end

