-- ==== Sys2Proof/Machine/Generator.lean ====
section
/-! DEFINITION. The chaotic-map iterator (40_generator.md): the two step functions, the draw, and GNEWI,
GNEWL, GNEXT, GGETV, GSETV, GGETP, GSETP. -/

namespace Sys2Proof.Machine

open Sys2Proof

/-- `IntStep` (R76): the exact product modulo `2^n`, a zero coerced to one, then the increment. -/
def intStep (v n : Nat) : Nat :=
  (if v * (1 + v) % 2 ^ n = 0 then 1 else v * (1 + v) % 2 ^ n) + 1

/-- `LogStep` (R77): `(x * a) * (1 - x)`, three rounded operations, left to right. -/
def logStep (x a : Word64) : Word64 := F64.mul (F64.mul x a) (F64.sub Config.fOne x)

/-- The value a draw stores in GVAL: a function of GVAR, GN, GVAL and GPAR alone (R75, R85). -/
def nextValue (var : Variant) (n : BitVec 6) (v a : Word64) : Word64 :=
  match var with
  | .int => BitVec.ofNat 64 (intStep (v.extractLsb' 0 32).toNat n.toNat)
  | .log => logStep v a

/-- A draw as a floating value (R75, `DrawF`): exact for an integer draw (R24). -/
def floatOfDraw (var : Variant) (v : Word64) : Word64 :=
  match var with
  | .int => F64.ofNat v.toNat
  | .log => v

/-- `Draw` (R75): the new value, and the state with it in GVAL. -/
def draw (s : State) : Word64 × State :=
  (nextValue s.gvar s.gn s.gval s.gpar, s.setGval (nextValue s.gvar s.gn s.gval s.gpar))

/-- `DrawF` (R75). -/
def drawF (s : State) : Word64 × State :=
  (floatOfDraw s.gvar (draw s).1, (draw s).2)

/-! ### The commands -/

/-- R78. -/
def execGnewi (n : BitVec 6) (s : State) : Host.Outcome State Fault Refusal :=
  .next (command (legalExponent n) true true
    (fun s => ((s.setGen .int n).setGval (zext64 s.dataWord)).setGpar 0) s)

/-- R79. -/
def execGnewl (s : State) : Host.Outcome State Fault Refusal :=
  .next (command true true true
    (fun s => ((s.setGen .log 0).setGval s.dataOperand).setGpar Config.fDefpar) s)

/-- R80. -/
def execGnext (s : State) : Host.Outcome State Fault Refusal :=
  .next (command true true s.hasGenerator
    (fun s => (draw s).2.returnResult (draw s).1) s)

/-- R81. -/
def execGgetv (s : State) : Host.Outcome State Fault Refusal :=
  .next (command true true s.hasGenerator (fun s => s.returnResult s.gval) s)

/-- What GSETV stores (R82): the low word under INT, the whole operand under LOG. -/
def setValueOperand (s : State) : Word64 :=
  match s.gvar with
  | .int => zext64 s.dataWord
  | .log => s.dataOperand

/-- R82. -/
def execGsetv (s : State) : Host.Outcome State Fault Refusal :=
  .next (command true true s.hasGenerator (fun s => s.setGval (setValueOperand s)) s)

/-- R83. -/
def execGgetp (s : State) : Host.Outcome State Fault Refusal :=
  .next (command true true s.hasLogistic (fun s => s.returnResult s.gpar) s)

/-- R84. -/
def execGsetp (s : State) : Host.Outcome State Fault Refusal :=
  .next (command true true s.hasLogistic (fun s => s.setGpar s.dataOperand) s)

end Sys2Proof.Machine
end

