-- ==== Sys2Proof/Machine/Normalizer.lean ====
section
/-! DEFINITION. The window-normalisation quantiser (42_normalizer.md): `MinMax`, `Normalize`, and WSETL,
WWR, WRD, WFILL, WNORM, WNORMV. -/

namespace Sys2Proof.Machine

open Sys2Proof

/-- One step of the scan for the minimum (R90). -/
def scanMin (mn x : Word64) : Word64 := if F64.lt x mn then x else mn

/-- One step of the scan for the maximum (R90). -/
def scanMax (mx x : Word64) : Word64 := if F64.gt x mx then x else mx

/-- The minimum `MinMax` finds in the window `first :: rest`, scanning in ascending order (R90). -/
def windowMin (first : Word64) (rest : List Word64) : Word64 := rest.foldl scanMin first

/-- The maximum `MinMax` finds in the window `first :: rest` (R90). -/
def windowMax (first : Word64) (rest : List Word64) : Word64 := rest.foldl scanMax first

/-- The value `Normalize` narrows (R91): `abs(((v - mn) / mx) * 255)`, three rounded operations. -/
def normalizedValue (v mn mx : Word64) : Word64 :=
  F64.abs (F64.mul (F64.div (F64.sub v mn) mx) Config.f255)

/-- `Normalize` (R91) of a target against a window: `none` is DIV_ZERO, tested before any arithmetic.
Every caller has a window of at least one entry (R96, R97, R100). -/
def normalize (window : List Word64) (v : Word64) : Option Byte :=
  match window with
  | [] => none
  | first :: rest =>
    if F64.eq (windowMax first rest) 0 then none
    else some (F64.toByte (normalizedValue v (windowMin first rest) (windowMax first rest)))

/-- `WIN[j] <- DrawF()` for `count` indices from `j` up (R95, R100). -/
def fillFrom (count j : Nat) (s : State) : State :=
  match count with
  | 0 => s
  | n + 1 => fillFrom n (j + 1) ((drawF s).2.winWrite j (drawF s).1)

/-- Materialise a window of `len` draws: entries 0 to `len - 1`, then WLEN (R95, R100). -/
def materialize (len : Nat) (s : State) : State :=
  (fillFrom len 0 s).setWlen (BitVec.ofNat 16 len)

/-- The end of WNORM and WNORMV: the byte to DATA, or DIV_ZERO at an index (R96, R97). -/
def returnNormalized (result : Option Byte) (i : Nat) (s : State) : State :=
  match result with
  | some b => s.returnResult b
  | none => raise .divZero i s

/-! ### The commands -/

/-- R92. -/
def execWsetl (k : BitVec 16) (s : State) : Host.Outcome State Fault Refusal :=
  .next (command true (decide (k.toNat ≤ s.wcap)) true (fun s => s.setWlen k) s)

/-- R93. -/
def execWwr (k : BitVec 16) (s : State) : Host.Outcome State Fault Refusal :=
  .next (command true (decide (k.toNat < s.wcap)) true
    (fun s => s.winWrite k.toNat s.dataOperand) s)

/-- R94. -/
def execWrd (k : BitVec 16) (s : State) : Host.Outcome State Fault Refusal :=
  .next (command true (decide (k.toNat < s.wcap)) true
    (fun s => s.returnResult (s.winRead k.toNat)) s)

/-- R95. -/
def execWfill (k : BitVec 16) (s : State) : Host.Outcome State Fault Refusal :=
  .next (command true (decide (k.toNat ≤ s.wcap)) s.hasGenerator (materialize k.toNat) s)

/-- R96. -/
def execWnorm (k : BitVec 16) (s : State) : Host.Outcome State Fault Refusal :=
  .next (command true (decide (k.toNat < s.wlen.toNat)) true
    (fun s => returnNormalized (normalize s.window (s.winRead k.toNat)) k.toNat s) s)

/-- R97. -/
def execWnormv (s : State) : Host.Outcome State Fault Refusal :=
  .next (command true (decide (s.wlen.toNat ≠ 0)) true
    (fun s => returnNormalized (normalize s.window s.dataOperand) 0 s) s)

end Sys2Proof.Machine
end

