-- ==== Sys2Proof/Machine/Cipher.lean ====
section
/-! DEFINITION. The three derivations of a keystream byte (41_mantissa.md R89, 43_xor_cipher.md R99,
R100), the loop both transforms share (20_memory.md R57), and XTR. -/

namespace Sys2Proof.Machine

open Sys2Proof

/-- What deriving one keystream byte ends in: the byte, or a data-dependent error at an index, with the
state the draws left (R128: every assignment before a raise stays). -/
inductive Derived where
  | byte (k : Byte) (s : State)
  | raised (e : ErrCode) (i : Nat) (s : State)
deriving DecidableEq, Repr

/-- The narrowing of a RawCast draw (R99): `v mod 256` under INT, `F2B(v)` under LOG. -/
def narrowDraw (var : Variant) (v : Word64) : Byte :=
  match var with
  | .int => v.extractLsb' 0 8
  | .log => F64.toByte v

/-- `DeriveRaw` (R99): one draw; cannot fail. -/
def deriveRaw (s : State) : Derived :=
  .byte (narrowDraw s.gvar (draw s).1) (draw s).2

/-- `DeriveMantissa` (R89): one draw, converted to binary32; F32_RANGE leaves the draw made. -/
def deriveMantissa (i : Nat) (s : State) : Derived :=
  match F64.toF32 (drawF s).1 with
  | some p => .byte (extract p) (drawF s).2
  | none => .raised .f32Range i (drawF s).2

/-- The entry of byte `i`'s window that is normalised: entry `i` (R100, D13, U7; log 8). -/
def windowTarget (i : Nat) (s : State) : Word64 := s.winRead i

/-- `DeriveWindow` (R100): a fresh window of `len` draws, its target entry normalised against it. -/
def deriveWindow (i len : Nat) (s : State) : Derived :=
  match normalize (materialize len s).window (windowTarget i (materialize len s)) with
  | some k => .byte k (materialize len s)
  | none => .raised .divZero i (materialize len s)

/-- `WindowPrologue` (R100): the throwaway window of `len` draws. -/
def windowPrologue (len : Nat) (s : State) : State := materialize len s

/-- The loop of a transform (R57, R102 to R104, R113): for `count` bytes from `i` up, derive, then apply
to `BUF[i]`; an error ends it there, with bytes before `i` transformed (R129). -/
def transformFrom (derive : Nat → State → Derived) (apply : Nat → Byte → State → State)
    (count i : Nat) (s : State) : State :=
  match count with
  | 0 => s
  | n + 1 =>
    match derive i s with
    | .byte k t => transformFrom derive apply n (i + 1) (apply i k t)
    | .raised e j t => raise e j t

/-- `BUF[i] <- BUF[i] xor k` (R102 to R104). -/
def applyXor (i : Nat) (k : Byte) (s : State) : State := s.bufWrite i (s.bufRead i ^^^ k)

/-- XTR after its checks (R101): length 0 does nothing; else the loop of the mode. -/
def xtrBody (mode : Mode) (len : Nat) (s : State) : State :=
  if len = 0 then s
  else
    match mode with
    | .rawCast => transformFrom (fun _ s => deriveRaw s) applyXor len 0 s
    | .mantissaByte => transformFrom deriveMantissa applyXor len 0 s
    | .windowNormalized =>
      transformFrom (fun i s => deriveWindow i len s) applyXor len 0 (windowPrologue len s)

/-- R101. -/
def execXtr (mode : Mode) (len : BitVec 16) (s : State) : Host.Outcome State Fault Refusal :=
  .next (command true (decide (len.toNat ≤ s.bufcap)) s.hasGenerator (xtrBody mode len.toNat) s)

end Sys2Proof.Machine
end

