-- ==== Sys2Proof/Machine/Perceptron.lean ====
section
/-! DEFINITION. The 8-bit binary perceptron (44_perceptron.md): `Reseed`, `Evaluate`, and PRESEED, PEVAL,
PRDW, PRDB, PTR. -/

namespace Sys2Proof.Machine

open Sys2Proof

/-- The number a weight stands for (R36). -/
def weightValue (x : Weight) : Int :=
  match x with
  | .zero => 0
  | .plus => 1
  | .minus => -1

/-- `enc` (R36, R111): `00` is 0, `01` is +1, `11` is -1. -/
def weightBits (x : Weight) : BitVec 2 :=
  match x with
  | .zero => 0
  | .plus => 1
  | .minus => 3

/-- Twice the number a bias stands for (R37): the sum of R108 is taken in halves, exactly. -/
def biasHalves (x : Bias) : Int :=
  match x with
  | .minusHalf => -1
  | .plusHalf => 1

/-- The stored bit of a bias (R37, R112). -/
def biasBit (x : Bias) : BitVec 1 :=
  match x with
  | .minusHalf => 0
  | .plusHalf => 1

/-- `W[i][j]` after `Reseed(seed)` (R107). -/
def reseedWeight (seed : Byte) (i j : Fin 8) : Weight :=
  if j ≠ i then .zero
  else if seed.getLsbD i.val then .minus
  else .plus

/-- `B[i]` after `Reseed(seed)` (R107). -/
def reseedBias (seed : Byte) (i : Fin 8) : Bias :=
  if seed.getLsbD i.val then .plusHalf else .minusHalf

/-- `Reseed` (R107): all 64 weights and all 8 biases are written. -/
def reseed (seed : Byte) (s : State) : State :=
  s.setPerceptron
    (Eight.tabulate (fun i => Eight.tabulate (fun j => reseedWeight seed i j)))
    (Eight.tabulate (fun i => reseedBias seed i))

/-- `W[i][j] * x[j]` (R108). -/
def weightedBit (row : Eight Weight) (x : Byte) (j : Fin 8) : Int :=
  weightValue (Eight.get row j) * (if x.getLsbD j.val then 1 else 0)

/-- Twice the sum of R108: `2 * (B[i] + W[i][0]*x[0] + ... + W[i][7]*x[7])`, all eight weights read. -/
def doubledSum (row : Eight Weight) (bias : Bias) (x : Byte) : Int :=
  biasHalves bias + 2 *
    (weightedBit row x 0 + weightedBit row x 1 + weightedBit row x 2 + weightedBit row x 3 +
     weightedBit row x 4 + weightedBit row x 5 + weightedBit row x 6 + weightedBit row x 7)

/-- Output bit `i` (R108): 1 exactly when the sum is at least 0. -/
def outputBit (w : Eight (Eight Weight)) (b : Eight Bias) (x : Byte) (i : Fin 8) : Bool :=
  decide (0 ≤ doubledSum (Eight.get w i) (Eight.get b i) x)

/-- A byte from its bits, bit `i` of weight `2^i` (00_scope.md R11). -/
def byteOfBits (f : Fin 8 → Bool) : Byte :=
  (BitVec.ofBool (f 7) ++ BitVec.ofBool (f 6) ++ BitVec.ofBool (f 5) ++ BitVec.ofBool (f 4) ++
   BitVec.ofBool (f 3) ++ BitVec.ofBool (f 2) ++ BitVec.ofBool (f 1) ++
   BitVec.ofBool (f 0)).setWidth 8

/-- `Evaluate` (R108). -/
def evaluate (w : Eight (Eight Weight)) (b : Eight Bias) (x : Byte) : Byte :=
  byteOfBits (outputBit w b x)

/-- A row of weights as PRDW delivers it (R111): `W[row][j]` in bits `2j+1 : 2j`. -/
def rowBits (row : Eight Weight) : BitVec 16 :=
  (weightBits (Eight.get row 7) ++ weightBits (Eight.get row 6) ++ weightBits (Eight.get row 5) ++
   weightBits (Eight.get row 4) ++ weightBits (Eight.get row 3) ++ weightBits (Eight.get row 2) ++
   weightBits (Eight.get row 1) ++ weightBits (Eight.get row 0)).setWidth 16

/-- The biases as PRDB delivers them (R112): `b[i]` in bit `i`. -/
def biasBits (b : Eight Bias) : Byte :=
  (biasBit (Eight.get b 7) ++ biasBit (Eight.get b 6) ++ biasBit (Eight.get b 5) ++
   biasBit (Eight.get b 4) ++ biasBit (Eight.get b 3) ++ biasBit (Eight.get b 2) ++
   biasBit (Eight.get b 1) ++ biasBit (Eight.get b 0)).setWidth 8

/-- `Reseed(s)`, then `BUF[i] <- Evaluate(BUF[i])` (R113). -/
def applyPerceptron (i : Nat) (k : Byte) (s : State) : State :=
  (reseed k s).bufWrite i (evaluate (reseed k s).w (reseed k s).b (s.bufRead i))

/-- The seed of byte `i` (R113). -/
def deriveSeed (mode : Mode) (len i : Nat) (s : State) : Derived :=
  if mode = .mantissaByte then deriveMantissa i s else deriveWindow i len s

/-- PTR after its checks (R113): length 0 does nothing. -/
def ptrBody (mode : Mode) (len : Nat) (s : State) : State :=
  if len = 0 then s
  else if mode = .windowNormalized then
    transformFrom (deriveSeed mode len) applyPerceptron len 0 (windowPrologue len s)
  else transformFrom (deriveSeed mode len) applyPerceptron len 0 s

/-! ### The commands -/

/-- R109. -/
def execPreseed (s : State) : Host.Outcome State Fault Refusal :=
  .next (command true true true (fun s => reseed s.dataByte s) s)

/-- R110. -/
def execPeval (s : State) : Host.Outcome State Fault Refusal :=
  .next (command true true true (fun s => s.returnResult (evaluate s.w s.b s.dataByte)) s)

/-- R111. -/
def execPrdw (row : BitVec 3) (s : State) : Host.Outcome State Fault Refusal :=
  .next (command true true true
    (fun s => s.returnResult (rowBits (Eight.get s.w row.toFin))) s)

/-- R112. -/
def execPrdb (s : State) : Host.Outcome State Fault Refusal :=
  .next (command true true true (fun s => s.returnResult (biasBits s.b)) s)

/-- R113; RawCast is illegal (R69 (e)). -/
def execPtr (mode : Mode) (len : BitVec 16) (s : State) : Host.Outcome State Fault Refusal :=
  .next (command (legalPerceptronMode mode) (decide (len.toNat ≤ s.bufcap)) s.hasGenerator
    (ptrBody mode len.toNat) s)

end Sys2Proof.Machine
end

