-- ==== Sys2Proof/Machine/Dispatch.lean ====
section
/-! DEFINITION. One arm per command (30_encoding.md R68). -/

namespace Sys2Proof.Machine

def exec (i : Instr) (s : State) : Host.Outcome State Fault Refusal :=
  match i with
  | .clre => Sys2Proof.Machine.execClre s
  | .gnewi n => Sys2Proof.Machine.execGnewi n s
  | .gnewl => Sys2Proof.Machine.execGnewl s
  | .gnext => Sys2Proof.Machine.execGnext s
  | .ggetv => Sys2Proof.Machine.execGgetv s
  | .gsetv => Sys2Proof.Machine.execGsetv s
  | .ggetp => Sys2Proof.Machine.execGgetp s
  | .gsetp => Sys2Proof.Machine.execGsetp s
  | .mext => Sys2Proof.Machine.execMext s
  | .wsetl k => Sys2Proof.Machine.execWsetl k s
  | .wwr k => Sys2Proof.Machine.execWwr k s
  | .wrd k => Sys2Proof.Machine.execWrd k s
  | .wfill k => Sys2Proof.Machine.execWfill k s
  | .wnorm k => Sys2Proof.Machine.execWnorm k s
  | .wnormv => Sys2Proof.Machine.execWnormv s
  | .preseed => Sys2Proof.Machine.execPreseed s
  | .peval => Sys2Proof.Machine.execPeval s
  | .prdw row => Sys2Proof.Machine.execPrdw row s
  | .prdb => Sys2Proof.Machine.execPrdb s
  | .bwr addr imm8 => Sys2Proof.Machine.execBwr addr imm8 s
  | .brd k => Sys2Proof.Machine.execBrd k s
  | .xtr mode len => Sys2Proof.Machine.execXtr mode len s
  | .ptr mode len => Sys2Proof.Machine.execPtr mode len s

end Sys2Proof.Machine
end

