-- ==== Sys2Proof/Machine/Ports.lean ====
section
/-! DEFINITION. The host's accesses (10_state.md R40), issuing a command word (30_encoding.md R71), and
the reset event (70_reset_and_hazards.md R139). -/

namespace Sys2Proof.Machine

open Sys2Proof

/-- A word that is no command (R69, R71 step 2): refused like any other while ERR is non-zero, else
ILLEGAL with index 0 (R123). -/
def issueIllegal (s : State) : State :=
  if s.err ≠ .ok then s else raise .illegal 0 s

/-- `Issue(c)` (R71). The refusal test of step 1 is in every meaning (`command`) and in `issueIllegal`;
the exact CLRE word is the one word that decodes to `clre`, whose meaning has no refusal test. -/
def issue (c : Word32) (s : State) : Host.Outcome State Fault Refusal :=
  match decode c with
  | .ok i => exec i s
  | .error _ => .next (issueIllegal s)

/-- The state a reset leaves (R43, R139): every register at its reset value, both memories with contents
of a new launch (log 3), the capacity as it was, the accesses still to come as they were. -/
def resetBlock (s : State) : State :=
  { State.reset with bufcap := s.bufcap, launches := s.launches + 1, inputs := s.inputs }

/-- One host access (R40), `s` being the state with the access taken off the inputs. An access that
returns a value leaves it in `reply`, zero-extended (log 4); one that does not leaves none. -/
def hostAccess (a : HostAccess) (s : State) : Host.Outcome State Fault Refusal :=
  match a with
  | .writeCmd c => issue c (s.setReply none)
  | .readCmd => .next (s.setReply (some 0))
  | .readStatus => .next (s.setReply (some (zext64 s.status)))
  | .writeStatus _ => .next (s.setReply (some 0))
  | .readAux => .next (s.setReply (some (zext64 s.aux)))
  | .writeAux _ => .next (s.setReply (some 0))
  | .readData => .next (s.setReply (some s.data))
  | .writeData v => .next ((s.setData v).setReply none)
  | .reset => .next (resetBlock s)

end Sys2Proof.Machine
end

