-- ==== Sys2Proof/Machine/Step.lean ====
section
/-! DEFINITION. One step: the next host access, or nothing when none is pending
(70_reset_and_hazards.md R139, R150). -/

namespace Sys2Proof.Machine

open Sys2Proof

/-- One port access (R150). With no access pending the block is idle: it does nothing by itself (R139). -/
def step (s : State) : Host.Outcome State Fault Refusal :=
  match s.inputs with
  | [] => .next s
  | a :: rest => hostAccess a (s.setInputs rest)

/-- The state whose next host access writes the word to CMD. The block fetches nothing (R28): a command
comes from the host, so this stands for the host's next access (log 2). -/
def State.withFetchWord (s : State) (nbits w : Nat) : State :=
  s.setInputs (.writeCmd (BitVec.ofNat 32 (w % 2 ^ nbits)) :: s.inputs)

end Sys2Proof.Machine
end

