-- ==== Sys2Proof/Safety.lean ====
section
/-! DEFINITION. The terms claims use: the invariant of the state, when a word, a bound or a generator is
wanting, and the sequence of draws a state is about to make. -/

namespace Sys2Proof.Machine

open Sys2Proof

/-! ### The invariant -/

/-- What every step keeps: the two memories in canonical form and inside their spaces (20_memory.md R44),
the window length within WCAP (10_state.md R38), BUFCAP in its range (00_scope.md R9), the generator
registers as R29, R32 to R34 and R43 describe them, and no INVALID_SEED (60_exceptions.md R122). -/
structure State.Inv (s : State) : Prop where
  capacity : Config.bufcapMin ≤ s.bufcap ∧ s.bufcap ≤ Config.bufcapMax
  bufCanonical : Memory.wf s.buf = true
  bufInside : Memory.below s.bufcap s.buf = true
  winCanonical : Memory.wf s.win = true
  winInside : Memory.below s.wcap s.win = true
  windowLength : s.wlen.toNat ≤ s.wcap
  noGenerator : s.gv = false → s.gvar = .int ∧ s.gn = 0 ∧ s.gval = 0
  logExponent : s.gvar = .log → s.gn = 0
  intExponent : s.gv = true → s.gvar = .int → 1 ≤ s.gn.toNat ∧ s.gn.toNat ≤ 32
  intValue : s.gvar = .int → s.gval.extractLsb' 32 32 = 0
  intCoefficient : s.gvar = .int → s.gpar = 0
  errorCode : s.err ≠ .invalidSeed

/-- The registers have the values of R43, and STATUS and AUX read zero; nothing is said of WIN and BUF,
which R43 leaves unspecified. -/
structure AtResetValues (s : State) : Prop where
  data : s.data = 0
  err : s.err = .ok
  erridx : s.erridx = 0
  gv : s.gv = false
  gvar : s.gvar = .int
  gn : s.gn = 0
  gval : s.gval = 0
  gpar : s.gpar = 0
  weights : ∀ i j, Eight.get (Eight.get s.w i) j = .zero
  biases : ∀ i, Eight.get s.b i = .minusHalf
  wlen : s.wlen = 0
  status : s.status = 0
  aux : s.aux = 0

/-! ### When a command is turned away -/

/-- The opcodes of format Z (30_encoding.md R68). -/
def formatZOpcodes : List Nat :=
  [0x01, 0x11, 0x12, 0x13, 0x14, 0x15, 0x16, 0x20, 0x2D, 0x30, 0x31, 0x33]

/-- The opcodes of format K (R68). -/
def formatKOpcodes : List Nat := [0x28, 0x29, 0x2A, 0x2B, 0x2C, 0x41]

/-- The opcodes of format T (R68). -/
def formatTOpcodes : List Nat := [0x50, 0x51]

/-- The 23 assigned opcodes (R68): formats Z, K and T, and the one command of each of N, R and B. -/
def assignedOpcodes : List Nat :=
  formatZOpcodes ++ formatKOpcodes ++ formatTOpcodes ++ [0x10, 0x32, 0x40]

/-- R69, case by case, on the word as a number. -/
def WordIllegal (c : Word32) : Prop :=
  -- (a) an opcode that is not assigned
  c.toNat / 2 ^ 24 ∉ assignedOpcodes ∨
  -- (b) a must-be-zero bit of the format is 1
  (c.toNat / 2 ^ 24 ∈ formatZOpcodes ∧ c.toNat % 2 ^ 24 ≠ 0) ∨
  (c.toNat / 2 ^ 24 ∈ formatKOpcodes ∧ c.toNat / 2 ^ 16 % 2 ^ 8 ≠ 0) ∨
  (c.toNat / 2 ^ 24 ∈ formatTOpcodes ∧ c.toNat / 2 ^ 18 % 2 ^ 6 ≠ 0) ∨
  (c.toNat / 2 ^ 24 = 0x10 ∧ c.toNat / 2 ^ 6 % 2 ^ 18 ≠ 0) ∨
  (c.toNat / 2 ^ 24 = 0x32 ∧ c.toNat / 2 ^ 3 % 2 ^ 21 ≠ 0) ∨
  -- (c) GNEWI with n = 0 or n >= 33
  (c.toNat / 2 ^ 24 = 0x10 ∧ (c.toNat % 2 ^ 6 = 0 ∨ 33 ≤ c.toNat % 2 ^ 6)) ∨
  -- (d) mode 3
  (c.toNat / 2 ^ 24 ∈ formatTOpcodes ∧ c.toNat / 2 ^ 16 % 2 ^ 2 = 3) ∨
  -- (e) PTR with mode 0
  (c.toNat / 2 ^ 24 = 0x51 ∧ c.toNat / 2 ^ 16 % 2 ^ 2 = 0)

/-- An address, index or length of the command is out of range (R50, R125). -/
def OutOfBounds (i : Instr) (s : State) : Prop :=
  match i with
  | .clre => False
  | .gnewi _ => False
  | .gnewl => False
  | .gnext => False
  | .ggetv => False
  | .gsetv => False
  | .ggetp => False
  | .gsetp => False
  | .mext => False
  | .wsetl k => s.wcap < k.toNat
  | .wwr k => s.wcap ≤ k.toNat
  | .wrd k => s.wcap ≤ k.toNat
  | .wfill k => s.wcap < k.toNat
  | .wnorm k => s.wlen.toNat ≤ k.toNat
  | .wnormv => s.wlen.toNat = 0
  | .preseed => False
  | .peval => False
  | .prdw _ => False
  | .prdb => False
  | .bwr addr _ => s.bufcap ≤ addr.toNat
  | .brd k => s.bufcap ≤ k.toNat
  | .xtr _ len => s.bufcap < len.toNat
  | .ptr _ len => s.bufcap < len.toNat

/-- The command needs a generator, or one of the logistic variant, that the block does not have (R124). -/
def LacksGenerator (i : Instr) (s : State) : Prop :=
  match i with
  | .clre => False
  | .gnewi _ => False
  | .gnewl => False
  | .gnext => s.gv = false
  | .ggetv => s.gv = false
  | .gsetv => s.gv = false
  | .ggetp => s.gv = false ∨ s.gvar = .int
  | .gsetp => s.gv = false ∨ s.gvar = .int
  | .mext => False
  | .wsetl _ => False
  | .wwr _ => False
  | .wrd _ => False
  | .wfill _ => s.gv = false
  | .wnorm _ => False
  | .wnormv => False
  | .preseed => False
  | .peval => False
  | .prdw _ => False
  | .prdb => False
  | .bwr _ _ => False
  | .brd _ => False
  | .xtr _ _ => s.gv = false
  | .ptr _ _ => s.gv = false

/-- The state an error entry leaves (R128): ERR and ERRIDX written, nothing else. -/
def State.withError (s : State) (e : ErrCode) (i : BitVec 16) : State :=
  { s with err := e, erridx := i }

/-! ### The draws a state is about to make -/

/-- The state after `k` draws and nothing else. -/
def drawTimes (k : Nat) (s : State) : State :=
  match k with
  | 0 => s
  | n + 1 => drawTimes n (draw s).2

/-- The value of draw number `m`, counted from 0. -/
def drawnValue (s : State) (m : Nat) : Word64 := (draw (drawTimes m s)).1

/-- Draw number `m` as a floating value (`DrawF`, 40_generator.md R75). -/
def drawnFloat (s : State) (m : Nat) : Word64 := (drawF (drawTimes m s)).1

/-- The `len` draws from number `start` on, as floating values. -/
def drawnWindow (s : State) (start len : Nat) : List Word64 :=
  (List.range len).map (fun j => drawnFloat s (start + j))

/-- Byte `i` of a RawCast keystream (43_xor_cipher.md R99): draw `i`, narrowed. -/
def rawByte (s : State) (i : Nat) : Byte := narrowDraw s.gvar (drawnValue s i)

/-- Byte `i` of a MantissaByte keystream (41_mantissa.md R89), or none for F32_RANGE. -/
def mantissaByte (s : State) (i : Nat) : Option Byte := (F64.toF32 (drawnFloat s i)).map extract

/-- The number of the first draw of byte `i`'s window in a transform of length `len` (R100): `len` draws
are thrown away, then each byte has `len` of its own. -/
def windowStart (len i : Nat) : Nat := len + i * len

/-- Byte `i` of a WindowNormalized keystream (R100): entry `i` of its own window, normalised against that
window; none for DIV_ZERO. -/
def windowByte (s : State) (len i : Nat) : Option Byte :=
  normalize (drawnWindow s (windowStart len i) len) (drawnFloat s (windowStart len i + i))

/-- The values a host reads in DATA when it issues GNEXT `k` times. -/
def gnextOutputs (k : Nat) (s : State) : List Word64 :=
  match k with
  | 0 => []
  | n + 1 =>
    match exec .gnext s with
    | .next t => t.data :: gnextOutputs n t
    | .fault _ => []
    | .refused _ => []

/-- The two states hold the same generator (R85). -/
def SameGenerator (s t : State) : Prop :=
  s.gv = t.gv ∧ s.gvar = t.gvar ∧ s.gn = t.gn ∧ s.gval = t.gval ∧ s.gpar = t.gpar

/-- The place of a pattern that is no NaN on the line that R20 orders: `-infinity`, then the finite values
in units of `2^-1074`, then `+infinity`. -/
def F64.extended (p : Word64) : WithBot (WithTop Int) :=
  if F64.isInf p then (if F64.sign p then ⊥ else ((⊤ : WithTop Int) : WithBot (WithTop Int)))
  else ((F64.units p : WithTop Int) : WithBot (WithTop Int))

/-- `2^1024 - 2^970`, half way between the largest finite magnitude and the next value of an exponent range
unbounded above, as a count of `2^-1074`: an exact result of this magnitude or more overflows (R18). -/
@[irreducible] def F64.overflowBound : Nat := (2 ^ 1024 - 2 ^ 970) * F64.one

/-- `real(p)` of a finite binary32 pattern (00_scope.md R17), as an exact count of `2^-149`. -/
def F32.units (p : Word32) : Int :=
  (if p.getLsbD 31 then -1 else 1) *
    (if (p.extractLsb' 23 8).toNat = 0 then ((p.extractLsb' 0 23).toNat : Int)
     else ((2 ^ 23 + (p.extractLsb' 0 23).toNat : Nat) : Int) * 2 ^ ((p.extractLsb' 23 8).toNat - 1))

/-- A finite binary32 pattern (R17). -/
def F32.isFinite (p : Word32) : Bool := decide ((p.extractLsb' 23 8).toNat ≠ 255)

end Sys2Proof.Machine
end

