-- ==== Sys2Proof/Certificates/Slice0/Obligations.lean ====
section
/-! DEFINITION. The statements for the provers, in the order of OBLIGATIONS.json. Each docstring names the
rules of the spec a statement formalises. -/

open Sys2Proof Sys2Proof.Machine

/-! ### Encoding -/

/-- Every well-formed command decodes from its own word, with every operand at every value
(30_encoding.md R58 to R68). -/
def Obligations.DecodeInvertsEncode : Prop :=
  ∀ i : Instr, i.wf = true → decode (encode i) = .ok i

/-- A word that decodes is the word of the command it decodes to, bit for bit, and the command is
well-formed: no bit of a legal word is ignored (R66, R69, R70). -/
def Obligations.EncodeInvertsDecode : Prop :=
  ∀ (c : Word32) (i : Instr), decode c = .ok i → encode i = c ∧ i.wf = true

/-- R69: exactly the words of cases (a) to (e) are illegal, and with no error pending such a word, written
to CMD, raises ILLEGAL with index 0 and changes no other state of the block. -/
def Obligations.IllegalWordsRaiseIllegal : Prop :=
  (∀ c : Word32, WordIllegal c ↔ ∃ e, decode c = .error e) ∧
  (∀ (s : State) (c : Word32) (rest : List HostAccess),
    s.inputs = .writeCmd c :: rest → s.err = .ok → WordIllegal c →
    step s = .next { s with inputs := rest, reply := none, err := .illegal, erridx := 0 })

/-- A word of each of the 23 rows of R68, with operands put in the fields of R60 to R65, decodes to that row's
command; the spec's own example words are among them. -/
def Obligations.ExampleWordsDecode : Prop :=
  decode 0x01000000 = .ok .clre ∧ decode 0x10000008 = .ok (.gnewi 8) ∧
  decode 0x2C000001 = .ok (.wnorm 1) ∧ decode 0x32000007 = .ok (.prdw 7) ∧
  decode 0x4021000C = .ok (.bwr 12 0x21) ∧ decode 0x5000000D = .ok (.xtr .rawCast 13) ∧
  decode 0x50010003 = .ok (.xtr .mantissaByte 3) ∧
  decode 0x50021234 = .ok (.xtr .windowNormalized 0x1234) ∧
  decode 0x51015678 = .ok (.ptr .mantissaByte 0x5678) ∧
  decode 0x51020003 = .ok (.ptr .windowNormalized 3) ∧
  decode 0x11000000 = .ok .gnewl ∧ decode 0x12000000 = .ok .gnext ∧
  decode 0x13000000 = .ok .ggetv ∧ decode 0x14000000 = .ok .gsetv ∧
  decode 0x15000000 = .ok .ggetp ∧ decode 0x16000000 = .ok .gsetp ∧
  decode 0x20000000 = .ok .mext ∧ decode 0x28000003 = .ok (.wsetl 3) ∧
  decode 0x29000001 = .ok (.wwr 1) ∧ decode 0x2A000001 = .ok (.wrd 1) ∧
  decode 0x2B000002 = .ok (.wfill 2) ∧ decode 0x2D000000 = .ok .wnormv ∧
  decode 0x30000000 = .ok .preseed ∧ decode 0x31000000 = .ok .peval ∧
  decode 0x33000000 = .ok .prdb ∧ decode 0x41001234 = .ok (.brd 0x1234)

/-! ### Steps, ports, reset -/

/-- A write of a command's word to CMD runs exactly that command: the step is exec of it, on the state with
the access taken off the inputs and nothing returned (R40, R71). -/
def Obligations.StepRunsTheDecodedCommand : Prop :=
  ∀ (s : State) (c : Word32) (rest : List HostAccess) (i : Instr),
    s.inputs = .writeCmd c :: rest → decode c = .ok i →
    step s = exec i { s with inputs := rest, reply := none }

/-- R71: what the block does with a word, the first step that applies ending the procedure. `u` is the
state with the access taken off the inputs. -/
def Obligations.IssueFollowsTheOrderOfChecks : Prop :=
  ∀ (s u : State) (c : Word32) (rest : List HostAccess),
    s.inputs = .writeCmd c :: rest → u = { s with inputs := rest, reply := none } →
    (s.err ≠ .ok → c = 0x01000000 → step s = .next { u with err := .ok }) ∧
    (s.err ≠ .ok → c ≠ 0x01000000 → step s = .next u) ∧
    (s.err = .ok → WordIllegal c → step s = .next (u.withError .illegal 0)) ∧
    (∀ i, s.err = .ok → decode c = .ok i → OutOfBounds i s →
      step s = .next (u.withError .bounds 0)) ∧
    (∀ i, s.err = .ok → decode c = .ok i → ¬ OutOfBounds i s → LacksGenerator i s →
      step s = .next (u.withError .badGen 0)) ∧
    (∀ i, s.err = .ok → decode c = .ok i → ¬ OutOfBounds i s → ¬ LacksGenerator i s →
      ∃ t, step s = .next t ∧ exec i u = .next t ∧
        (t.err = .ok ∨ t.err = .divZero ∨ t.err = .f32Range))

/-- R130: in the error state every word but the exact CLRE word changes no state, and the other ports work
as always. That a read's value is put in the field reply, zero-extended, is the model's choice (log 4). -/
def Obligations.ErrorStateRefusesEveryOtherWord : Prop :=
  ∀ (s : State) (rest : List HostAccess), s.err ≠ .ok →
    (∀ c, s.inputs = .writeCmd c :: rest → c ≠ 0x01000000 →
      step s = .next { s with inputs := rest, reply := none }) ∧
    (s.inputs = .readStatus :: rest →
      step s = .next { s with inputs := rest, reply := some (s.status.setWidth 64) }) ∧
    (s.inputs = .readAux :: rest →
      step s = .next { s with inputs := rest, reply := some (s.aux.setWidth 64) }) ∧
    (s.inputs = .readData :: rest →
      step s = .next { s with inputs := rest, reply := some s.data }) ∧
    (∀ v, s.inputs = .writeData v :: rest →
      step s = .next { s with inputs := rest, reply := none, data := v })

/-- R117: CLRE completes in every state, clears ERR and changes nothing else; opcode 0x01 with a
must-be-zero bit set is refused in the error state and is ILLEGAL otherwise. -/
def Obligations.ClreClearsTheErrorAndNothingElse : Prop :=
  (∀ s : State, exec .clre s = .next { s with err := .ok }) ∧
  (∀ c : Word32, decode c = .ok .clre ↔ c = 0x01000000) ∧
  (∀ (s : State) (c : Word32) (rest : List HostAccess),
    s.inputs = .writeCmd c :: rest → c.toNat / 2 ^ 24 = 1 → c ≠ 0x01000000 →
    (s.err ≠ .ok → step s = .next { s with inputs := rest, reply := none }) ∧
    (s.err = .ok →
      step s = .next { s with inputs := rest, reply := none, err := .illegal, erridx := 0 }))

/-- R40: what each access of the four ports does and returns. That a returned value is put in the field reply,
zero-extended to 64 bits, is the model's choice (log 4). -/
def Obligations.PortsAnswerTheHost : Prop :=
  ∀ (s : State) (rest : List HostAccess),
    (∀ c, s.inputs = .writeCmd c :: rest →
      step s = issue c { s with inputs := rest, reply := none }) ∧
    (s.inputs = .readStatus :: rest →
      step s = .next { s with inputs := rest, reply := some (s.status.setWidth 64) }) ∧
    (s.inputs = .readAux :: rest →
      step s = .next { s with inputs := rest, reply := some (s.aux.setWidth 64) }) ∧
    (s.inputs = .readData :: rest →
      step s = .next { s with inputs := rest, reply := some s.data }) ∧
    (∀ v, s.inputs = .writeData v :: rest →
      step s = .next { s with inputs := rest, reply := none, data := v }) ∧
    (s.inputs = .readCmd :: rest → step s = .next { s with inputs := rest, reply := some 0 }) ∧
    (∀ v, s.inputs = .writeStatus v :: rest →
      step s = .next { s with inputs := rest, reply := some 0 }) ∧
    (∀ v, s.inputs = .writeAux v :: rest →
      step s = .next { s with inputs := rest, reply := some 0 })

/-- R29 with R119: the fields of STATUS, the number of each error code, what GVAR and GN read as without an INT generator, and who writes them. -/
def Obligations.StatusShowsErrAndTheGenerator : Prop :=
  (∀ s : State,
    (s.err = .ok → s.status.extractLsb' 0 4 = 0) ∧
    (s.err = .divZero → s.status.extractLsb' 0 4 = 1) ∧
    (s.err = .invalidSeed → s.status.extractLsb' 0 4 = 2) ∧
    (s.err = .f32Range → s.status.extractLsb' 0 4 = 3) ∧
    (s.err = .illegal → s.status.extractLsb' 0 4 = 4) ∧
    (s.err = .badGen → s.status.extractLsb' 0 4 = 5) ∧
    (s.err = .bounds → s.status.extractLsb' 0 4 = 6) ∧
    (s.status.getLsbD 4 = true ↔ s.gv = true) ∧
    (s.status.getLsbD 5 = true ↔ s.gvar = .log) ∧
    s.status.extractLsb' 6 6 = s.gn ∧
    s.status.extractLsb' 12 20 = 0) ∧
  (∀ s : State, s.Inv → s.gv = false →
    s.status.getLsbD 5 = false ∧ s.status.extractLsb' 6 6 = 0) ∧
  (∀ s : State, s.Inv → s.gvar = .log → s.status.extractLsb' 6 6 = 0) ∧
  (∀ (i : Instr) (s t : State), exec i s = .next t → (∀ n, i ≠ .gnewi n) → i ≠ .gnewl →
    t.gv = s.gv ∧ t.gvar = s.gvar ∧ t.gn = s.gn) ∧
  (∀ (i : Instr) (s t : State), exec i s = .next t → t.err ≠ s.err → t.err = .ok → i = .clre)

/-- R30: the fields of AUX, and who writes them. -/
def Obligations.AuxShowsErridxAndWlen : Prop :=
  (∀ s : State, s.aux.extractLsb' 0 16 = s.erridx ∧ s.aux.extractLsb' 16 16 = s.wlen) ∧
  (∀ (i : Instr) (s t : State), exec i s = .next t → t.erridx ≠ s.erridx →
    s.err = .ok ∧ t.err ≠ .ok) ∧
  (∀ (s t : State), exec .clre s = .next t → t.erridx = s.erridx) ∧
  (∀ (i : Instr) (s t : State), exec i s = .next t → t.wlen ≠ s.wlen →
    (∃ k, i = .wsetl k) ∨ (∃ k, i = .wfill k) ∨ (∃ len, i = .xtr .windowNormalized len) ∨
    (∃ len, i = .ptr .windowNormalized len))

/-- R43: the reset values, in State.reset and after a reset in any state; the accesses still to come and
the capacity are as before (log 1, log 2). Nothing is said of WIN and BUF, which R43 leaves unspecified. -/
def Obligations.ResetLeavesTheLaunchState : Prop :=
  AtResetValues State.reset ∧
  ∀ (s : State) (rest : List HostAccess), s.inputs = .reset :: rest →
    ∃ t, step s = .next t ∧ AtResetValues t ∧ t.inputs = rest ∧ t.bufcap = s.bufcap

/-- No access stops the block: every step answers a next state (R70, R118, R128); and with no access
pending the step changes nothing (R139: the block does nothing by itself). That a step exists with no access
pending is the model's choice (log 2). -/
def Obligations.EveryStepAnswersANextState : Prop :=
  ∀ s : State, ∃ t, step s = .next t ∧ (s.inputs = [] → t = s)

/-- The invariant holds right after reset; and what it says of the two memories, in plain terms: the addresses
they list rise strictly and lie inside their spaces (R9, R44), and WLEN is at most WCAP = BUFCAP. -/
def Obligations.ResetSatisfiesTheInvariant : Prop :=
  State.reset.Inv ∧
  ∀ s : State, s.Inv →
    (s.buf.map Prod.fst).Pairwise (· < ·) ∧ (∀ cell ∈ s.buf, cell.1 < s.bufcap) ∧
    (s.win.map Prod.fst).Pairwise (· < ·) ∧ (∀ cell ∈ s.win, cell.1 < s.bufcap) ∧
    s.wlen.toNat ≤ s.bufcap

/-- Every step keeps the invariant: canonical memories inside their spaces, WLEN within WCAP, the generator
registers as R29 and R32 to R34 describe them, no INVALID_SEED. -/
def Obligations.EveryStepKeepsTheInvariant : Prop :=
  ∀ s t : State, s.Inv → step s = .next t → t.Inv

/-! ### The frame of every command -/

/-- What a command may write, register by register (10_state.md R33 to R39, R42): whatever the operands and
the error state, a next state differs only where the spec lets the command write. -/
def Obligations.CommandsWriteOnlyTheirOwnState : Prop :=
  ∀ (i : Instr) (s t : State), exec i s = .next t →
    ((∀ n, i ≠ .gnewi n) → i ≠ .gnewl → i ≠ .gnext → i ≠ .gsetv → (∀ k, i ≠ .wfill k) →
      (∀ m len, i ≠ .xtr m len) → (∀ m len, i ≠ .ptr m len) → t.gval = s.gval) ∧
    ((∀ n, i ≠ .gnewi n) → i ≠ .gnewl → i ≠ .gsetp → t.gpar = s.gpar) ∧
    (i ≠ .preseed → (∀ m len, i ≠ .ptr m len) → t.w = s.w ∧ t.b = s.b) ∧
    ((∀ k, i ≠ .wwr k) → (∀ k, i ≠ .wfill k) → (∀ len, i ≠ .xtr .windowNormalized len) →
      (∀ len, i ≠ .ptr .windowNormalized len) → ∀ k, t.winRead k = s.winRead k) ∧
    ((∀ a x, i ≠ .bwr a x) → (∀ m len, i ≠ .xtr m len) → (∀ m len, i ≠ .ptr m len) →
      ∀ a, t.bufRead a = s.bufRead a) ∧
    t.bufcap = s.bufcap ∧ t.launches = s.launches ∧ t.inputs = s.inputs ∧ t.reply = s.reply

/-- R27: DATA is written only by the commands that return a value, and by none of them that ends in an
error or is refused. -/
def Obligations.DataIsWrittenOnlyByResults : Prop :=
  ∀ (i : Instr) (s t : State), exec i s = .next t →
    (t.err ≠ .ok → t.data = s.data) ∧
    (t.data ≠ s.data →
      i = .gnext ∨ i = .ggetv ∨ i = .ggetp ∨ i = .mext ∨ (∃ k, i = .wrd k) ∨ (∃ k, i = .wnorm k) ∨
      i = .wnormv ∨ i = .peval ∨ (∃ row, i = .prdw row) ∨ i = .prdb ∨ (∃ k, i = .brd k))

/-! ### Errors -/

/-- R125: a command with an address, index or length out of range ends in BOUNDS with index 0 and nothing
else changed, and no other command ends in BOUNDS. -/
def Obligations.OutOfRangeRaisesBounds : Prop :=
  ∀ (i : Instr) (s : State), i.wf = true → s.err = .ok →
    (OutOfBounds i s → exec i s = .next (s.withError .bounds 0)) ∧
    (∀ t, ¬ OutOfBounds i s → exec i s = .next t → t.err ≠ .bounds)

/-- R124: a command that needs a generator the block does not have ends in BADGEN with index 0 and nothing
else changed, and no other command ends in BADGEN. -/
def Obligations.MissingGeneratorRaisesBadgen : Prop :=
  ∀ (i : Instr) (s : State), i.wf = true → s.err = .ok → ¬ OutOfBounds i s →
    (LacksGenerator i s → exec i s = .next (s.withError .badGen 0)) ∧
    (∀ t, ¬ LacksGenerator i s → exec i s = .next t → t.err ≠ .badGen)

/-- R122: no command, and no other access, produces INVALID_SEED; the commands that take a seed or a value
complete with every pattern. -/
def Obligations.InvalidSeedIsNeverRaised : Prop :=
  (∀ (i : Instr) (s t : State), exec i s = .next t → t.err = .invalidSeed → s.err = .invalidSeed) ∧
  (∀ s t : State, step s = .next t → t.err = .invalidSeed → s.err = .invalidSeed) ∧
  (∀ (s : State) (v : Word64), s.err = .ok →
    (∀ n : BitVec 6, 1 ≤ n.toNat → n.toNat ≤ 32 →
      ∃ t, exec (.gnewi n) { s with data := v } = .next t ∧ t.err = .ok) ∧
    (∃ t, exec .gnewl { s with data := v } = .next t ∧ t.err = .ok) ∧
    (s.gv = true → ∃ t, exec .gsetv { s with data := v } = .next t ∧ t.err = .ok) ∧
    (s.gv = true → s.gvar = .log → ∃ t, exec .gsetp { s with data := v } = .next t ∧ t.err = .ok))

/-! ### The chaotic-map iterator -/

/-- R78: GNEWI. -/
def Obligations.GnewiConstructsAnIntegerGenerator : Prop :=
  ∀ (n : BitVec 6) (s : State), s.err = .ok →
    (1 ≤ n.toNat → n.toNat ≤ 32 →
      exec (.gnewi n) s = .next { s with
        gv := true, gvar := .int, gn := n,
        gval := (s.data.extractLsb' 0 32).setWidth 64, gpar := 0 }) ∧
    (n.toNat = 0 ∨ 32 < n.toNat → exec (.gnewi n) s = .next (s.withError .illegal 0))

/-- R79: GNEWL. -/
def Obligations.GnewlConstructsALogisticGenerator : Prop :=
  ∀ s : State, s.err = .ok →
    exec .gnewl s = .next { s with
      gv := true, gvar := .log, gn := 0, gval := s.data, gpar := 0x400FC28F5C28F5C3 }

/-- R80 with R75 to R77: GNEXT draws once and returns the new value. -/
def Obligations.GnextDrawsOnceAndReturnsTheValue : Prop :=
  ∀ s : State, s.err = .ok →
    (s.gv = false → exec .gnext s = .next (s.withError .badGen 0)) ∧
    (∀ (v r : Nat) (x : Word64), s.gv = true → s.gvar = .int →
      v = s.gval.toNat % 2 ^ 32 → r = v * (1 + v) % 2 ^ s.gn.toNat →
      x = BitVec.ofNat 64 ((if r = 0 then 1 else r) + 1) →
      exec .gnext s = .next { s with gval := x, data := x }) ∧
    (∀ t1 t2 x : Word64, s.gv = true → s.gvar = .log →
      t1 = F64.mul s.gval s.gpar → t2 = F64.sub 0x3FF0000000000000 s.gval → x = F64.mul t1 t2 →
      exec .gnext s = .next { s with gval := x, data := x })

/-- R81 and R82: GGETV and GSETV, the accessors of the value. -/
def Obligations.ValueAccessorsReadAndWriteGVAL : Prop :=
  ∀ s : State, s.err = .ok →
    (s.gv = true → exec .ggetv s = .next { s with data := s.gval }) ∧
    (s.Inv → s.gvar = .int → s.gval.extractLsb' 32 32 = 0) ∧
    (s.gv = true → s.gvar = .int →
      exec .gsetv s = .next { s with gval := (s.data.extractLsb' 0 32).setWidth 64 }) ∧
    (s.gv = true → s.gvar = .log → exec .gsetv s = .next { s with gval := s.data }) ∧
    (s.gv = false → exec .ggetv s = .next (s.withError .badGen 0) ∧
      exec .gsetv s = .next (s.withError .badGen 0))

/-- R83 and R84: GGETP and GSETP, the accessors of the coefficient, for the logistic variant only. -/
def Obligations.CoefficientAccessorsReadAndWriteGPAR : Prop :=
  ∀ s : State, s.err = .ok →
    (s.gv = true → s.gvar = .log →
      exec .ggetp s = .next { s with data := s.gpar } ∧
      exec .gsetp s = .next { s with gpar := s.data }) ∧
    (s.gv = false ∨ s.gvar = .int →
      exec .ggetp s = .next (s.withError .badGen 0) ∧
      exec .gsetp s = .next (s.withError .badGen 0))

/-- R35, the part on integer generators: what GVAL is after any draw. `drawTimes (k + 1) s` is the state
after `k + 1` draws, whichever commands make them; GNEXT makes one. -/
def Obligations.IntegerDrawsStayInTheirRange : Prop :=
  ∀ s : State, s.gvar = .int → 1 ≤ s.gn.toNat → s.gn.toNat ≤ 32 →
    (∀ (k : Nat) (v : Word64), v = (drawTimes (k + 1) s).gval →
      (v.toNat = 2 ∨ (v.toNat % 2 = 1 ∧ 3 ≤ v.toNat ∧ v.toNat ≤ 2 ^ s.gn.toNat - 1)) ∧
      (s.gn.toNat = 1 → v.toNat = 2) ∧
      v.extractLsb' 32 32 = 0) ∧
    (∀ t : State, s.err = .ok → s.gv = true → exec .gnext s = .next t →
      t.gval = (drawTimes 1 s).gval)

/-- R86 (a) to (d): the facts that follow from the integer map, which is `intStep` (R76): reduce, coerce 0 to 1,
add 1. -/
def Obligations.IntegerMapFacts : Prop :=
  ∀ v n : Nat, 1 ≤ n →
    (∀ r, r = v * (1 + v) % 2 ^ n → intStep v n = (if r = 0 then 1 else r) + 1) ∧
    v * (1 + v) % 2 = 0 ∧
    (intStep v n = 2 ∨ (intStep v n % 2 = 1 ∧ 3 ≤ intStep v n)) ∧
    (2 ≤ n → intStep v n ≤ 2 ^ n - 1) ∧ (n = 1 → intStep v n = 2) ∧
    intStep v n = intStep (v % 2 ^ n) n

/-- R85: a sequence of draws is a function of the generator registers: two states that agree on them
return the same values, whatever else differs. The values are draw 0, draw 1, ... of the state, the draws that
the statements on WFILL, XTR and PTR speak of. -/
def Obligations.DrawsDependOnTheGeneratorOnly : Prop :=
  ∀ (k : Nat) (s t : State), SameGenerator s t → s.gv = true → s.err = .ok → t.err = .ok →
    gnextOutputs k s = gnextOutputs k t ∧
    gnextOutputs k s = (List.range k).map (drawnValue s)

/-! ### Floating primitives -/

/-- R18: what mul, sub and div of finite operands give. The result has the sign of the exact one; it is
finite exactly when the exact magnitude is below `2^1024 - 2^970`, and else the infinity of that sign; a finite
result is a binary64 value nearest the exact one, and where two are equally near, the one with the even
fraction. Exact values are compared as integers, in units of `2^-1074` cleared of the denominators. -/
def Obligations.ArithmeticRoundsToNearestEven : Prop :=
  ∀ a b : Word64, F64.isFinite a = true → F64.isFinite b = true →
    (∀ r, r = F64.mul a b →
      F64.sign r = (F64.sign a != F64.sign b) ∧
      (F64.isFinite r = true ↔ |F64.units a * F64.units b| < (F64.overflowBound : Int) * F64.one) ∧
      (F64.isFinite r = false → r = F64.infinity (F64.sign a != F64.sign b)) ∧
      ∀ y, F64.isFinite r = true → F64.isFinite y = true →
        |F64.units a * F64.units b - F64.units r * F64.one| ≤
          |F64.units a * F64.units b - F64.units y * F64.one| ∧
        (|F64.units a * F64.units b - F64.units r * F64.one| =
          |F64.units a * F64.units b - F64.units y * F64.one| → y ≠ r → r.getLsbD 0 = false)) ∧
    (∀ r, r = F64.sub a b →
      (F64.units a ≠ F64.units b → F64.sign r = decide (F64.units a < F64.units b)) ∧
      (F64.isFinite r = true ↔ |F64.units a - F64.units b| < (F64.overflowBound : Int)) ∧
      (F64.isFinite r = false → r = F64.infinity (decide (F64.units a < F64.units b))) ∧
      ∀ y, F64.isFinite r = true → F64.isFinite y = true →
        |F64.units a - F64.units b - F64.units r| ≤ |F64.units a - F64.units b - F64.units y| ∧
        (|F64.units a - F64.units b - F64.units r| = |F64.units a - F64.units b - F64.units y| →
          y ≠ r → r.getLsbD 0 = false)) ∧
    (∀ r, r = F64.div a b → F64.isZero b = false →
      F64.sign r = (F64.sign a != F64.sign b) ∧
      (F64.isFinite r = true ↔
        |F64.units a * F64.one| < (F64.overflowBound : Int) * |F64.units b|) ∧
      (F64.isFinite r = false → r = F64.infinity (F64.sign a != F64.sign b)) ∧
      ∀ y, F64.isFinite r = true → F64.isFinite y = true →
        |F64.units a * F64.one - F64.units r * F64.units b| ≤
          |F64.units a * F64.one - F64.units y * F64.units b| ∧
        (|F64.units a * F64.one - F64.units r * F64.units b| =
          |F64.units a * F64.one - F64.units y * F64.units b| → y ≠ r → r.getLsbD 0 = false))

/-- R19: a NaN operand or an invalid operation gives the canonical NaN. -/
def Obligations.InvalidOperationsGiveTheCanonicalNaN : Prop :=
  ∀ a b : Word64,
    (F64.isNaN a = true ∨ F64.isNaN b = true →
      F64.mul a b = 0x7FF8000000000000 ∧ F64.sub a b = 0x7FF8000000000000 ∧
      F64.div a b = 0x7FF8000000000000) ∧
    (F64.isInf a = true → F64.isZero b = true →
      F64.mul a b = 0x7FF8000000000000 ∧ F64.mul b a = 0x7FF8000000000000) ∧
    (F64.isInf a = true → F64.isInf b = true → F64.sign a = F64.sign b →
      F64.sub a b = 0x7FF8000000000000) ∧
    (F64.isZero a = true → F64.isZero b = true → F64.div a b = 0x7FF8000000000000) ∧
    (F64.isInf a = true → F64.isInf b = true → F64.div a b = 0x7FF8000000000000)

/-- R18, the special cases: signed zeros, those reached by underflow included, and infinities. The patterns of
the zeros and the infinities (R16) are written out. -/
def Obligations.ZerosAndInfinitiesFollowR18 : Prop :=
  (F64.zero false = 0 ∧ F64.zero true = 0x8000000000000000 ∧
    F64.infinity false = 0x7FF0000000000000 ∧ F64.infinity true = 0xFFF0000000000000) ∧
  (∀ a b : Word64,
    (F64.isZero (F64.mul a b) = true → F64.mul a b = F64.zero (F64.sign a != F64.sign b)) ∧
    (F64.isZero (F64.div a b) = true → F64.div a b = F64.zero (F64.sign a != F64.sign b))) ∧
  (∀ a b : Word64, F64.isFinite a = true → F64.isFinite b = true →
    F64.isZero a = true ∨ F64.isZero b = true →
    F64.mul a b = F64.zero (F64.sign a != F64.sign b)) ∧
  (∀ a b : Word64, F64.isZero a = true → F64.isFinite b = true → F64.isZero b = false →
    F64.div a b = F64.zero (F64.sign a != F64.sign b)) ∧
  (∀ x : Word64, F64.isFinite x = true → F64.sub x x = 0) ∧
  F64.sub 0 0 = 0 ∧ F64.sub (F64.zero true) (F64.zero true) = 0 ∧
  F64.sub 0 (F64.zero true) = 0 ∧ F64.sub (F64.zero true) 0 = F64.zero true ∧
  (∀ a b : Word64, F64.isInf a = true → F64.isNaN b = false → F64.isZero b = false →
    F64.mul a b = F64.infinity (F64.sign a != F64.sign b) ∧
    F64.mul b a = F64.infinity (F64.sign a != F64.sign b)) ∧
  (∀ a b : Word64, F64.isInf a = true → F64.isFinite b = true →
    F64.sub a b = a ∧ F64.sub b a = F64.infinity (!F64.sign a) ∧
    F64.div b a = F64.zero (F64.sign b != F64.sign a)) ∧
  (∀ a b : Word64, F64.isNaN a = false → F64.isZero a = false → F64.isZero b = true →
    F64.div a b = F64.infinity (F64.sign a != F64.sign b))

/-- R20: the comparisons are all false with a NaN, and otherwise those of the real values with the two
infinities at the ends; zeros of either sign are equal. The classes and the real values of patterns are those
of R16: `F64.units` counts the real value in units of which `F64.one` make 1. -/
def Obligations.ComparisonsOrderTheRealValues : Prop :=
  (∀ (p : Word64) (e f : Nat), e = (p.extractLsb' 52 11).toNat → f = (p.extractLsb' 0 52).toNat →
    F64.sign p = p.getLsbD 63 ∧
    (F64.isZero p = true ↔ e = 0 ∧ f = 0) ∧ (F64.isFinite p = true ↔ e ≤ 2046) ∧
    (F64.isInf p = true ↔ e = 2047 ∧ f = 0) ∧ (F64.isNaN p = true ↔ e = 2047 ∧ f ≠ 0) ∧
    (e = 0 → (F64.units p : ℚ) / F64.one =
      (if F64.sign p then -1 else 1) * f * (2 : ℚ) ^ (-1074 : ℤ)) ∧
    (1 ≤ e → e ≤ 2046 → (F64.units p : ℚ) / F64.one =
      (if F64.sign p then -1 else 1) * (2 ^ 52 + f) * (2 : ℚ) ^ ((e : ℤ) - 1075))) ∧
  (∀ a b : Word64, F64.isNaN a = true ∨ F64.isNaN b = true →
    F64.lt a b = false ∧ F64.gt a b = false ∧ F64.eq a b = false) ∧
  (∀ a b : Word64, F64.isNaN a = false → F64.isNaN b = false →
    (F64.lt a b = true ↔ F64.extended a < F64.extended b) ∧
    (F64.gt a b = true ↔ F64.extended b < F64.extended a) ∧
    (F64.eq a b = true ↔ F64.extended a = F64.extended b)) ∧
  (∀ z z' : Word64, F64.isZero z = true → F64.isZero z' = true →
    F64.lt z z' = false ∧ F64.gt z z' = false ∧ F64.eq z z' = true)

/-- R22: the conversion to binary32 passes NaN, infinities and zeros through, fails exactly for a finite
value of magnitude `2^128 - 2^103` or more, and otherwise gives a nearest binary32 value, the even one of
two equally near, with the operand's sign bit. The finite binary32 patterns and their real values are those of
R17: `F32.units` counts in units of `F64.perF32Unit`. -/
def Obligations.ConversionToBinary32RoundsAndOverflows : Prop :=
  (∀ (q : Word32) (e f : Nat), e = (q.extractLsb' 23 8).toNat → f = (q.extractLsb' 0 23).toNat →
    (F32.isFinite q = true ↔ e ≤ 254) ∧
    (e = 0 → (F32.units q * F64.perF32Unit : ℚ) / F64.one =
      (if q.getLsbD 31 then -1 else 1) * f * (2 : ℚ) ^ (-149 : ℤ)) ∧
    (1 ≤ e → e ≤ 254 → (F32.units q * F64.perF32Unit : ℚ) / F64.one =
      (if q.getLsbD 31 then -1 else 1) * (2 ^ 23 + f) * (2 : ℚ) ^ ((e : ℤ) - 150))) ∧
  ∀ x : Word64,
    (F64.isNaN x = true → F64.toF32 x = some 0x7FC00000) ∧
    (F64.isInf x = true → F64.toF32 x = some (if F64.sign x then 0xFF800000 else 0x7F800000)) ∧
    (F64.isZero x = true → F64.toF32 x = some (if F64.sign x then 0x80000000 else 0x00000000)) ∧
    (F64.isFinite x = true →
      (F64.toF32 x = none ↔ (2 ^ 128 - 2 ^ 103) * F64.one ≤ F64.magnitude x)) ∧
    (∀ p q : Word32, F64.isFinite x = true → F64.toF32 x = some p → F32.isFinite q = true →
      F32.isFinite p = true ∧ p.getLsbD 31 = F64.sign x ∧
      |F64.units x - F32.units p * F64.perF32Unit| ≤ |F64.units x - F32.units q * F64.perF32Unit| ∧
      (|F64.units x - F32.units p * F64.perF32Unit| = |F64.units x - F32.units q * F64.perF32Unit| → q ≠ p →
        p.getLsbD 0 = false))

/-- R23: the narrowing to a byte: 0 for a NaN or an infinity, else the truncation `t` of the value toward
zero, modulo 256. -/
def Obligations.NarrowingTruncatesModulo256 : Prop :=
  ∀ x : Word64,
    (F64.isNaN x = true ∨ F64.isInf x = true → F64.toByte x = 0) ∧
    (F64.isFinite x = true → ∃ t : Int,
      |t| * F64.one ≤ |F64.units x| ∧ |F64.units x| < (|t| + 1) * F64.one ∧
      0 ≤ t * F64.units x ∧ ((F64.toByte x).toNat : Int) = t % 256)

/-- R24: the floating image of a natural number below `2^32` is exact. -/
def Obligations.IntegerImagesAreExact : Prop :=
  ∀ v : Nat, v < 2 ^ 32 →
    F64.isFinite (F64.ofNat v) = true ∧ F64.units (F64.ofNat v) = (v : Int) * F64.one

/-! ### The extractor -/

/-- R88 with R87: MEXT. -/
def Obligations.MextReturnsTheLowByte : Prop :=
  ∀ s : State, s.err = .ok →
    exec .mext s = .next { s with data := (s.data.extractLsb' 0 8).setWidth 64 }

/-! ### The window and the quantiser -/

/-- R92: WSETL; and WCAP, which it and the other window commands are bounded by, is BUFCAP (R9). -/
def Obligations.WsetlSetsTheLength : Prop :=
  (∀ s : State, s.wcap = s.bufcap) ∧
  ∀ (k : BitVec 16) (s : State), s.err = .ok →
    (k.toNat ≤ s.bufcap → exec (.wsetl k) s = .next { s with wlen := k }) ∧
    (s.bufcap < k.toNat → exec (.wsetl k) s = .next (s.withError .bounds 0))

/-- R93 and R94: WWR, told by what every index reads as afterwards, and WRD. -/
def Obligations.WindowEntriesAreWrittenAndRead : Prop :=
  ∀ (k : BitVec 16) (s : State), s.err = .ok →
    (k.toNat < s.wcap → ∃ t, exec (.wwr k) s = .next t ∧
      (∀ j, t.winRead j = if j = k.toNat then s.data else s.winRead j) ∧
      { t with win := s.win } = s) ∧
    (k.toNat < s.wcap → exec (.wrd k) s = .next { s with data := s.winRead k.toNat }) ∧
    (s.wcap ≤ k.toNat →
      exec (.wwr k) s = .next (s.withError .bounds 0) ∧
      exec (.wrd k) s = .next (s.withError .bounds 0))

/-- R95: WFILL makes exactly `k` draws, in order, into entries 0 to `k - 1`; each entry is the draw as a
floating value, as DrawF of R75 gives it: `I2F` of the number under INT, the draw itself under LOG. -/
def Obligations.WfillMaterialisesTheDraws : Prop :=
  ∀ (k : BitVec 16) (s : State), s.err = .ok →
    (k.toNat ≤ s.wcap → s.gv = true → ∃ t, exec (.wfill k) s = .next t ∧
      (∀ j, t.winRead j = if j < k.toNat then drawnFloat s j else s.winRead j) ∧
      t.wlen = k ∧ t.gval = (drawTimes k.toNat s).gval ∧
      { t with win := s.win, wlen := s.wlen, gval := s.gval } = s) ∧
    (s.gvar = .int → ∀ j, drawnFloat s j = F64.ofNat (drawnValue s j).toNat) ∧
    (s.gvar = .log → ∀ j, drawnFloat s j = drawnValue s j) ∧
    (k.toNat ≤ s.wcap → s.gv = false → exec (.wfill k) s = .next (s.withError .badGen 0)) ∧
    (s.wcap < k.toNat → exec (.wfill k) s = .next (s.withError .bounds 0))

/-- R96 with R91: WNORM. `first :: rest` is the window, entries 0 to `WLEN - 1` of WIN, `mn` and `mx` what the scan of R90 finds. -/
def Obligations.WnormNormalisesAnEntry : Prop :=
  ∀ (k : BitVec 16) (s : State), s.err = .ok →
    (s.wlen.toNat ≤ k.toNat → exec (.wnorm k) s = .next (s.withError .bounds 0)) ∧
    (∀ (first : Word64) (rest : List Word64) (mn mx : Word64), k.toNat < s.wlen.toNat →
      (List.range s.wlen.toNat).map s.winRead = first :: rest → mn = windowMin first rest → mx = windowMax first rest →
      (F64.eq mx 0 = true → exec (.wnorm k) s = .next (s.withError .divZero k)) ∧
      (F64.eq mx 0 = false → exec (.wnorm k) s = .next { s with
        data := (F64.toByte (F64.abs (F64.mul (F64.div (F64.sub (s.winRead k.toNat) mn) mx)
          0x406FE00000000000))).setWidth 64 }))

/-- R97 with R91: WNORMV. `first :: rest` is the window, entries 0 to `WLEN - 1` of WIN. -/
def Obligations.WnormvNormalisesDATA : Prop :=
  ∀ s : State, s.err = .ok →
    (s.wlen.toNat = 0 → exec .wnormv s = .next (s.withError .bounds 0)) ∧
    (∀ (first : Word64) (rest : List Word64) (mn mx : Word64), s.wlen.toNat ≠ 0 →
      (List.range s.wlen.toNat).map s.winRead = first :: rest → mn = windowMin first rest → mx = windowMax first rest →
      (F64.eq mx 0 = true → exec .wnormv s = .next (s.withError .divZero 0)) ∧
      (F64.eq mx 0 = false → exec .wnormv s = .next { s with
        data := (F64.toByte (F64.abs (F64.mul (F64.div (F64.sub s.data mn) mx)
          0x406FE00000000000))).setWidth 64 }))

/-- R90: what the scan finds. Without a NaN it is an entry that no entry is below (above); a NaN in entry 0
stays for the whole scan; a NaN met later is skipped; no entry equal to the one found stands before it, so of
two zeros, and of any equal entries, the one met first is kept. -/
def Obligations.ScanFindsMinimumAndMaximum : Prop :=
  (∀ (first : Word64) (rest : List Word64), (∀ x ∈ first :: rest, F64.isNaN x = false) →
    windowMin first rest ∈ first :: rest ∧ windowMax first rest ∈ first :: rest ∧
    ∀ x ∈ first :: rest, F64.lt x (windowMin first rest) = false ∧
      F64.gt x (windowMax first rest) = false) ∧
  (∀ (first : Word64) (rest : List Word64), F64.isNaN first = true →
    windowMin first rest = first ∧ windowMax first rest = first) ∧
  (∀ (first x : Word64) (l r : List Word64), F64.isNaN x = true →
    windowMin first (l ++ x :: r) = windowMin first (l ++ r) ∧
    windowMax first (l ++ x :: r) = windowMax first (l ++ r)) ∧
  (∀ (first : Word64) (rest : List Word64),
    (∃ l r, first :: rest = l ++ windowMin first rest :: r ∧
      ∀ x ∈ l, F64.eq x (windowMin first rest) = false) ∧
    (∃ l r, first :: rest = l ++ windowMax first rest :: r ∧
      ∀ x ∈ l, F64.eq x (windowMax first rest) = false)) ∧
  (∀ z z' : Word64, F64.isZero z = true → F64.isZero z' = true →
    windowMin z [z'] = z ∧ windowMax z [z'] = z)

/-- R98, the range of each intermediate: for a window of finite entries with minimum at least zero and
maximum above zero, and a target among its entries, no wrap occurs. Of R98's last clause, all that R91 and
R18 leave true (log 9): the byte is 255 exactly when the rounded `v - mn` is the maximum; then the target is
the maximum; and then the minimum is a zero wherever the subtraction is exact. -/
def Obligations.NormalisationStaysWithin255 : Prop :=
  ∀ (first v : Word64) (rest : List Word64) (mn mx t1 t2 t3 : Word64),
    (∀ x ∈ first :: rest, F64.isFinite x = true) → v ∈ first :: rest →
    mn = windowMin first rest → mx = windowMax first rest →
    0 ≤ F64.units mn → 0 < F64.units mx →
    t1 = F64.sub v mn → t2 = F64.div t1 mx → t3 = F64.mul t2 0x406FE00000000000 →
    (F64.isFinite t1 = true ∧ 0 ≤ F64.units t1 ∧ F64.units t1 ≤ F64.units mx) ∧
    (F64.isFinite t2 = true ∧ 0 ≤ F64.units t2 ∧ F64.units t2 ≤ F64.one) ∧
    (F64.isFinite t3 = true ∧ 0 ≤ F64.units t3 ∧ F64.units t3 ≤ 255 * F64.one) ∧
    normalize (first :: rest) v = some (F64.toByte t3) ∧
    (F64.toByte t3 = 255 ↔ F64.units t1 = F64.units mx) ∧
    (F64.toByte t3 = 255 → F64.eq v mx = true ∧
      (F64.units t1 = F64.units v - F64.units mn → F64.isZero mn = true))

/-- R98's last clause, as the spec derives it: under the same hypotheses the byte is 255 only when the
minimum is a zero and the target is the maximum. EXPECTED TO FAIL (log 9): the subtraction rounds, so a
tiny positive minimum is absorbed. What is true of the clause stands in `NormalisationStaysWithin255`. -/
def Obligations.TopByteNeedsAZeroMinimum : Prop :=
  ∀ (first v : Word64) (rest : List Word64),
    (∀ x ∈ first :: rest, F64.isFinite x = true) → v ∈ first :: rest →
    0 ≤ F64.units (windowMin first rest) → 0 < F64.units (windowMax first rest) →
    normalize (first :: rest) v = some 255 →
    F64.isZero (windowMin first rest) = true ∧ F64.eq v (windowMax first rest) = true

/-! ### The XOR cipher engine -/

/-- R102 with R99: XTR in mode RawCast. `rawByte s a` is draw `a` narrowed: its low 8 bits under INT,
`F2B` of it under LOG. -/
def Obligations.XtrRawXorsTheNarrowedDraws : Prop :=
  ∀ (len : BitVec 16) (s : State), s.err = .ok → s.gv = true → len.toNat ≤ s.bufcap →
    ∃ t, exec (.xtr .rawCast len) s = .next t ∧
      (∀ a, t.bufRead a = if a < len.toNat then s.bufRead a ^^^ rawByte s a else s.bufRead a) ∧
      (s.gvar = .int → ∀ a, rawByte s a = (drawnValue s a).extractLsb' 0 8) ∧
      (s.gvar = .log → ∀ a, rawByte s a = F64.toByte (drawnValue s a)) ∧
      t.gval = (drawTimes len.toNat s).gval ∧
      { t with buf := s.buf, gval := s.gval } = s

/-- R103 and R129: XTR in mode MantissaByte. `n` is the first byte whose draw does not convert, or the
length if every draw does; the keystream byte is bits 7 to 0 of the converted draw (R87, R89). -/
def Obligations.XtrMantissaXorsUntilADrawOverflows : Prop :=
  ∀ (len : BitVec 16) (n : Nat) (s : State), s.err = .ok → s.gv = true → len.toNat ≤ s.bufcap →
    n ≤ len.toNat → (∀ i, i < n → mantissaByte s i ≠ none) →
    (n < len.toNat → mantissaByte s n = none) →
    (∀ i, mantissaByte s i = (F64.toF32 (drawnFloat s i)).map (fun p => p.extractLsb' 0 8)) ∧
    ∃ t, exec (.xtr .mantissaByte len) s = .next t ∧
      (∀ a k, a < n → mantissaByte s a = some k → t.bufRead a = s.bufRead a ^^^ k) ∧
      (∀ a, n ≤ a → t.bufRead a = s.bufRead a) ∧
      (n = len.toNat → t.err = .ok ∧ t.erridx = s.erridx ∧
        t.gval = (drawTimes len.toNat s).gval) ∧
      (n < len.toNat → t.err = .f32Range ∧ t.erridx.toNat = n ∧
        t.gval = (drawTimes (n + 1) s).gval) ∧
      { t with buf := s.buf, gval := s.gval, err := s.err, erridx := s.erridx } = s

/-- R104 and R129: XTR in mode WindowNormalized, for a length of at least 1. `n` is the first byte whose
window has a zero maximum, or the length if none has; `d` is the number of windows drawn for bytes. The
keystream byte is entry `i` of window `i`, normalised against that window as R91 says. -/
def Obligations.XtrWindowXorsUntilAZeroMaximum : Prop :=
  ∀ (len : BitVec 16) (n d : Nat) (s : State), s.err = .ok → s.gv = true →
    0 < len.toNat → len.toNat ≤ s.bufcap →
    n ≤ len.toNat → (∀ i, i < n → windowByte s len.toNat i ≠ none) →
    (n < len.toNat → windowByte s len.toNat n = none) →
    (n = len.toNat → d = n) → (n < len.toNat → d = n + 1) →
    (∀ (i : Nat) (first : Word64) (rest : List Word64) (mn mx : Word64),
      drawnWindow s (windowStart len.toNat i) len.toNat = first :: rest →
      mn = windowMin first rest → mx = windowMax first rest →
      windowByte s len.toNat i =
        if F64.eq mx 0 then none
        else some (F64.toByte (F64.abs (F64.mul
          (F64.div (F64.sub (drawnFloat s (windowStart len.toNat i + i)) mn) mx)
          0x406FE00000000000)))) ∧
    ∃ t, exec (.xtr .windowNormalized len) s = .next t ∧
      (∀ a k, a < n → windowByte s len.toNat a = some k → t.bufRead a = s.bufRead a ^^^ k) ∧
      (∀ a, n ≤ a → t.bufRead a = s.bufRead a) ∧
      t.gval = (drawTimes (len.toNat + d * len.toNat) s).gval ∧
      (∀ j, t.winRead j =
        if j < len.toNat then drawnFloat s (windowStart len.toNat (d - 1) + j) else s.winRead j) ∧
      t.wlen = len ∧
      (n = len.toNat → t.err = .ok ∧ t.erridx = s.erridx) ∧
      (n < len.toNat → t.err = .divZero ∧ t.erridx.toNat = n) ∧
      { t with
        buf := s.buf, gval := s.gval, win := s.win, wlen := s.wlen, err := s.err,
        erridx := s.erridx } = s

/-- R101, R113 and R127, what a transform does before its first byte: ILLEGAL for PTR in mode RawCast, then
BOUNDS, then BADGEN (also for length 0), each with index 0 and nothing else changed; then length 0 does
nothing. -/
def Obligations.TransformsCheckBeforeTheyStart : Prop :=
  ∀ (mode : Mode) (len : BitVec 16) (s : State), s.err = .ok →
    (s.bufcap < len.toNat → exec (.xtr mode len) s = .next (s.withError .bounds 0)) ∧
    (len.toNat ≤ s.bufcap → s.gv = false → exec (.xtr mode len) s = .next (s.withError .badGen 0)) ∧
    (s.gv = true → exec (.xtr mode 0) s = .next s) ∧
    (mode = .rawCast → exec (.ptr mode len) s = .next (s.withError .illegal 0)) ∧
    (mode ≠ .rawCast → s.bufcap < len.toNat →
      exec (.ptr mode len) s = .next (s.withError .bounds 0)) ∧
    (mode ≠ .rawCast → len.toNat ≤ s.bufcap → s.gv = false →
      exec (.ptr mode len) s = .next (s.withError .badGen 0)) ∧
    (mode ≠ .rawCast → s.gv = true → exec (.ptr mode 0) s = .next s)

/-- R105: XTR undoes itself when the generator registers are put back, in every mode. -/
def Obligations.XtrIsSelfInverseUnderReplay : Prop :=
  ∀ (mode : Mode) (len : BitVec 16) (s t : State),
    s.err = .ok → exec (.xtr mode len) s = .next t → t.err = .ok →
    ∃ u, exec (.xtr mode len)
        { t with gvar := s.gvar, gn := s.gn, gval := s.gval, gpar := s.gpar } = .next u ∧
      u.err = .ok ∧ ∀ a, u.bufRead a = s.bufRead a

/-- R129, the way back from a partial transform: after XTR or PTR in mode MantissaByte ended in F32_RANGE at
byte `i`, CLRE, the generator put back and the same command with length `i` restore the buffer. -/
def Obligations.PartialTransformIsUndoneByItsPrefix : Prop :=
  ∀ (len : BitVec 16) (s t c : State), s.err = .ok → t.err = .f32Range → exec .clre t = .next c →
    (exec (.xtr .mantissaByte len) s = .next t →
      ∃ u, exec (.xtr .mantissaByte t.erridx) { c with gval := s.gval, gpar := s.gpar } = .next u ∧
        u.err = .ok ∧ ∀ a, u.bufRead a = s.bufRead a) ∧
    (exec (.ptr .mantissaByte len) s = .next t →
      ∃ u, exec (.ptr .mantissaByte t.erridx) { c with gval := s.gval, gpar := s.gpar } = .next u ∧
        u.err = .ok ∧ ∀ a, u.bufRead a = s.bufRead a)

/-- R146 and R89: with an integer generator no transform fails part-way, in any mode. -/
def Obligations.IntegerGeneratorNeverFailsATransform : Prop :=
  ∀ (mode : Mode) (len : BitVec 16) (s : State), s.err = .ok → s.gv = true → s.gvar = .int →
    1 ≤ s.gn.toNat → s.gn.toNat ≤ 32 → len.toNat ≤ s.bufcap →
    (∃ t, exec (.xtr mode len) s = .next t ∧ t.err = .ok) ∧
    (mode ≠ .rawCast → ∃ t, exec (.ptr mode len) s = .next t ∧ t.err = .ok)

/-! ### The perceptron -/

/-- R109 with R107: PRESEED writes all 64 weights and all 8 biases from the seed byte, and nothing else; it is
the `reseed` that the statements on PTR speak of. -/
def Obligations.PreseedLoadsTheMatrix : Prop :=
  ∀ s : State, s.err = .ok → ∃ t, exec .preseed s = .next t ∧
    (∀ i j : Fin 8, Eight.get (Eight.get t.w i) j =
      if j ≠ i then .zero else if s.data.getLsbD i.val then .minus else .plus) ∧
    (∀ i : Fin 8, Eight.get t.b i = if s.data.getLsbD i.val then .plusHalf else .minusHalf) ∧
    t = reseed (s.data.extractLsb' 0 8) s ∧
    { t with w := s.w, b := s.b } = s

/-- R110 with R108: PEVAL delivers the byte whose bit `i` is 1 exactly when the exact sum is at least 0;
with the reset contents it is 0 for every input. It is the `evaluate` that the statements on PTR speak of. -/
def Obligations.PevalEvaluatesThePerceptron : Prop :=
  (weightValue .zero = 0 ∧ weightValue .plus = 1 ∧ weightValue .minus = -1 ∧
    biasHalves .plusHalf = 1 ∧ biasHalves .minusHalf = -1) ∧
  (∀ s : State, s.err = .ok → ∃ y : Byte,
    exec .peval s = .next { s with data := y.setWidth 64 } ∧
    y = evaluate s.w s.b (s.data.extractLsb' 0 8) ∧
    ∀ i : Fin 8, y.getLsbD i.val = true ↔
      (0 : ℚ) ≤ (biasHalves (Eight.get s.b i) : ℚ) / 2 +
        ∑ j : Fin 8, (weightValue (Eight.get (Eight.get s.w i) j) : ℚ) *
          (if s.data.getLsbD j.val then 1 else 0)) ∧
  (∀ s : State, s.err = .ok → s.w = State.reset.w → s.b = State.reset.b →
    exec .peval s = .next { s with data := 0 })

/-- R111 and R112: PRDW and PRDB deliver a row of weight codes and the bias bits. -/
def Obligations.ReadBackShowsWeightsAndBiases : Prop :=
  (∀ (row : BitVec 3) (s : State), s.err = .ok → ∃ v : BitVec 16,
    exec (.prdw row) s = .next { s with data := v.setWidth 64 } ∧
    ∀ j : Fin 8, v.extractLsb' (2 * j.val) 2 =
      match Eight.get (Eight.get s.w row.toFin) j with
      | .zero => 0
      | .plus => 1
      | .minus => 3) ∧
  (∀ s : State, s.err = .ok → ∃ v : Byte,
    exec .prdb s = .next { s with data := v.setWidth 64 } ∧
    ∀ i : Fin 8, v.getLsbD i.val = true ↔ Eight.get s.b i = .plusHalf)

/-- R114: after `Reseed(k)`, `Evaluate(x)` is `x xor k`. -/
def Obligations.EvaluateAfterReseedIsXor : Prop :=
  ∀ (k x : Byte) (s : State), evaluate (reseed k s).w (reseed k s).b x = x ^^^ k

/-- R113 and R129: PTR in mode MantissaByte. -/
def Obligations.PtrMantissaReseedsAndEvaluates : Prop :=
  ∀ (len : BitVec 16) (n : Nat) (s : State), s.err = .ok → s.gv = true → len.toNat ≤ s.bufcap →
    n ≤ len.toNat → (∀ i, i < n → mantissaByte s i ≠ none) →
    (n < len.toNat → mantissaByte s n = none) →
    ∃ t, exec (.ptr .mantissaByte len) s = .next t ∧
      (∀ a k, a < n → mantissaByte s a = some k →
        t.bufRead a = evaluate (reseed k s).w (reseed k s).b (s.bufRead a)) ∧
      (∀ a, n ≤ a → t.bufRead a = s.bufRead a) ∧
      (n = len.toNat → t.err = .ok ∧ t.erridx = s.erridx ∧
        t.gval = (drawTimes len.toNat s).gval) ∧
      (n < len.toNat → t.err = .f32Range ∧ t.erridx.toNat = n ∧
        t.gval = (drawTimes (n + 1) s).gval) ∧
      (n = 0 → t.w = s.w ∧ t.b = s.b) ∧
      (∀ k, 0 < n → mantissaByte s (n - 1) = some k →
        t.w = (reseed k s).w ∧ t.b = (reseed k s).b) ∧
      { t with
        buf := s.buf, gval := s.gval, err := s.err, erridx := s.erridx, w := s.w, b := s.b } = s

/-- R113 and R129: PTR in mode WindowNormalized, for a length of at least 1. -/
def Obligations.PtrWindowReseedsAndEvaluates : Prop :=
  ∀ (len : BitVec 16) (n d : Nat) (s : State), s.err = .ok → s.gv = true →
    0 < len.toNat → len.toNat ≤ s.bufcap →
    n ≤ len.toNat → (∀ i, i < n → windowByte s len.toNat i ≠ none) →
    (n < len.toNat → windowByte s len.toNat n = none) →
    (n = len.toNat → d = n) → (n < len.toNat → d = n + 1) →
    ∃ t, exec (.ptr .windowNormalized len) s = .next t ∧
      (∀ a k, a < n → windowByte s len.toNat a = some k →
        t.bufRead a = evaluate (reseed k s).w (reseed k s).b (s.bufRead a)) ∧
      (∀ a, n ≤ a → t.bufRead a = s.bufRead a) ∧
      t.gval = (drawTimes (len.toNat + d * len.toNat) s).gval ∧
      (∀ j, t.winRead j =
        if j < len.toNat then drawnFloat s (windowStart len.toNat (d - 1) + j) else s.winRead j) ∧
      t.wlen = len ∧
      (n = len.toNat → t.err = .ok ∧ t.erridx = s.erridx) ∧
      (n < len.toNat → t.err = .divZero ∧ t.erridx.toNat = n) ∧
      (n = 0 → t.w = s.w ∧ t.b = s.b) ∧
      (∀ k, 0 < n → windowByte s len.toNat (n - 1) = some k →
        t.w = (reseed k s).w ∧ t.b = (reseed k s).b) ∧
      { t with
        buf := s.buf, gval := s.gval, win := s.win, wlen := s.wlen, err := s.err,
        erridx := s.erridx, w := s.w, b := s.b } = s

/-- R114, the consequence for the engines: in a mode both offer, PTR leaves what XTR leaves, in every
register and memory but W and B, from every state. -/
def Obligations.PtrAndXtrAgreeButForThePerceptron : Prop :=
  ∀ (mode : Mode) (len : BitVec 16) (s : State), mode ≠ .rawCast →
    ∃ t u, exec (.xtr mode len) s = .next t ∧ exec (.ptr mode len) s = .next u ∧
      { u with w := t.w, b := t.b } = t

/-! ### Buffer access -/

/-- R115 and R116: BWR, told by what every address reads as afterwards, and BRD. -/
def Obligations.BufferBytesAreWrittenAndRead : Prop :=
  ∀ (k : BitVec 16) (imm8 : Byte) (s : State), s.err = .ok →
    (k.toNat < s.bufcap → ∃ t, exec (.bwr k imm8) s = .next t ∧
      (∀ a, t.bufRead a = if a = k.toNat then imm8 else s.bufRead a) ∧
      { t with buf := s.buf } = s) ∧
    (k.toNat < s.bufcap →
      exec (.brd k) s = .next { s with data := (s.bufRead k.toNat).setWidth 64 }) ∧
    (s.bufcap ≤ k.toNat →
      exec (.bwr k imm8) s = .next (s.withError .bounds 0) ∧
      exec (.brd k) s = .next (s.withError .bounds 0))

/-! ### The absolute value -/

/-- R21: the absolute value clears the sign bit and keeps every other bit, those of a NaN included. -/
def Obligations.AbsoluteValueClearsTheSign : Prop :=
  ∀ (a : Word64) (i : Nat), i < 64 →
    (F64.abs a).getLsbD i = if i = 63 then false else a.getLsbD i
end

