-- ==== Sys2Proof/Laws/Encoding.lean ====
section
/-! SUPPORT. The fields of an encoded word, format by format (30_encoding.md R60 to R66): each field of an
encoder's word reads back, and each must-be-zero field is zero. -/

namespace Sys2Proof

/-! ### Format Z -/

theorem encodeZ_op (op : BitVec 8) :
    opField (encodeZ op) = op := by
  ext i hi
  simp only [opField, encodeZ, BitVec.getElem_extractLsb', BitVec.getLsbD_setWidth,
    BitVec.getLsbD_append]
  interval_cases i <;> simp

theorem encodeZ_mbz (op : BitVec 8) :
    (encodeZ op).extractLsb' 0 24 = 0 := by
  ext i hi
  simp only [encodeZ, BitVec.getElem_extractLsb', BitVec.getLsbD_setWidth,
    BitVec.getLsbD_append]
  interval_cases i <;> simp

/-! ### Format K -/

theorem encodeK_op (op : BitVec 8) (k : BitVec 16) :
    opField (encodeK op k) = op := by
  ext i hi
  simp only [opField, encodeK, BitVec.getElem_extractLsb', BitVec.getLsbD_setWidth,
    BitVec.getLsbD_append]
  interval_cases i <;> simp

theorem encodeK_mbz (op : BitVec 8) (k : BitVec 16) :
    (encodeK op k).extractLsb' 16 8 = 0 := by
  ext i hi
  simp only [encodeK, BitVec.getElem_extractLsb', BitVec.getLsbD_setWidth,
    BitVec.getLsbD_append]
  interval_cases i <;> simp

theorem encodeK_low (op : BitVec 8) (k : BitVec 16) :
    lowField (encodeK op k) = k := by
  ext i hi
  simp only [lowField, encodeK, BitVec.getElem_extractLsb', BitVec.getLsbD_setWidth,
    BitVec.getLsbD_append]
  interval_cases i <;> simp

/-! ### Format B -/

theorem encodeB_op (op : BitVec 8) (addr : BitVec 16) (imm8 : Byte) :
    opField (encodeB op addr imm8) = op := by
  ext i hi
  simp only [opField, encodeB, BitVec.getElem_extractLsb', BitVec.getLsbD_setWidth,
    BitVec.getLsbD_append]
  interval_cases i <;> simp

theorem encodeB_low (op : BitVec 8) (addr : BitVec 16) (imm8 : Byte) :
    lowField (encodeB op addr imm8) = addr := by
  ext i hi
  simp only [lowField, encodeB, BitVec.getElem_extractLsb', BitVec.getLsbD_setWidth,
    BitVec.getLsbD_append]
  interval_cases i <;> simp

theorem encodeB_imm8 (op : BitVec 8) (addr : BitVec 16) (imm8 : Byte) :
    imm8Field (encodeB op addr imm8) = imm8 := by
  ext i hi
  simp only [imm8Field, encodeB, BitVec.getElem_extractLsb', BitVec.getLsbD_setWidth,
    BitVec.getLsbD_append]
  interval_cases i <;> simp

/-! ### Format T -/

theorem encodeT_op (op : BitVec 8) (mode : Mode) (len : BitVec 16) :
    opField (encodeT op mode len) = op := by
  ext i hi
  simp only [opField, encodeT, BitVec.getElem_extractLsb', BitVec.getLsbD_setWidth,
    BitVec.getLsbD_append]
  interval_cases i <;> simp

theorem encodeT_mbz (op : BitVec 8) (mode : Mode) (len : BitVec 16) :
    (encodeT op mode len).extractLsb' 18 6 = 0 := by
  ext i hi
  simp only [encodeT, BitVec.getElem_extractLsb', BitVec.getLsbD_setWidth,
    BitVec.getLsbD_append]
  interval_cases i <;> simp

theorem encodeT_mode (op : BitVec 8) (mode : Mode) (len : BitVec 16) :
    modeField (encodeT op mode len) = modeBits mode := by
  ext i hi
  simp only [modeField, encodeT, BitVec.getElem_extractLsb', BitVec.getLsbD_setWidth,
    BitVec.getLsbD_append]
  interval_cases i <;> simp

theorem encodeT_low (op : BitVec 8) (mode : Mode) (len : BitVec 16) :
    lowField (encodeT op mode len) = len := by
  ext i hi
  simp only [lowField, encodeT, BitVec.getElem_extractLsb', BitVec.getLsbD_setWidth,
    BitVec.getLsbD_append]
  interval_cases i <;> simp

/-! ### Format N -/

theorem encodeN_op (op : BitVec 8) (n : BitVec 6) :
    opField (encodeN op n) = op := by
  ext i hi
  simp only [opField, encodeN, BitVec.getElem_extractLsb', BitVec.getLsbD_setWidth,
    BitVec.getLsbD_append]
  interval_cases i <;> simp

theorem encodeN_mbz (op : BitVec 8) (n : BitVec 6) :
    (encodeN op n).extractLsb' 6 18 = 0 := by
  ext i hi
  simp only [encodeN, BitVec.getElem_extractLsb', BitVec.getLsbD_setWidth,
    BitVec.getLsbD_append]
  interval_cases i <;> simp

theorem encodeN_n (op : BitVec 8) (n : BitVec 6) :
    nField (encodeN op n) = n := by
  ext i hi
  simp only [nField, encodeN, BitVec.getElem_extractLsb', BitVec.getLsbD_setWidth,
    BitVec.getLsbD_append]
  interval_cases i <;> simp

/-! ### Format R -/

theorem encodeR_op (op : BitVec 8) (row : BitVec 3) :
    opField (encodeR op row) = op := by
  ext i hi
  simp only [opField, encodeR, BitVec.getElem_extractLsb', BitVec.getLsbD_setWidth,
    BitVec.getLsbD_append]
  interval_cases i <;> simp

theorem encodeR_mbz (op : BitVec 8) (row : BitVec 3) :
    (encodeR op row).extractLsb' 3 21 = 0 := by
  ext i hi
  simp only [encodeR, BitVec.getElem_extractLsb', BitVec.getLsbD_setWidth,
    BitVec.getLsbD_append]
  interval_cases i <;> simp

theorem encodeR_row (op : BitVec 8) (row : BitVec 3) :
    rowField (encodeR op row) = row := by
  ext i hi
  simp only [rowField, encodeR, BitVec.getElem_extractLsb', BitVec.getLsbD_setWidth,
    BitVec.getLsbD_append]
  interval_cases i <;> simp

/-- The number of a mode stands for that mode (R67). -/
theorem modeOfBits_modeBits (mode : Mode) : modeOfBits (modeBits mode) = .ok mode := by
  cases mode <;> rfl

end Sys2Proof
end

