-- ==== Sys2Proof/Laws/Float.lean ====
section
/-! SUPPORT. What rounding does, said once (00_scope.md R18, R22): a format's pattern numbers its values in
increasing order, and `roundPattern` picks the pattern of a nearest value, the even one on a tie. -/

namespace Sys2Proof.Machine

open Sys2Proof

/-! ### Rounding to an integer -/

/-- `nearestEven` is within half a unit, and even when it is exactly half a unit away. -/
theorem nearestEven_half (n d : Nat) (hd : 0 < d) :
    2 * |(n : ℤ) - d * nearestEven n d| ≤ d ∧
    (2 * |(n : ℤ) - d * nearestEven n d| = d → nearestEven n d % 2 = 0) := by
  have hdiv : (n : ℤ) = d * (n / d : ℕ) + (n % d : ℕ) := by exact_mod_cast (Nat.div_add_mod n d).symm
  have hmod : n % d < d := Nat.mod_lt n hd
  have down : (n : ℤ) - d * (n / d : ℕ) = (n % d : ℕ) := by linarith
  have up : (n : ℤ) - d * ((n / d + 1 : ℕ) : ℤ) = (n % d : ℕ) - d := by push_cast; push_cast at hdiv; linarith
  have absDown : |((n % d : ℕ) : ℤ)| = (n % d : ℕ) := abs_of_nonneg (by positivity)
  have absUp : |((n % d : ℕ) : ℤ) - d| = d - (n % d : ℕ) := by
    rw [abs_of_nonpos (by omega)]; ring
  unfold nearestEven
  split_ifs with h1 h2 h3
  · rw [down, absDown]; omega
  · rw [up, absUp]; omega
  · rw [down, absDown]; omega
  · rw [up, absUp]; omega

/-- `nearestEven` is a nearest integer, and even when another is equally near. -/
theorem nearestEven_nearest (n d : Nat) (hd : 0 < d) (z : Nat) :
    |(n : ℤ) - d * nearestEven n d| ≤ |(n : ℤ) - d * z| ∧
    (|(n : ℤ) - d * nearestEven n d| = |(n : ℤ) - d * z| → z ≠ nearestEven n d →
      nearestEven n d % 2 = 0) := by
  obtain ⟨hle, heven⟩ := nearestEven_half n d hd
  rcases eq_or_ne z (nearestEven n d) with rfl | hne
  · exact ⟨le_refl _, fun _ h => absurd rfl h⟩
  · have hgap : (d : ℤ) ≤ |(d : ℤ) * nearestEven n d - d * z| := by
      rw [← mul_sub, abs_mul, abs_of_nonneg (by positivity : (0 : ℤ) ≤ d)]
      have : (1 : ℤ) ≤ |(nearestEven n d : ℤ) - z| := by
        apply Int.one_le_abs
        intro h
        exact hne (by omega)
      nlinarith [(by positivity : (0 : ℤ) ≤ d)]
    have htri : |(d : ℤ) * nearestEven n d - d * z| ≤
        |(n : ℤ) - d * nearestEven n d| + |(n : ℤ) - d * z| := by
      have := abs_sub_le ((d : ℤ) * nearestEven n d) n (d * z)
      rwa [abs_sub_comm ((d : ℤ) * nearestEven n d) n] at this
    exact ⟨by linarith, fun h _ => heven (by linarith)⟩

/-! ### The values of a format's patterns -/

/-- The value of a pattern without sign in a format with `p` significant bits, counted in the format's
least unit (R16, R17): subnormals below `2^(p-1)`, then a new binade every `2^(p-1)` patterns. -/
def patternValue (p m : Nat) : Nat :=
  if m < 2 ^ (p - 1) then m
  else (2 ^ (p - 1) + m % 2 ^ (p - 1)) * 2 ^ (m / 2 ^ (p - 1) - 1)

/-- Patterns number their values in increasing order. -/
theorem patternValue_lt_succ (p m : Nat) : patternValue p m < patternValue p (m + 1) := by
  have hH : 0 < 2 ^ (p - 1) := by positivity
  generalize hh : 2 ^ (p - 1) = H at hH
  unfold patternValue
  rw [hh]
  by_cases h1 : m + 1 < H
  · rw [if_pos h1, if_pos (by omega)]; omega
  · rw [if_neg h1]
    by_cases h2 : m < H
    · rw [if_pos h2]
      have : m + 1 = H := by omega
      rw [this, Nat.mod_self, Nat.div_self hH]
      simp; omega
    · rw [if_neg h2]
      have hq : 1 ≤ m / H := (Nat.one_le_div_iff hH).mpr (by omega)
      by_cases h3 : m % H + 1 = H
      · have hsucc : m + 1 = H * (m / H + 1) := by
          have := Nat.div_add_mod m H; rw [Nat.mul_add]; omega
        rw [hsucc, Nat.mul_mod_right, Nat.mul_div_cancel_left _ hH]
        obtain ⟨q, hq'⟩ : ∃ q, m / H = q + 1 := ⟨m / H - 1, by omega⟩
        rw [hq']
        have : q + 1 + 1 - 1 = q + 1 := by omega
        rw [this, Nat.add_sub_cancel, pow_succ]
        have hpos : 0 < 2 ^ q := by positivity
        have hr : H + m % H < 2 * H := by omega
        nlinarith
      · have hlt : m % H + 1 < H := by have := Nat.mod_lt m hH; omega
        have hm : (m + 1) % H = m % H + 1 := by
          rw [Nat.add_mod, Nat.mod_eq_of_lt (by omega : 1 < H), Nat.mod_eq_of_lt hlt]
        have hd : (m + 1) / H = m / H := by
          simp [Nat.add_div hH, Nat.mod_eq_of_lt (by omega : 1 < H), Nat.not_le.mpr hlt,
            Nat.div_eq_of_lt (by omega : 1 < H)]
        rw [hm, hd]
        have hpos : 0 < 2 ^ (m / H - 1) := by positivity
        nlinarith

theorem patternValue_strictMono (p : Nat) : StrictMono (patternValue p) :=
  strictMono_nat_of_lt_succ (patternValue_lt_succ p)

/-- The pattern `j * 2^(p-1) + k` of the value `k * 2^j`, for a significand `k` that fits. -/
theorem patternValue_of_significand (p j k : Nat) (hk : k ≤ 2 ^ p) (hp : 1 ≤ p)
    (hlow : j = 0 ∨ 2 ^ (p - 1) ≤ k) : patternValue p (j * 2 ^ (p - 1) + k) = k * 2 ^ j := by
  have hH : 0 < 2 ^ (p - 1) := by positivity
  have h2H : 2 ^ p = 2 * 2 ^ (p - 1) := by
    rw [← pow_succ']; congr 1; omega
  rw [h2H] at hk
  generalize hh : 2 ^ (p - 1) = H at *
  unfold patternValue
  rw [hh]
  by_cases hsmall : j * H + k < H
  · have hj : j = 0 := by
      rcases hlow with h | h
      · exact h
      · omega
    subst hj
    rw [if_pos hsmall]; simp
  · rw [if_neg hsmall]
    rcases Nat.lt_or_ge k H with hkH | hkH
    · have hj : j = 0 := by rcases hlow with h | h <;> omega
      subst hj; omega
    · rcases Nat.lt_or_ge k (2 * H) with hk2 | hk2
      · have hrep : j * H + k = (k - H) + H * (j + 1) := by
          rw [Nat.mul_add, Nat.mul_comm H j]; omega
        rw [hrep, Nat.add_mul_mod_self_left, Nat.add_mul_div_left _ _ hH,
          Nat.mod_eq_of_lt (by omega), Nat.div_eq_of_lt (by omega)]
        congr 1
        · omega
        · congr 1; omega
      · have hk' : k = 2 * H := by omega
        have hrep : j * H + k = H * (j + 2) := by rw [hk', Nat.mul_add, Nat.mul_comm H j]; omega
        rw [hrep, Nat.mul_mod_right, Nat.mul_div_cancel_left _ hH, hk']
        have : j + 2 - 1 = j + 1 := by omega
        rw [this, pow_succ]; ring

/-- Every pattern's value is a significand below `2^p` times a power of two, the pattern's own shift. -/
theorem patternValue_significand (p m : Nat) (hp : 1 ≤ p) :
    ∃ k, k < 2 ^ p ∧ patternValue p m = k * 2 ^ (m / 2 ^ (p - 1) - 1) := by
  have hH : 0 < 2 ^ (p - 1) := by positivity
  have h2H : 2 ^ p = 2 * 2 ^ (p - 1) := by
    rw [← pow_succ']; congr 1; omega
  rw [h2H]
  unfold patternValue
  by_cases h : m < 2 ^ (p - 1)
  · refine ⟨m, by omega, ?_⟩
    rw [if_pos h, Nat.div_eq_of_lt h]; simp
  · refine ⟨2 ^ (p - 1) + m % 2 ^ (p - 1), ?_, by rw [if_neg h]⟩
    have := Nat.mod_lt m hH
    omega

/-! ### Rounding to a pattern -/

section Rounding

variable (p n d : Nat)

/-- The rounded significand fits. -/
theorem roundSignificand_le (hd : 0 < d) (hp : 1 ≤ p) :
    nearestEven n (d * 2 ^ roundShift p n d) ≤ 2 ^ p := by
  have hpow : n / d < 2 ^ (roundShift p n d + p) := by
    calc n / d < 2 ^ ((n / d).log2 + 1) := Nat.lt_log2_self
      _ ≤ 2 ^ (roundShift p n d + p) := by
          apply Nat.pow_le_pow_right (by omega)
          unfold roundShift; omega
  have hn : n < d * 2 ^ roundShift p n d * 2 ^ p := by
    rw [mul_assoc, ← pow_add]
    exact (Nat.div_lt_iff_lt_mul hd).mp (by simpa [mul_comm] using hpow) |>.trans_eq (mul_comm _ _)
  have hdd : 0 < d * 2 ^ roundShift p n d := by positivity
  by_contra hgt
  have hnear := (nearestEven_nearest n _ hdd (2 ^ p)).1
  have hhalf := (nearestEven_half n _ hdd).1
  generalize d * 2 ^ roundShift p n d = D at *
  generalize nearestEven n D = k at *
  have hk : (2 ^ p : ℤ) + 1 ≤ k := by exact_mod_cast Nat.lt_of_not_le hgt
  have hn' : (n : ℤ) < D * 2 ^ p := by exact_mod_cast hn
  have hD : (0 : ℤ) < D := by exact_mod_cast hdd
  have hneg : (n : ℤ) - D * k ≤ 0 := by nlinarith
  rw [abs_of_nonpos hneg] at hhalf
  nlinarith

/-- Above the subnormals the rounded significand has its leading bit. -/
theorem roundSignificand_ge (hd : 0 < d) :
    roundShift p n d = 0 ∨ 2 ^ (p - 1) ≤ nearestEven n (d * 2 ^ roundShift p n d) := by
  rcases Nat.eq_zero_or_pos (roundShift p n d) with h | h
  · exact Or.inl h
  · right
    have hne : n / d ≠ 0 := by
      intro h0
      simp [roundShift, h0] at h
    have hpow : 2 ^ (p - 1 + roundShift p n d) ≤ n / d := by
      refine le_trans (Nat.pow_le_pow_right (by omega) ?_) (Nat.log2_self_le hne)
      unfold roundShift at h ⊢; omega
    have hn : d * 2 ^ roundShift p n d * 2 ^ (p - 1) ≤ n := by
      have := (Nat.le_div_iff_mul_le hd).mp hpow
      calc d * 2 ^ roundShift p n d * 2 ^ (p - 1) = 2 ^ (p - 1 + roundShift p n d) * d := by
            rw [pow_add]; ring
        _ ≤ n := this
    have hdd : 0 < d * 2 ^ roundShift p n d := by positivity
    have hhalf := (nearestEven_half n _ hdd).1
    generalize d * 2 ^ roundShift p n d = D at *
    generalize nearestEven n D = k at *
    by_contra hlt
    have hk : (k : ℤ) + 1 ≤ 2 ^ (p - 1) := by exact_mod_cast Nat.lt_of_not_le hlt
    have hn' : (D : ℤ) * 2 ^ (p - 1) ≤ n := by exact_mod_cast hn
    have hD : (0 : ℤ) < D := by exact_mod_cast hdd
    have hpos : 0 ≤ (n : ℤ) - D * k := by nlinarith
    rw [abs_of_nonneg hpos] at hhalf
    nlinarith

/-- The value of the rounded pattern. -/
theorem patternValue_roundPattern (hd : 0 < d) (hp : 1 ≤ p) :
    patternValue p (roundPattern p n d) =
      nearestEven n (d * 2 ^ roundShift p n d) * 2 ^ roundShift p n d :=
  patternValue_of_significand p _ _ (roundSignificand_le p n d hd hp) hp
    (roundSignificand_ge p n d hd)

/-- ROUND TO NEAREST, TIES TO EVEN (R18, R22): no pattern's value is nearer `n / d` than the rounded one's,
and where another is equally near the rounded pattern is even. -/
theorem roundPattern_nearest (hd : 0 < d) (hp : 2 ≤ p) (m : Nat) :
    |(n : ℤ) - d * patternValue p (roundPattern p n d)| ≤ |(n : ℤ) - d * patternValue p m| ∧
    (|(n : ℤ) - d * patternValue p (roundPattern p n d)| = |(n : ℤ) - d * patternValue p m| →
      m ≠ roundPattern p n d → roundPattern p n d % 2 = 0) := by
  have hp1 : 1 ≤ p := by omega
  have hval := patternValue_roundPattern p n d hd hp1
  have hdd : 0 < d * 2 ^ roundShift p n d := by positivity
  have hscale : ∀ z : Nat, (d : ℤ) * ((z * 2 ^ roundShift p n d : ℕ) : ℤ) =
      ((d * 2 ^ roundShift p n d : ℕ) : ℤ) * z := by intro z; push_cast; ring
  obtain ⟨k', hk', hm⟩ := patternValue_significand p m hp1
  rcases Nat.lt_or_ge (m / 2 ^ (p - 1) - 1) (roundShift p n d) with hlt | hge
  · -- a pattern of a lower binade is farther than the least value of this one
    have hstrict : |(n : ℤ) - d * patternValue p (roundPattern p n d)| <
        |(n : ℤ) - d * patternValue p m| := by
      have hB := (nearestEven_nearest n _ hdd (2 ^ (p - 1))).1
      rw [hval, hscale]
      refine lt_of_le_of_lt hB ?_
      have hge2 : ((d * 2 ^ roundShift p n d : ℕ) : ℤ) * 2 ^ (p - 1) ≤ n := by
        have hne : n / d ≠ 0 := by
          intro h0
          simp [roundShift, h0] at hlt
        have hpow : 2 ^ (p - 1 + roundShift p n d) ≤ n / d := by
          refine le_trans (Nat.pow_le_pow_right (by omega) ?_) (Nat.log2_self_le hne)
          unfold roundShift at hlt ⊢; omega
        have := (Nat.le_div_iff_mul_le hd).mp hpow
        have h3 : d * 2 ^ roundShift p n d * 2 ^ (p - 1) ≤ n := by
          calc d * 2 ^ roundShift p n d * 2 ^ (p - 1) = 2 ^ (p - 1 + roundShift p n d) * d := by
                rw [pow_add]; ring
            _ ≤ n := this
        exact_mod_cast h3
      have hless : (d : ℤ) * patternValue p m <
          ((d * 2 ^ roundShift p n d : ℕ) : ℤ) * 2 ^ (p - 1) := by
        have h1 : patternValue p m < 2 ^ roundShift p n d * 2 ^ (p - 1) := by
          rw [hm]
          calc k' * 2 ^ (m / 2 ^ (p - 1) - 1) < 2 ^ p * 2 ^ (m / 2 ^ (p - 1) - 1) :=
                Nat.mul_lt_mul_of_pos_right hk' (by positivity)
            _ = 2 ^ (p - 1) * 2 ^ (m / 2 ^ (p - 1) - 1 + 1) := by
                rw [← pow_add, ← pow_add]; congr 1; omega
            _ ≤ 2 ^ (p - 1) * 2 ^ roundShift p n d :=
                Nat.mul_le_mul_left _ (Nat.pow_le_pow_right (by omega) (by omega))
            _ = 2 ^ roundShift p n d * 2 ^ (p - 1) := by ring
        have h2 : d * patternValue p m < d * 2 ^ roundShift p n d * 2 ^ (p - 1) := by
          rw [mul_assoc]; exact Nat.mul_lt_mul_of_pos_left h1 hd
        exact_mod_cast h2
      push_cast at hge2 hless ⊢
      rw [abs_of_nonneg (by linarith), abs_of_nonneg (by linarith)]
      linarith
    exact ⟨hstrict.le, fun h => absurd h hstrict.ne⟩
  · -- a pattern of this binade or a higher one is a multiple of the spacing
    obtain ⟨e, he⟩ := Nat.exists_eq_add_of_le hge
    have hz : patternValue p m = k' * 2 ^ e * 2 ^ roundShift p n d := by
      rw [hm, he, pow_add]; ring
    obtain ⟨h1, h2⟩ := nearestEven_nearest n _ hdd (k' * 2 ^ e)
    rw [hval, hz, hscale, hscale]
    refine ⟨h1, fun heq hmne => ?_⟩
    have hparity : roundPattern p n d % 2 = nearestEven n (d * 2 ^ roundShift p n d) % 2 := by
      unfold roundPattern
      obtain ⟨q, hq⟩ : ∃ q, p - 1 = q + 1 := ⟨p - 2, by omega⟩
      rw [hq, pow_succ, ← mul_assoc]
      omega
    rw [hparity]
    apply h2 heq
    intro hkk
    apply hmne
    apply (patternValue_strictMono p).injective
    rw [hval, hz, hkk]

/-- Rounding does not pass a representable bound. -/
theorem roundPattern_le (hd : 0 < d) (hp : 2 ≤ p) (m : Nat) (h : n ≤ d * patternValue p m) :
    roundPattern p n d ≤ m := by
  by_contra hgt
  have hmono := patternValue_strictMono p (Nat.lt_of_not_le hgt)
  have hnear := (roundPattern_nearest p n d hd hp m).1
  have h1 : (n : ℤ) ≤ d * patternValue p m := by exact_mod_cast h
  have h2 : (d : ℤ) * patternValue p m < d * patternValue p (roundPattern p n d) := by
    exact_mod_cast Nat.mul_lt_mul_of_pos_left hmono hd
  rw [abs_of_nonpos (by linarith), abs_of_nonpos (by linarith)] at hnear
  linarith

/-- A representable value is kept as it is. -/
theorem roundPattern_exact (hd : 0 < d) (hp : 2 ≤ p) (m : Nat) (h : n = d * patternValue p m) :
    roundPattern p n d = m := by
  apply (patternValue_strictMono p).injective
  have hnear := (roundPattern_nearest p n d hd hp m).1
  have h1 : (n : ℤ) = d * patternValue p m := by exact_mod_cast h
  rw [h1, sub_self, abs_zero, abs_nonpos_iff, ← mul_sub, mul_eq_zero] at hnear
  rcases hnear with h2 | h2
  · omega
  · omega

end Rounding

/-- Where rounding leaves an odd pattern `m` for the even one above it: half way between their values. -/
theorem roundPattern_le_iff_of_odd (p n d : Nat) (hd : 0 < d) (hp : 2 ≤ p) (m : Nat) (hm : m % 2 = 1) :
    roundPattern p n d ≤ m ↔ 2 * n < d * (patternValue p m + patternValue p (m + 1)) := by
  have mono := patternValue_strictMono p
  have near := roundPattern_nearest p n d hd hp
  set r := roundPattern p n d
  have hd' : (0 : ℤ) < d := by exact_mod_cast hd
  have hstep : (patternValue p m : ℤ) < patternValue p (m + 1) := by
    exact_mod_cast mono (Nat.lt_succ_self m)
  have goal : 2 * n < d * (patternValue p m + patternValue p (m + 1)) ↔
      (2 : ℤ) * n < d * patternValue p m + d * patternValue p (m + 1) := by
    rw [← mul_add]; exact_mod_cast Iff.rfl
  rw [goal]
  have hgap := mul_lt_mul_of_pos_left hstep hd'
  constructor
  · intro hr
    have hle : (patternValue p r : ℤ) ≤ patternValue p m := by exact_mod_cast mono.monotone hr
    have hmul := mul_le_mul_of_nonneg_left hle hd'.le
    obtain ⟨h1, h2⟩ := near (m + 1)
    by_contra hn
    have htie : |(n : ℤ) - d * patternValue p r| = |(n : ℤ) - d * patternValue p (m + 1)| := by
      refine le_antisymm h1 ?_
      rw [abs_of_nonneg (by omega : (0 : ℤ) ≤ n - d * patternValue p r)]
      exact abs_le.mpr ⟨by omega, by omega⟩
    have heq : (d : ℤ) * patternValue p r = d * patternValue p m := by
      rw [abs_of_nonneg (by omega : (0 : ℤ) ≤ n - d * patternValue p r)] at htie
      rcases abs_choice ((n : ℤ) - d * patternValue p (m + 1)) with h | h <;> omega
    have hrm : r = m := mono.injective (by exact_mod_cast mul_left_cancel₀ hd'.ne' heq)
    have := h2 htie (by omega)
    omega
  · intro hn
    by_contra hr
    have hle : (patternValue p (m + 1) : ℤ) ≤ patternValue p r := by
      exact_mod_cast mono.monotone (Nat.lt_of_not_le hr)
    have hmul := mul_le_mul_of_nonneg_left hle hd'.le
    have h1 := (near m).1
    rw [abs_sub_comm, abs_of_nonneg (by omega : (0 : ℤ) ≤ d * patternValue p r - n)] at h1
    rcases abs_choice ((n : ℤ) - d * patternValue p m) with h | h <;> omega

theorem patternValue_zero (p : Nat) : patternValue p 0 = 0 := by
  unfold patternValue
  rw [if_pos (by positivity)]

theorem F64.one_pos : 0 < F64.one := by unfold F64.one; positivity

theorem F64.perF32Unit_pos : 0 < F64.perF32Unit := by unfold F64.perF32Unit; positivity

/-! ### binary64 patterns as numbers -/

section Binary64

variable (p : Word64)

/-- The pattern without its sign bit, as a number. -/
theorem F64.exponent_eq : F64.exponent p = p.toNat % 2 ^ 63 / 2 ^ 52 := by
  have := p.isLt
  simp only [F64.exponent, BitVec.extractLsb'_toNat, Nat.shiftRight_eq_div_pow]
  omega

theorem F64.fraction_eq : F64.fraction p = p.toNat % 2 ^ 63 % 2 ^ 52 := by
  simp only [F64.fraction, BitVec.extractLsb'_toNat, Nat.shiftRight_zero]
  omega

theorem F64.sign_eq : F64.sign p = decide (2 ^ 63 ≤ p.toNat) := by
  have := p.isLt
  simp only [F64.sign, BitVec.getLsbD, Nat.testBit_eq_decide_div_mod_eq]
  congr 1
  apply propext
  constructor <;> intro h <;> omega

/-- The magnitude of a pattern is the value of the pattern without its sign (R16). -/
theorem F64.magnitude_eq : F64.magnitude p = patternValue 53 (p.toNat % 2 ^ 63) := by
  unfold F64.magnitude patternValue
  rw [F64.exponent_eq, F64.fraction_eq]
  by_cases h : p.toNat % 2 ^ 63 < 2 ^ 52
  · rw [if_pos (by omega), if_pos (by omega)]; omega
  · rw [if_neg (by omega), if_neg (by omega)]

theorem F64.isFinite_iff : F64.isFinite p = true ↔ p.toNat % 2 ^ 63 < 2047 * 2 ^ 52 := by
  simp only [F64.isFinite, F64.exponent_eq, decide_eq_true_eq]
  have := Nat.mod_lt p.toNat (by norm_num : 0 < 2 ^ 63)
  omega

theorem F64.isInf_iff : F64.isInf p = true ↔ p.toNat % 2 ^ 63 = 2047 * 2 ^ 52 := by
  simp only [F64.isInf, F64.exponent_eq, F64.fraction_eq, Bool.and_eq_true, decide_eq_true_eq]
  have := Nat.mod_lt p.toNat (by norm_num : 0 < 2 ^ 63)
  omega

theorem F64.isNaN_iff : F64.isNaN p = true ↔ 2047 * 2 ^ 52 < p.toNat % 2 ^ 63 := by
  simp only [F64.isNaN, F64.exponent_eq, F64.fraction_eq, Bool.and_eq_true, decide_eq_true_eq]
  have := Nat.mod_lt p.toNat (by norm_num : 0 < 2 ^ 63)
  omega

theorem F64.isZero_iff : F64.isZero p = true ↔ p.toNat % 2 ^ 63 = 0 := by
  simp only [F64.isZero, F64.exponent_eq, F64.fraction_eq, Bool.and_eq_true, decide_eq_true_eq]
  omega

/-- A finite pattern is neither a NaN nor an infinity. -/
theorem F64.not_nan_inf_of_finite {p : Word64} (h : F64.isFinite p = true) :
    F64.isNaN p = false ∧ F64.isInf p = false := by
  have h1 := (F64.isFinite_iff p).mp h
  have h2 := F64.isNaN_iff p
  have h3 := F64.isInf_iff p
  constructor
  · cases hn : F64.isNaN p
    · rfl
    · have := h2.mp hn; omega
  · cases hi : F64.isInf p
    · rfl
    · have := h3.mp hi; omega

/-- A pattern built from a sign and a magnitude pattern has them. -/
theorem F64.withSign_toNat (neg : Bool) (m : Nat) (h : m < 2 ^ 63) :
    (F64.withSign neg m).toNat = m + if neg then 2 ^ 63 else 0 := by
  unfold F64.withSign
  rw [BitVec.toNat_ofNat, Nat.mod_eq_of_lt]
  cases neg <;> simp <;> omega

theorem F64.withSign_mod (neg : Bool) (m : Nat) (h : m < 2 ^ 63) :
    (F64.withSign neg m).toNat % 2 ^ 63 = m := by
  rw [F64.withSign_toNat neg m h]
  cases neg <;> simp <;> omega

theorem F64.sign_withSign (neg : Bool) (m : Nat) (h : m < 2 ^ 63) :
    F64.sign (F64.withSign neg m) = neg := by
  rw [F64.sign_eq, F64.withSign_toNat neg m h]
  cases neg
  · simp; omega
  · simp

/-- A finite value is at most the largest finite one, far below where an infinity is put (R20). -/
theorem F64.magnitude_lt_of_finite (h : F64.isFinite p = true) :
    F64.magnitude p < 2 ^ 2098 := by
  rw [F64.magnitude_eq]
  have hlt := (F64.isFinite_iff p).mp h
  refine lt_of_lt_of_eq (patternValue_strictMono 53 hlt) ?_
  unfold patternValue
  norm_num
  rw [show (4503599627370496 : ℕ) = 2 ^ 52 by norm_num, ← pow_add]

/-- Everything `ofRatio` can give (R18): the sign asked for; the infinity on overflow; else the pattern of
a nearest value. -/
theorem F64.ofRatio_spec (neg : Bool) (n d : Nat) :
    F64.sign (F64.ofRatio neg n d) = neg ∧
    (F64.isFinite (F64.ofRatio neg n d) = true ↔ roundPattern 53 n d < 2047 * 2 ^ 52) ∧
    (2047 * 2 ^ 52 ≤ roundPattern 53 n d → F64.ofRatio neg n d = F64.infinity neg) ∧
    (roundPattern 53 n d < 2047 * 2 ^ 52 →
      (F64.ofRatio neg n d).toNat % 2 ^ 63 = roundPattern 53 n d ∧
      F64.magnitude (F64.ofRatio neg n d) = patternValue 53 (roundPattern 53 n d)) := by
  have hlt : min (roundPattern 53 n d) (2047 * 2 ^ 52) < 2 ^ 63 := by
    refine lt_of_le_of_lt (min_le_right _ _) (by norm_num)
  refine ⟨F64.sign_withSign neg _ hlt, ?_, ?_, ?_⟩
  · rw [F64.isFinite_iff, F64.ofRatio, F64.withSign_mod neg _ hlt]
    omega
  · intro h
    rw [F64.ofRatio, min_eq_right h]
    rfl
  · intro h
    have hm : (F64.ofRatio neg n d).toNat % 2 ^ 63 = roundPattern 53 n d := by
      rw [F64.ofRatio, F64.withSign_mod neg _ hlt, min_eq_left h.le]
    exact ⟨hm, by rw [F64.magnitude_eq, hm]⟩

/-- The exact value `± n / d` units that `ofRatio` rounds, cleared of its denominator. -/
def signedNumerator (neg : Bool) (n : Nat) : Int := if neg then -(n : Int) else (n : Int)

/-- A finite `ofRatio` is a nearest binary64 value, signs included, the even one on a tie (R18). -/
theorem F64.ofRatio_nearest (neg : Bool) (n d : Nat) (hd : 0 < d) (y : Word64)
    (hr : F64.isFinite (F64.ofRatio neg n d) = true) :
    |signedNumerator neg n - F64.units (F64.ofRatio neg n d) * d| ≤
      |signedNumerator neg n - F64.units y * d| ∧
    (|signedNumerator neg n - F64.units (F64.ofRatio neg n d) * d| =
      |signedNumerator neg n - F64.units y * d| →
      y ≠ F64.ofRatio neg n d → (F64.ofRatio neg n d).getLsbD 0 = false) := by
  obtain ⟨hs, hf, -, hm⟩ := F64.ofRatio_spec neg n d
  obtain ⟨hmod, hmag⟩ := hm (hf.mp hr)
  have hy := F64.magnitude_eq y
  generalize F64.ofRatio neg n d = r at *
  have near := fun m' => roundPattern_nearest 53 n d hd (by norm_num) m'
  generalize roundPattern 53 n d = m at *
  have hbit : r.getLsbD 0 = false ↔ m % 2 = 0 := by
    rw [BitVec.getLsbD, Nat.testBit_zero]
    simp only [decide_eq_false_iff_not]
    omega
  have hur : F64.units r = if neg then -(patternValue 53 m : ℤ) else patternValue 53 m := by
    unfold F64.units; rw [hs, hmag]
  have keyR : |signedNumerator neg n - F64.units r * d| = |(n : ℤ) - d * patternValue 53 m| := by
    rw [hur]
    cases neg
    · simp [signedNumerator, mul_comm]
    · simp only [signedNumerator, if_true]; rw [← abs_neg]; congr 1; ring
  rw [keyR]
  have hsigns := F64.sign_eq y
  have hsignr := F64.sign_eq r
  by_cases hsy : F64.sign y = neg
  · have keyY : |signedNumerator neg n - F64.units y * d| =
        |(n : ℤ) - d * patternValue 53 (y.toNat % 2 ^ 63)| := by
      unfold F64.units; rw [hsy, hy]
      cases neg
      · simp [signedNumerator, mul_comm]
      · simp only [signedNumerator, if_true]; rw [← abs_neg]; congr 1; ring
    rw [keyY, hbit]
    obtain ⟨hle, heven⟩ := near (y.toNat % 2 ^ 63)
    refine ⟨hle, fun h hne => heven h ?_⟩
    intro hEq
    apply hne
    apply BitVec.eq_of_toNat_eq
    rw [hsy] at hsigns
    rw [hs, hsigns] at hsignr
    have := decide_eq_decide.mp hsignr
    have := y.isLt
    have := r.isLt
    omega
  · have hnn : (0 : ℤ) ≤ patternValue 53 (y.toNat % 2 ^ 63) * d := by positivity
    have keyY : |signedNumerator neg n - F64.units y * d| =
        (n : ℤ) + patternValue 53 (y.toNat % 2 ^ 63) * d := by
      unfold F64.units; rw [hy]
      have hsy' : F64.sign y = !neg := by
        cases neg <;> cases h : F64.sign y <;> simp_all
      rw [hsy']
      cases neg
      · simp only [signedNumerator, Bool.not_false, if_true, if_false, Bool.false_eq_true]
        rw [abs_of_nonneg (by linarith)]; ring
      · simp only [signedNumerator, Bool.not_true, if_true, if_false, Bool.false_eq_true]
        rw [abs_of_nonpos (by linarith)]; ring
    rw [keyY, hbit]
    obtain ⟨hle, heven⟩ := near 0
    rw [patternValue_zero] at hle heven
    simp only [Nat.cast_zero, mul_zero, sub_zero, Nat.abs_cast] at hle heven
    refine ⟨by linarith, fun h _ => ?_⟩
    by_cases h0 : m = 0
    · omega
    · exact heven (by linarith) (Ne.symm h0)

end Binary64

/-! ### Overflow -/

/-- The overflow bound is half way between the largest finite value and the value the infinity's pattern would
have. -/
theorem F64.overflowBound_eq : 2 * F64.overflowBound =
    patternValue 53 (2047 * 2 ^ 52 - 1) + patternValue 53 (2047 * 2 ^ 52) := by
  have h1 : 2 ^ 1024 - 2 ^ 970 = (2 ^ 54 - 1) * 2 ^ 970 := by
    rw [Nat.sub_mul, ← pow_add, one_mul]
  have h2 : 2 ^ 2045 = 2 * (2 ^ 970 * 2 ^ 1074) := by rw [← pow_add, ← pow_succ']
  have h3 : 2 ^ 2046 = 2 * 2 ^ 2045 := by rw [← pow_succ']
  unfold F64.overflowBound F64.one
  rw [h1, patternValue, patternValue, if_neg (by norm_num), if_neg (by norm_num),
    show (2047 * 2 ^ 52 - 1) / 2 ^ (53 - 1) - 1 = 2045 by norm_num,
    show 2047 * 2 ^ 52 / 2 ^ (53 - 1) - 1 = 2046 by norm_num, h3, h2, mul_assoc]
  generalize 2 ^ 970 * 2 ^ 1074 = x
  omega

theorem F64.overflowBound_pos : 0 < F64.overflowBound := by
  have h := F64.overflowBound_eq
  have := patternValue_strictMono 53 (show 0 < 2047 * 2 ^ 52 by norm_num)
  omega

/-- OVERFLOW (R18): a ratio rounds to a finite pattern exactly below the overflow bound. -/
theorem F64.ofRatio_isFinite_iff (neg : Bool) (n d : Nat) (hd : 0 < d) :
    F64.isFinite (F64.ofRatio neg n d) = true ↔ n < d * F64.overflowBound := by
  have h := roundPattern_le_iff_of_odd 53 n d hd (by norm_num) (2047 * 2 ^ 52 - 1) (by norm_num)
  rw [show 2047 * 2 ^ 52 - 1 + 1 = 2047 * 2 ^ 52 by norm_num, ← F64.overflowBound_eq,
    Nat.mul_left_comm] at h
  rw [(F64.ofRatio_spec neg n d).2.1]
  omega

/-! ### Rounding a ratio that is not negative -/

/-- A pattern with no negative value has its magnitude as value. -/
theorem F64.units_of_nonneg {p : Word64} (h : 0 ≤ F64.units p) :
    F64.units p = F64.magnitude p := by
  unfold F64.units at *
  split_ifs at * <;> omega

/-- Rounding a ratio that is not negative stays at or below a finite pattern `y` that its rounded pattern does
not pass, and gives the value of `y` when the ratio is exactly that. -/
theorem F64.ofRatio_le_of_pattern (neg : Bool) (n d : Nat) (hd : 0 < d) (hneg : neg = true → n = 0)
    {y : Word64} (hy : F64.isFinite y = true) (hle : roundPattern 53 n d ≤ y.toNat % 2 ^ 63) :
    F64.isFinite (F64.ofRatio neg n d) = true ∧ 0 ≤ F64.units (F64.ofRatio neg n d) ∧
    F64.units (F64.ofRatio neg n d) ≤ F64.magnitude y ∧
    (n = d * F64.magnitude y → F64.units (F64.ofRatio neg n d) = F64.magnitude y) := by
  have hfy := (F64.isFinite_iff y).mp hy
  obtain ⟨hs, hf, -, hm⟩ := F64.ofRatio_spec neg n d
  have hlt : roundPattern 53 n d < 2047 * 2 ^ 52 := by omega
  obtain ⟨-, hmag⟩ := hm hlt
  have hunits : F64.units (F64.ofRatio neg n d) = patternValue 53 (roundPattern 53 n d) := by
    unfold F64.units
    rw [hs, hmag]
    cases neg
    · rfl
    · have h0 : roundPattern 53 n d = 0 := by
        have := roundPattern_le 53 n d hd (by norm_num) 0 (by simp [hneg rfl])
        omega
      rw [h0, patternValue_zero]; rfl
  refine ⟨hf.mpr hlt, by rw [hunits]; positivity, ?_, ?_⟩
  · rw [hunits, F64.magnitude_eq]
    exact_mod_cast (patternValue_strictMono 53).monotone hle
  · intro he
    rw [hunits, F64.magnitude_eq, roundPattern_exact 53 n d hd (by norm_num) (y.toNat % 2 ^ 63)
      (by rwa [← F64.magnitude_eq])]

/-- Rounding is monotone (R18): a ratio at or below a finite value rounds at or below it. -/
theorem F64.ofRatio_le (neg : Bool) (n d : Nat) (hd : 0 < d) (hneg : neg = true → n = 0)
    {y : Word64} (hy : F64.isFinite y = true) (h : n ≤ d * F64.magnitude y) :
    F64.isFinite (F64.ofRatio neg n d) = true ∧ 0 ≤ F64.units (F64.ofRatio neg n d) ∧
    F64.units (F64.ofRatio neg n d) ≤ F64.magnitude y ∧
    (n = d * F64.magnitude y → F64.units (F64.ofRatio neg n d) = F64.magnitude y) :=
  F64.ofRatio_le_of_pattern neg n d hd hneg hy
    (roundPattern_le 53 n d hd (by norm_num) _ (by rwa [← F64.magnitude_eq]))

end Sys2Proof.Machine
end

