-- ==== Sys2Proof/Laws/State.lean ====
section
/-! SUPPORT. One lemma per field per update of the state, true by rfl, so that no later proof unfolds a
record update. -/

namespace Sys2Proof.Machine

open Sys2Proof

section Fields

variable (s : State)

@[simp] theorem State.setData_data (v : Word64) :
    (s.setData v).data = v := rfl
@[simp] theorem State.setData_err (v : Word64) :
    (s.setData v).err = s.err := rfl
@[simp] theorem State.setData_erridx (v : Word64) :
    (s.setData v).erridx = s.erridx := rfl
@[simp] theorem State.setData_gv (v : Word64) :
    (s.setData v).gv = s.gv := rfl
@[simp] theorem State.setData_gvar (v : Word64) :
    (s.setData v).gvar = s.gvar := rfl
@[simp] theorem State.setData_gn (v : Word64) :
    (s.setData v).gn = s.gn := rfl
@[simp] theorem State.setData_gval (v : Word64) :
    (s.setData v).gval = s.gval := rfl
@[simp] theorem State.setData_gpar (v : Word64) :
    (s.setData v).gpar = s.gpar := rfl
@[simp] theorem State.setData_w (v : Word64) :
    (s.setData v).w = s.w := rfl
@[simp] theorem State.setData_b (v : Word64) :
    (s.setData v).b = s.b := rfl
@[simp] theorem State.setData_win (v : Word64) :
    (s.setData v).win = s.win := rfl
@[simp] theorem State.setData_wlen (v : Word64) :
    (s.setData v).wlen = s.wlen := rfl
@[simp] theorem State.setData_buf (v : Word64) :
    (s.setData v).buf = s.buf := rfl
@[simp] theorem State.setData_bufcap (v : Word64) :
    (s.setData v).bufcap = s.bufcap := rfl
@[simp] theorem State.setData_launches (v : Word64) :
    (s.setData v).launches = s.launches := rfl
@[simp] theorem State.setData_inputs (v : Word64) :
    (s.setData v).inputs = s.inputs := rfl
@[simp] theorem State.setData_reply (v : Word64) :
    (s.setData v).reply = s.reply := rfl

@[simp] theorem State.setErr_data (e : ErrCode) :
    (s.setErr e).data = s.data := rfl
@[simp] theorem State.setErr_err (e : ErrCode) :
    (s.setErr e).err = e := rfl
@[simp] theorem State.setErr_erridx (e : ErrCode) :
    (s.setErr e).erridx = s.erridx := rfl
@[simp] theorem State.setErr_gv (e : ErrCode) :
    (s.setErr e).gv = s.gv := rfl
@[simp] theorem State.setErr_gvar (e : ErrCode) :
    (s.setErr e).gvar = s.gvar := rfl
@[simp] theorem State.setErr_gn (e : ErrCode) :
    (s.setErr e).gn = s.gn := rfl
@[simp] theorem State.setErr_gval (e : ErrCode) :
    (s.setErr e).gval = s.gval := rfl
@[simp] theorem State.setErr_gpar (e : ErrCode) :
    (s.setErr e).gpar = s.gpar := rfl
@[simp] theorem State.setErr_w (e : ErrCode) :
    (s.setErr e).w = s.w := rfl
@[simp] theorem State.setErr_b (e : ErrCode) :
    (s.setErr e).b = s.b := rfl
@[simp] theorem State.setErr_win (e : ErrCode) :
    (s.setErr e).win = s.win := rfl
@[simp] theorem State.setErr_wlen (e : ErrCode) :
    (s.setErr e).wlen = s.wlen := rfl
@[simp] theorem State.setErr_buf (e : ErrCode) :
    (s.setErr e).buf = s.buf := rfl
@[simp] theorem State.setErr_bufcap (e : ErrCode) :
    (s.setErr e).bufcap = s.bufcap := rfl
@[simp] theorem State.setErr_launches (e : ErrCode) :
    (s.setErr e).launches = s.launches := rfl
@[simp] theorem State.setErr_inputs (e : ErrCode) :
    (s.setErr e).inputs = s.inputs := rfl
@[simp] theorem State.setErr_reply (e : ErrCode) :
    (s.setErr e).reply = s.reply := rfl

@[simp] theorem State.setErridx_data (i : BitVec 16) :
    (s.setErridx i).data = s.data := rfl
@[simp] theorem State.setErridx_err (i : BitVec 16) :
    (s.setErridx i).err = s.err := rfl
@[simp] theorem State.setErridx_erridx (i : BitVec 16) :
    (s.setErridx i).erridx = i := rfl
@[simp] theorem State.setErridx_gv (i : BitVec 16) :
    (s.setErridx i).gv = s.gv := rfl
@[simp] theorem State.setErridx_gvar (i : BitVec 16) :
    (s.setErridx i).gvar = s.gvar := rfl
@[simp] theorem State.setErridx_gn (i : BitVec 16) :
    (s.setErridx i).gn = s.gn := rfl
@[simp] theorem State.setErridx_gval (i : BitVec 16) :
    (s.setErridx i).gval = s.gval := rfl
@[simp] theorem State.setErridx_gpar (i : BitVec 16) :
    (s.setErridx i).gpar = s.gpar := rfl
@[simp] theorem State.setErridx_w (i : BitVec 16) :
    (s.setErridx i).w = s.w := rfl
@[simp] theorem State.setErridx_b (i : BitVec 16) :
    (s.setErridx i).b = s.b := rfl
@[simp] theorem State.setErridx_win (i : BitVec 16) :
    (s.setErridx i).win = s.win := rfl
@[simp] theorem State.setErridx_wlen (i : BitVec 16) :
    (s.setErridx i).wlen = s.wlen := rfl
@[simp] theorem State.setErridx_buf (i : BitVec 16) :
    (s.setErridx i).buf = s.buf := rfl
@[simp] theorem State.setErridx_bufcap (i : BitVec 16) :
    (s.setErridx i).bufcap = s.bufcap := rfl
@[simp] theorem State.setErridx_launches (i : BitVec 16) :
    (s.setErridx i).launches = s.launches := rfl
@[simp] theorem State.setErridx_inputs (i : BitVec 16) :
    (s.setErridx i).inputs = s.inputs := rfl
@[simp] theorem State.setErridx_reply (i : BitVec 16) :
    (s.setErridx i).reply = s.reply := rfl

@[simp] theorem State.setGen_data (var : Variant) (n : BitVec 6) :
    (s.setGen var n).data = s.data := rfl
@[simp] theorem State.setGen_err (var : Variant) (n : BitVec 6) :
    (s.setGen var n).err = s.err := rfl
@[simp] theorem State.setGen_erridx (var : Variant) (n : BitVec 6) :
    (s.setGen var n).erridx = s.erridx := rfl
@[simp] theorem State.setGen_gv (var : Variant) (n : BitVec 6) :
    (s.setGen var n).gv = true := rfl
@[simp] theorem State.setGen_gvar (var : Variant) (n : BitVec 6) :
    (s.setGen var n).gvar = var := rfl
@[simp] theorem State.setGen_gn (var : Variant) (n : BitVec 6) :
    (s.setGen var n).gn = n := rfl
@[simp] theorem State.setGen_gval (var : Variant) (n : BitVec 6) :
    (s.setGen var n).gval = s.gval := rfl
@[simp] theorem State.setGen_gpar (var : Variant) (n : BitVec 6) :
    (s.setGen var n).gpar = s.gpar := rfl
@[simp] theorem State.setGen_w (var : Variant) (n : BitVec 6) :
    (s.setGen var n).w = s.w := rfl
@[simp] theorem State.setGen_b (var : Variant) (n : BitVec 6) :
    (s.setGen var n).b = s.b := rfl
@[simp] theorem State.setGen_win (var : Variant) (n : BitVec 6) :
    (s.setGen var n).win = s.win := rfl
@[simp] theorem State.setGen_wlen (var : Variant) (n : BitVec 6) :
    (s.setGen var n).wlen = s.wlen := rfl
@[simp] theorem State.setGen_buf (var : Variant) (n : BitVec 6) :
    (s.setGen var n).buf = s.buf := rfl
@[simp] theorem State.setGen_bufcap (var : Variant) (n : BitVec 6) :
    (s.setGen var n).bufcap = s.bufcap := rfl
@[simp] theorem State.setGen_launches (var : Variant) (n : BitVec 6) :
    (s.setGen var n).launches = s.launches := rfl
@[simp] theorem State.setGen_inputs (var : Variant) (n : BitVec 6) :
    (s.setGen var n).inputs = s.inputs := rfl
@[simp] theorem State.setGen_reply (var : Variant) (n : BitVec 6) :
    (s.setGen var n).reply = s.reply := rfl

@[simp] theorem State.setGval_data (v : Word64) :
    (s.setGval v).data = s.data := rfl
@[simp] theorem State.setGval_err (v : Word64) :
    (s.setGval v).err = s.err := rfl
@[simp] theorem State.setGval_erridx (v : Word64) :
    (s.setGval v).erridx = s.erridx := rfl
@[simp] theorem State.setGval_gv (v : Word64) :
    (s.setGval v).gv = s.gv := rfl
@[simp] theorem State.setGval_gvar (v : Word64) :
    (s.setGval v).gvar = s.gvar := rfl
@[simp] theorem State.setGval_gn (v : Word64) :
    (s.setGval v).gn = s.gn := rfl
@[simp] theorem State.setGval_gval (v : Word64) :
    (s.setGval v).gval = v := rfl
@[simp] theorem State.setGval_gpar (v : Word64) :
    (s.setGval v).gpar = s.gpar := rfl
@[simp] theorem State.setGval_w (v : Word64) :
    (s.setGval v).w = s.w := rfl
@[simp] theorem State.setGval_b (v : Word64) :
    (s.setGval v).b = s.b := rfl
@[simp] theorem State.setGval_win (v : Word64) :
    (s.setGval v).win = s.win := rfl
@[simp] theorem State.setGval_wlen (v : Word64) :
    (s.setGval v).wlen = s.wlen := rfl
@[simp] theorem State.setGval_buf (v : Word64) :
    (s.setGval v).buf = s.buf := rfl
@[simp] theorem State.setGval_bufcap (v : Word64) :
    (s.setGval v).bufcap = s.bufcap := rfl
@[simp] theorem State.setGval_launches (v : Word64) :
    (s.setGval v).launches = s.launches := rfl
@[simp] theorem State.setGval_inputs (v : Word64) :
    (s.setGval v).inputs = s.inputs := rfl
@[simp] theorem State.setGval_reply (v : Word64) :
    (s.setGval v).reply = s.reply := rfl

@[simp] theorem State.setGpar_data (v : Word64) :
    (s.setGpar v).data = s.data := rfl
@[simp] theorem State.setGpar_err (v : Word64) :
    (s.setGpar v).err = s.err := rfl
@[simp] theorem State.setGpar_erridx (v : Word64) :
    (s.setGpar v).erridx = s.erridx := rfl
@[simp] theorem State.setGpar_gv (v : Word64) :
    (s.setGpar v).gv = s.gv := rfl
@[simp] theorem State.setGpar_gvar (v : Word64) :
    (s.setGpar v).gvar = s.gvar := rfl
@[simp] theorem State.setGpar_gn (v : Word64) :
    (s.setGpar v).gn = s.gn := rfl
@[simp] theorem State.setGpar_gval (v : Word64) :
    (s.setGpar v).gval = s.gval := rfl
@[simp] theorem State.setGpar_gpar (v : Word64) :
    (s.setGpar v).gpar = v := rfl
@[simp] theorem State.setGpar_w (v : Word64) :
    (s.setGpar v).w = s.w := rfl
@[simp] theorem State.setGpar_b (v : Word64) :
    (s.setGpar v).b = s.b := rfl
@[simp] theorem State.setGpar_win (v : Word64) :
    (s.setGpar v).win = s.win := rfl
@[simp] theorem State.setGpar_wlen (v : Word64) :
    (s.setGpar v).wlen = s.wlen := rfl
@[simp] theorem State.setGpar_buf (v : Word64) :
    (s.setGpar v).buf = s.buf := rfl
@[simp] theorem State.setGpar_bufcap (v : Word64) :
    (s.setGpar v).bufcap = s.bufcap := rfl
@[simp] theorem State.setGpar_launches (v : Word64) :
    (s.setGpar v).launches = s.launches := rfl
@[simp] theorem State.setGpar_inputs (v : Word64) :
    (s.setGpar v).inputs = s.inputs := rfl
@[simp] theorem State.setGpar_reply (v : Word64) :
    (s.setGpar v).reply = s.reply := rfl

@[simp] theorem State.setPerceptron_data (w : Eight (Eight Weight)) (b : Eight Bias) :
    (s.setPerceptron w b).data = s.data := rfl
@[simp] theorem State.setPerceptron_err (w : Eight (Eight Weight)) (b : Eight Bias) :
    (s.setPerceptron w b).err = s.err := rfl
@[simp] theorem State.setPerceptron_erridx (w : Eight (Eight Weight)) (b : Eight Bias) :
    (s.setPerceptron w b).erridx = s.erridx := rfl
@[simp] theorem State.setPerceptron_gv (w : Eight (Eight Weight)) (b : Eight Bias) :
    (s.setPerceptron w b).gv = s.gv := rfl
@[simp] theorem State.setPerceptron_gvar (w : Eight (Eight Weight)) (b : Eight Bias) :
    (s.setPerceptron w b).gvar = s.gvar := rfl
@[simp] theorem State.setPerceptron_gn (w : Eight (Eight Weight)) (b : Eight Bias) :
    (s.setPerceptron w b).gn = s.gn := rfl
@[simp] theorem State.setPerceptron_gval (w : Eight (Eight Weight)) (b : Eight Bias) :
    (s.setPerceptron w b).gval = s.gval := rfl
@[simp] theorem State.setPerceptron_gpar (w : Eight (Eight Weight)) (b : Eight Bias) :
    (s.setPerceptron w b).gpar = s.gpar := rfl
@[simp] theorem State.setPerceptron_w (w : Eight (Eight Weight)) (b : Eight Bias) :
    (s.setPerceptron w b).w = w := rfl
@[simp] theorem State.setPerceptron_b (w : Eight (Eight Weight)) (b : Eight Bias) :
    (s.setPerceptron w b).b = b := rfl
@[simp] theorem State.setPerceptron_win (w : Eight (Eight Weight)) (b : Eight Bias) :
    (s.setPerceptron w b).win = s.win := rfl
@[simp] theorem State.setPerceptron_wlen (w : Eight (Eight Weight)) (b : Eight Bias) :
    (s.setPerceptron w b).wlen = s.wlen := rfl
@[simp] theorem State.setPerceptron_buf (w : Eight (Eight Weight)) (b : Eight Bias) :
    (s.setPerceptron w b).buf = s.buf := rfl
@[simp] theorem State.setPerceptron_bufcap (w : Eight (Eight Weight)) (b : Eight Bias) :
    (s.setPerceptron w b).bufcap = s.bufcap := rfl
@[simp] theorem State.setPerceptron_launches (w : Eight (Eight Weight)) (b : Eight Bias) :
    (s.setPerceptron w b).launches = s.launches := rfl
@[simp] theorem State.setPerceptron_inputs (w : Eight (Eight Weight)) (b : Eight Bias) :
    (s.setPerceptron w b).inputs = s.inputs := rfl
@[simp] theorem State.setPerceptron_reply (w : Eight (Eight Weight)) (b : Eight Bias) :
    (s.setPerceptron w b).reply = s.reply := rfl

@[simp] theorem State.setWin_data (m : Memory Word64) :
    (s.setWin m).data = s.data := rfl
@[simp] theorem State.setWin_err (m : Memory Word64) :
    (s.setWin m).err = s.err := rfl
@[simp] theorem State.setWin_erridx (m : Memory Word64) :
    (s.setWin m).erridx = s.erridx := rfl
@[simp] theorem State.setWin_gv (m : Memory Word64) :
    (s.setWin m).gv = s.gv := rfl
@[simp] theorem State.setWin_gvar (m : Memory Word64) :
    (s.setWin m).gvar = s.gvar := rfl
@[simp] theorem State.setWin_gn (m : Memory Word64) :
    (s.setWin m).gn = s.gn := rfl
@[simp] theorem State.setWin_gval (m : Memory Word64) :
    (s.setWin m).gval = s.gval := rfl
@[simp] theorem State.setWin_gpar (m : Memory Word64) :
    (s.setWin m).gpar = s.gpar := rfl
@[simp] theorem State.setWin_w (m : Memory Word64) :
    (s.setWin m).w = s.w := rfl
@[simp] theorem State.setWin_b (m : Memory Word64) :
    (s.setWin m).b = s.b := rfl
@[simp] theorem State.setWin_win (m : Memory Word64) :
    (s.setWin m).win = m := rfl
@[simp] theorem State.setWin_wlen (m : Memory Word64) :
    (s.setWin m).wlen = s.wlen := rfl
@[simp] theorem State.setWin_buf (m : Memory Word64) :
    (s.setWin m).buf = s.buf := rfl
@[simp] theorem State.setWin_bufcap (m : Memory Word64) :
    (s.setWin m).bufcap = s.bufcap := rfl
@[simp] theorem State.setWin_launches (m : Memory Word64) :
    (s.setWin m).launches = s.launches := rfl
@[simp] theorem State.setWin_inputs (m : Memory Word64) :
    (s.setWin m).inputs = s.inputs := rfl
@[simp] theorem State.setWin_reply (m : Memory Word64) :
    (s.setWin m).reply = s.reply := rfl

@[simp] theorem State.setWlen_data (n : BitVec 16) :
    (s.setWlen n).data = s.data := rfl
@[simp] theorem State.setWlen_err (n : BitVec 16) :
    (s.setWlen n).err = s.err := rfl
@[simp] theorem State.setWlen_erridx (n : BitVec 16) :
    (s.setWlen n).erridx = s.erridx := rfl
@[simp] theorem State.setWlen_gv (n : BitVec 16) :
    (s.setWlen n).gv = s.gv := rfl
@[simp] theorem State.setWlen_gvar (n : BitVec 16) :
    (s.setWlen n).gvar = s.gvar := rfl
@[simp] theorem State.setWlen_gn (n : BitVec 16) :
    (s.setWlen n).gn = s.gn := rfl
@[simp] theorem State.setWlen_gval (n : BitVec 16) :
    (s.setWlen n).gval = s.gval := rfl
@[simp] theorem State.setWlen_gpar (n : BitVec 16) :
    (s.setWlen n).gpar = s.gpar := rfl
@[simp] theorem State.setWlen_w (n : BitVec 16) :
    (s.setWlen n).w = s.w := rfl
@[simp] theorem State.setWlen_b (n : BitVec 16) :
    (s.setWlen n).b = s.b := rfl
@[simp] theorem State.setWlen_win (n : BitVec 16) :
    (s.setWlen n).win = s.win := rfl
@[simp] theorem State.setWlen_wlen (n : BitVec 16) :
    (s.setWlen n).wlen = n := rfl
@[simp] theorem State.setWlen_buf (n : BitVec 16) :
    (s.setWlen n).buf = s.buf := rfl
@[simp] theorem State.setWlen_bufcap (n : BitVec 16) :
    (s.setWlen n).bufcap = s.bufcap := rfl
@[simp] theorem State.setWlen_launches (n : BitVec 16) :
    (s.setWlen n).launches = s.launches := rfl
@[simp] theorem State.setWlen_inputs (n : BitVec 16) :
    (s.setWlen n).inputs = s.inputs := rfl
@[simp] theorem State.setWlen_reply (n : BitVec 16) :
    (s.setWlen n).reply = s.reply := rfl

@[simp] theorem State.setBuf_data (m : List Host.Cell) :
    (s.setBuf m).data = s.data := rfl
@[simp] theorem State.setBuf_err (m : List Host.Cell) :
    (s.setBuf m).err = s.err := rfl
@[simp] theorem State.setBuf_erridx (m : List Host.Cell) :
    (s.setBuf m).erridx = s.erridx := rfl
@[simp] theorem State.setBuf_gv (m : List Host.Cell) :
    (s.setBuf m).gv = s.gv := rfl
@[simp] theorem State.setBuf_gvar (m : List Host.Cell) :
    (s.setBuf m).gvar = s.gvar := rfl
@[simp] theorem State.setBuf_gn (m : List Host.Cell) :
    (s.setBuf m).gn = s.gn := rfl
@[simp] theorem State.setBuf_gval (m : List Host.Cell) :
    (s.setBuf m).gval = s.gval := rfl
@[simp] theorem State.setBuf_gpar (m : List Host.Cell) :
    (s.setBuf m).gpar = s.gpar := rfl
@[simp] theorem State.setBuf_w (m : List Host.Cell) :
    (s.setBuf m).w = s.w := rfl
@[simp] theorem State.setBuf_b (m : List Host.Cell) :
    (s.setBuf m).b = s.b := rfl
@[simp] theorem State.setBuf_win (m : List Host.Cell) :
    (s.setBuf m).win = s.win := rfl
@[simp] theorem State.setBuf_wlen (m : List Host.Cell) :
    (s.setBuf m).wlen = s.wlen := rfl
@[simp] theorem State.setBuf_buf (m : List Host.Cell) :
    (s.setBuf m).buf = m := rfl
@[simp] theorem State.setBuf_bufcap (m : List Host.Cell) :
    (s.setBuf m).bufcap = s.bufcap := rfl
@[simp] theorem State.setBuf_launches (m : List Host.Cell) :
    (s.setBuf m).launches = s.launches := rfl
@[simp] theorem State.setBuf_inputs (m : List Host.Cell) :
    (s.setBuf m).inputs = s.inputs := rfl
@[simp] theorem State.setBuf_reply (m : List Host.Cell) :
    (s.setBuf m).reply = s.reply := rfl

@[simp] theorem State.setInputs_data (l : List HostAccess) :
    (s.setInputs l).data = s.data := rfl
@[simp] theorem State.setInputs_err (l : List HostAccess) :
    (s.setInputs l).err = s.err := rfl
@[simp] theorem State.setInputs_erridx (l : List HostAccess) :
    (s.setInputs l).erridx = s.erridx := rfl
@[simp] theorem State.setInputs_gv (l : List HostAccess) :
    (s.setInputs l).gv = s.gv := rfl
@[simp] theorem State.setInputs_gvar (l : List HostAccess) :
    (s.setInputs l).gvar = s.gvar := rfl
@[simp] theorem State.setInputs_gn (l : List HostAccess) :
    (s.setInputs l).gn = s.gn := rfl
@[simp] theorem State.setInputs_gval (l : List HostAccess) :
    (s.setInputs l).gval = s.gval := rfl
@[simp] theorem State.setInputs_gpar (l : List HostAccess) :
    (s.setInputs l).gpar = s.gpar := rfl
@[simp] theorem State.setInputs_w (l : List HostAccess) :
    (s.setInputs l).w = s.w := rfl
@[simp] theorem State.setInputs_b (l : List HostAccess) :
    (s.setInputs l).b = s.b := rfl
@[simp] theorem State.setInputs_win (l : List HostAccess) :
    (s.setInputs l).win = s.win := rfl
@[simp] theorem State.setInputs_wlen (l : List HostAccess) :
    (s.setInputs l).wlen = s.wlen := rfl
@[simp] theorem State.setInputs_buf (l : List HostAccess) :
    (s.setInputs l).buf = s.buf := rfl
@[simp] theorem State.setInputs_bufcap (l : List HostAccess) :
    (s.setInputs l).bufcap = s.bufcap := rfl
@[simp] theorem State.setInputs_launches (l : List HostAccess) :
    (s.setInputs l).launches = s.launches := rfl
@[simp] theorem State.setInputs_inputs (l : List HostAccess) :
    (s.setInputs l).inputs = l := rfl
@[simp] theorem State.setInputs_reply (l : List HostAccess) :
    (s.setInputs l).reply = s.reply := rfl

@[simp] theorem State.setReply_data (r : Option Word64) :
    (s.setReply r).data = s.data := rfl
@[simp] theorem State.setReply_err (r : Option Word64) :
    (s.setReply r).err = s.err := rfl
@[simp] theorem State.setReply_erridx (r : Option Word64) :
    (s.setReply r).erridx = s.erridx := rfl
@[simp] theorem State.setReply_gv (r : Option Word64) :
    (s.setReply r).gv = s.gv := rfl
@[simp] theorem State.setReply_gvar (r : Option Word64) :
    (s.setReply r).gvar = s.gvar := rfl
@[simp] theorem State.setReply_gn (r : Option Word64) :
    (s.setReply r).gn = s.gn := rfl
@[simp] theorem State.setReply_gval (r : Option Word64) :
    (s.setReply r).gval = s.gval := rfl
@[simp] theorem State.setReply_gpar (r : Option Word64) :
    (s.setReply r).gpar = s.gpar := rfl
@[simp] theorem State.setReply_w (r : Option Word64) :
    (s.setReply r).w = s.w := rfl
@[simp] theorem State.setReply_b (r : Option Word64) :
    (s.setReply r).b = s.b := rfl
@[simp] theorem State.setReply_win (r : Option Word64) :
    (s.setReply r).win = s.win := rfl
@[simp] theorem State.setReply_wlen (r : Option Word64) :
    (s.setReply r).wlen = s.wlen := rfl
@[simp] theorem State.setReply_buf (r : Option Word64) :
    (s.setReply r).buf = s.buf := rfl
@[simp] theorem State.setReply_bufcap (r : Option Word64) :
    (s.setReply r).bufcap = s.bufcap := rfl
@[simp] theorem State.setReply_launches (r : Option Word64) :
    (s.setReply r).launches = s.launches := rfl
@[simp] theorem State.setReply_inputs (r : Option Word64) :
    (s.setReply r).inputs = s.inputs := rfl
@[simp] theorem State.setReply_reply (r : Option Word64) :
    (s.setReply r).reply = r := rfl

end Fields

end Sys2Proof.Machine
end

