-- ==== Sys2Proof/Laws/Memory.lean ====
section
/-! SUPPORT. The laws of sparse memory and of BUF and WIN: read after write, canonical form, and that
memories which answer alike are equal. -/

namespace Sys2Proof.Machine

open Sys2Proof

section Sparse

variable {α : Type}

/-- A read after a write: the written value at the written address, the old answer elsewhere. -/
theorem Memory.find_put (m : Memory α) (a k : Nat) (v : α) :
    Memory.find (Memory.put m a v) k = if k = a then some v else Memory.find m k := by
  induction m with
  | nil => simp [Memory.put, Memory.find, eq_comm]
  | cons cell rest ih =>
    obtain ⟨c, u⟩ := cell
    by_cases h1 : a < c
    · simp [Memory.put, Memory.find, h1, eq_comm]
    · by_cases h2 : a = c
      · subst h2
        by_cases hk : k = a
        · simp [Memory.put, Memory.find, hk]
        · have : a ≠ k := fun h => hk h.symm
          simp [Memory.put, Memory.find, hk, this]
      · simp only [Memory.put, h1, h2, if_false, Memory.find, ih]
        by_cases hc : c = k
        · have : k ≠ a := by omega
          simp [hc, this]
        · simp [hc]

theorem Memory.find_put_same (m : Memory α) (a : Nat) (v : α) :
    Memory.find (Memory.put m a v) a = some v := by simp [Memory.find_put]

theorem Memory.find_put_other (m : Memory α) {a k : Nat} (h : k ≠ a) (v : α) :
    Memory.find (Memory.put m a v) k = Memory.find m k := by simp [Memory.find_put, h]

/-- A lower bound below the written address and below the list stays one. -/
theorem Memory.risesFrom_put (lo : Option Nat) (m : Memory α) (a : Nat) (v : α)
    (hlo : ∀ l, lo = some l → l < a) (h : Memory.risesFrom lo m = true) :
    Memory.risesFrom lo (Memory.put m a v) = true := by
  induction m generalizing lo with
  | nil => cases lo <;> simp_all [Memory.put, Memory.risesFrom]
  | cons cell rest ih =>
    obtain ⟨c, u⟩ := cell
    simp only [Memory.risesFrom, Bool.and_eq_true] at h
    unfold Memory.put
    split
    · rename_i hac
      cases lo <;> simp_all [Memory.risesFrom]
    · split
      · rename_i hac
        subst hac
        simp only [Memory.risesFrom, Bool.and_eq_true]
        exact ⟨h.1, h.2⟩
      · simp only [Memory.risesFrom, Bool.and_eq_true]
        refine ⟨h.1, ih (some c) ?_ h.2⟩
        intro l hl
        injection hl with hl
        omega

/-- Every write keeps the canonical form. -/
theorem Memory.wf_put (m : Memory α) (a : Nat) (v : α) (h : Memory.wf m = true) :
    Memory.wf (Memory.put m a v) = true :=
  Memory.risesFrom_put none m a v (fun _ hl => nomatch hl) h

/-- A write below the capacity keeps the memory inside its space. -/
theorem Memory.below_put (cap : Nat) (m : Memory α) {a : Nat} (v : α) (ha : a < cap)
    (h : Memory.below cap m = true) : Memory.below cap (Memory.put m a v) = true := by
  induction m with
  | nil => simp [Memory.put, Memory.below, ha]
  | cons cell rest ih =>
    obtain ⟨c, u⟩ := cell
    simp only [Memory.below, List.all_cons, Bool.and_eq_true, decide_eq_true_eq] at h ih ⊢
    unfold Memory.put
    split
    · simp [ha, h.1, h.2]
    · split
      · simp [ha, h.2]
      · simp [h.1, ih h.2]

/-- In a canonical memory nothing is listed at or below a lower bound. -/
theorem Memory.find_eq_none_of_risesFrom (m : Memory α) (l a : Nat) (ha : a ≤ l)
    (h : Memory.risesFrom (some l) m = true) : Memory.find m a = none := by
  induction m generalizing l with
  | nil => rfl
  | cons cell rest ih =>
    obtain ⟨c, u⟩ := cell
    simp only [Memory.risesFrom, Bool.and_eq_true, decide_eq_true_eq] at h
    have hc : c ≠ a := by omega
    simp only [Memory.find, hc, if_false]
    exact ih c (by omega) h.2

/-- Canonical memories that answer every address alike are the same list. -/
theorem Memory.ext_of_find (lo : Option Nat) (m n : Memory α) (hm : Memory.risesFrom lo m = true)
    (hn : Memory.risesFrom lo n = true) (h : ∀ a, Memory.find m a = Memory.find n a) : m = n := by
  induction m generalizing lo n with
  | nil =>
    cases n with
    | nil => rfl
    | cons cell rest =>
      have := h cell.1
      simp [Memory.find] at this
  | cons cell rest ih =>
    obtain ⟨c, u⟩ := cell
    cases n with
    | nil =>
      have := h c
      simp [Memory.find] at this
    | cons cell' rest' =>
      obtain ⟨c', u'⟩ := cell'
      simp only [Memory.risesFrom, Bool.and_eq_true] at hm hn
      have hcc : c = c' := by
        rcases Nat.lt_trichotomy c c' with hlt | heq | hgt
        · have h1 := h c
          have hne : c' ≠ c := by omega
          simp [Memory.find, hne,
            Memory.find_eq_none_of_risesFrom rest' c' c (by omega) hn.2] at h1
        · exact heq
        · have h1 := h c'
          have hne : c ≠ c' := by omega
          simp [Memory.find, hne,
            Memory.find_eq_none_of_risesFrom rest c c' (by omega) hm.2] at h1
      subst hcc
      have hu : u = u' := by simpa [Memory.find] using h c
      subst hu
      have hrest : rest = rest' := by
        refine ih (some c) rest' hm.2 hn.2 ?_
        intro a
        by_cases hca : c = a
        · subst hca
          rw [Memory.find_eq_none_of_risesFrom rest c c (Nat.le_refl c) hm.2,
            Memory.find_eq_none_of_risesFrom rest' c c (Nat.le_refl c) hn.2]
        · have := h a
          simpa [Memory.find, hca] using this
      rw [hrest]

end Sparse

/-! ### BUF and WIN -/

section Spaces

variable (s : State)

/-- `BUF[a] <- v` writes one byte. -/
theorem State.bufRead_bufWrite (a k : Nat) (v : Byte) :
    (s.bufWrite a v).bufRead k = if k = a then v else s.bufRead k := by
  unfold State.bufRead State.bufWrite
  rw [State.setBuf_buf, Memory.find_put]
  by_cases h : k = a <;> simp [h]

/-- `WIN[k] <- v` writes one entry. -/
theorem State.winRead_winWrite (a k : Nat) (v : Word64) :
    (s.winWrite a v).winRead k = if k = a then v else s.winRead k := by
  unfold State.winRead State.winWrite
  rw [State.setWin_win, Memory.find_put]
  by_cases h : k = a <;> simp [h]

/-- A write to BUF touches nothing else. -/
theorem State.bufWrite_frame (a : Nat) (v : Byte) :
    { s.bufWrite a v with buf := s.buf } = s := rfl

/-- A write to WIN touches nothing else. -/
theorem State.winWrite_frame (k : Nat) (v : Word64) :
    { s.winWrite k v with win := s.win } = s := rfl

/-- BUF reads depend on the written bytes and the launch alone. -/
theorem State.bufRead_congr {s t : State} (hb : t.buf = s.buf) (hl : t.launches = s.launches)
    (a : Nat) : t.bufRead a = s.bufRead a := by
  simp [State.bufRead, hb, hl]

/-- WIN reads depend on the written entries and the launch alone. -/
theorem State.winRead_congr {s t : State} (hw : t.win = s.win) (hl : t.launches = s.launches)
    (k : Nat) : t.winRead k = s.winRead k := by
  simp [State.winRead, hw, hl]

end Spaces

end Sys2Proof.Machine
end

