-- ==== Sys2Proof/Laws/Ops.lean ====
section
/-! SUPPORT. One lemma per shared operation that says once everything it can do: the checks, the error
entry, the draw, filling a window, deriving a byte, the loop of a transform. -/

namespace Sys2Proof.Machine

open Sys2Proof

/-! ### Cells -/

@[simp] theorem Eight.get_tabulate {α : Type} (f : Fin 8 → α) (i : Fin 8) :
    Eight.get (Eight.tabulate f) i = f i := by
  fin_cases i <;> rfl

@[simp] theorem Eight.get_fill {α : Type} (a : α) (i : Fin 8) : Eight.get (Eight.fill a) i = a := by
  fin_cases i <;> rfl

theorem byteOfBits_getLsbD (f : Fin 8 → Bool) (i : Fin 8) :
    (byteOfBits f).getLsbD i.val = f i := by
  unfold byteOfBits
  rw [BitVec.getLsbD_setWidth]
  simp only [BitVec.getLsbD_append, BitVec.getLsbD_ofBool]
  fin_cases i <;> simp

/-! ### Error entry and the checks -/

theorem raise_eq_withError (e : ErrCode) (i : Nat) (s : State) :
    raise e i s = s.withError e (BitVec.ofNat 16 i) := rfl

@[simp] theorem raise_err (e : ErrCode) (i : Nat) (s : State) : (raise e i s).err = e := rfl

@[simp] theorem raise_erridx (e : ErrCode) (i : Nat) (s : State) :
    (raise e i s).erridx = BitVec.ofNat 16 i := rfl

/-- Everything a command's checks can end in (R71, R127). -/
theorem command_cases (legal inBounds genReady : Bool) (body : State → State) (s : State) :
    (s.err ≠ .ok ∧ command legal inBounds genReady body s = s) ∨
    (s.err = .ok ∧ legal = false ∧
      command legal inBounds genReady body s = raise .illegal 0 s) ∨
    (s.err = .ok ∧ legal = true ∧ inBounds = false ∧
      command legal inBounds genReady body s = raise .bounds 0 s) ∨
    (s.err = .ok ∧ legal = true ∧ inBounds = true ∧ genReady = false ∧
      command legal inBounds genReady body s = raise .badGen 0 s) ∨
    (s.err = .ok ∧ legal = true ∧ inBounds = true ∧ genReady = true ∧
      command legal inBounds genReady body s = body s) := by
  by_cases h : s.err = .ok
  · cases legal <;> cases inBounds <;> cases genReady <;> simp [command, h]
  · exact Or.inl ⟨h, by simp [command, h]⟩

/-- A command that passes its checks does its own rule. -/
theorem command_ready {body : State → State} {s : State} (h : s.err = .ok) :
    command true true true body s = body s := by simp [command, h]

/-- A command is refused while ERR is non-zero (R130). -/
theorem command_refused {legal inBounds genReady : Bool} {body : State → State} {s : State}
    (h : s.err ≠ .ok) : command legal inBounds genReady body s = s := by simp [command, h]

/-! ### Draws -/

/-- A draw writes GVAL and nothing else (R75). -/
theorem draw_frame (s : State) : (draw s).2 = { s with gval := (draw s).1 } := rfl

theorem drawF_snd (s : State) : (drawF s).2 = (draw s).2 := rfl

/-- A run of draws writes GVAL and nothing else. -/
theorem drawTimes_frame (k : Nat) (s : State) :
    drawTimes k s = { s with gval := (drawTimes k s).gval } := by
  induction k generalizing s with
  | zero => rfl
  | succ n ih => rw [drawTimes, ih]; rfl

theorem drawTimes_succ (k : Nat) (s : State) :
    drawTimes (k + 1) s = (draw (drawTimes k s)).2 := by
  induction k generalizing s with
  | zero => rfl
  | succ n ih => rw [drawTimes, ih]; rfl

theorem drawTimes_add (j k : Nat) (s : State) :
    drawTimes (j + k) s = drawTimes k (drawTimes j s) := by
  induction j generalizing s with
  | zero => simp [drawTimes]
  | succ n ih => rw [Nat.succ_add, drawTimes, drawTimes, ih]

/-- Two states with the same generator make the same next draw (R85). -/
theorem draw_congr {s t : State} (hv : s.gvar = t.gvar) (hn : s.gn = t.gn) (hg : s.gval = t.gval)
    (hp : s.gpar = t.gpar) : (draw s).1 = (draw t).1 := by
  simp [draw, hv, hn, hg, hp]

/-- Two states with the same generator go through the same values (R85). -/
theorem drawTimes_congr {s t : State} (hv : s.gvar = t.gvar) (hn : s.gn = t.gn)
    (hg : s.gval = t.gval) (hp : s.gpar = t.gpar) (k : Nat) :
    (drawTimes k s).gval = (drawTimes k t).gval := by
  induction k generalizing s t with
  | zero => exact hg
  | succ n ih => exact ih hv hn (draw_congr hv hn hg hp) hp

/-- Draws do not look at anything but the generator, so they can be counted in either state. -/
theorem drawnFloat_congr {s t : State} (hv : s.gvar = t.gvar) (hn : s.gn = t.gn)
    (hg : s.gval = t.gval) (hp : s.gpar = t.gpar) (m : Nat) : drawnFloat s m = drawnFloat t m := by
  have h := drawTimes_congr hv hn hg hp m
  simp only [drawnFloat, drawF, draw]
  rw [drawTimes_frame m s, drawTimes_frame m t]
  simp [hv, hn, hp, h]

/-! ### Windows -/

/-- Filling a window (R95, R100): `count` draws, in order, into the entries from `j` up; every other
entry and everything but GVAL and WIN as before. -/
theorem fillFrom_spec (count j : Nat) (s : State) :
    (∀ k, (fillFrom count j s).winRead k =
      if j ≤ k ∧ k < j + count then drawnFloat s (k - j) else s.winRead k) ∧
    fillFrom count j s =
      { s with win := (fillFrom count j s).win, gval := (drawTimes count s).gval } := by
  induction count generalizing j s with
  | zero =>
    refine ⟨fun k => ?_, rfl⟩
    have : ¬ (j ≤ k ∧ k < j + 0) := by omega
    rw [if_neg this]; rfl
  | succ n ih =>
    obtain ⟨hr, hf⟩ := ih (j + 1) ((drawF s).2.winWrite j (drawF s).1)
    refine ⟨fun k => ?_, ?_⟩
    · rw [fillFrom, hr]
      by_cases h1 : j + 1 ≤ k ∧ k < j + 1 + n
      · rw [if_pos h1, if_pos (by omega)]
        have hk : k - j = (k - (j + 1)) + 1 := by omega
        rw [hk]
        unfold drawnFloat
        rw [drawTimes]
        exact drawnFloat_congr (s := (drawF s).2.winWrite j (drawF s).1) (t := (draw s).2)
          rfl rfl rfl rfl (k - (j + 1))
      · rw [if_neg h1, State.winRead_winWrite]
        by_cases h2 : k = j
        · subst h2
          rw [if_pos rfl, if_pos (by omega)]
          simp [drawnFloat, drawTimes]
        · rw [if_neg h2, if_neg (by omega)]
          rfl
    · rw [fillFrom, hf]
      have : (drawTimes n ((drawF s).2.winWrite j (drawF s).1)).gval =
          (drawTimes (n + 1) s).gval :=
        drawTimes_congr (s := (drawF s).2.winWrite j (drawF s).1) (t := (draw s).2)
          rfl rfl rfl rfl n
      rw [this]
      rfl

/-- Materialising a window (R95, R100). -/
theorem materialize_spec (len : Nat) (s : State) :
    (∀ k, (materialize len s).winRead k = if k < len then drawnFloat s k else s.winRead k) ∧
    materialize len s =
      { s with
        win := (materialize len s).win, wlen := BitVec.ofNat 16 len,
        gval := (drawTimes len s).gval } := by
  obtain ⟨hr, hf⟩ := fillFrom_spec len 0 s
  refine ⟨fun k => ?_, ?_⟩
  · have : (materialize len s).winRead k = (fillFrom len 0 s).winRead k := rfl
    rw [this, hr]
    by_cases h : k < len
    · rw [if_pos (by omega), if_pos h, Nat.sub_zero]
    · rw [if_neg (by omega), if_neg h]
  · unfold materialize
    rw [hf]
    rfl

/-- The window a materialisation leaves is the list of its draws, for a length WLEN can hold. -/
theorem materialize_window (len : Nat) (h : len < 2 ^ 16) (s : State) :
    (materialize len s).window = drawnWindow s 0 len := by
  obtain ⟨hr, hf⟩ := materialize_spec len s
  have hw : (materialize len s).wlen.toNat = len := by
    rw [hf]; simp only [BitVec.toNat_ofNat]; omega
  unfold State.window drawnWindow
  rw [hw]
  apply List.map_congr_left
  intro k hk
  rw [hr, if_pos (List.mem_range.mp hk), Nat.zero_add]

/-! ### Derivations and the loop -/

/-- Everything `deriveMantissa` can end in (R89). -/
theorem deriveMantissa_cases (i : Nat) (s : State) :
    (∃ p, F64.toF32 (drawF s).1 = some p ∧ deriveMantissa i s = .byte (extract p) (draw s).2) ∨
    (F64.toF32 (drawF s).1 = none ∧ deriveMantissa i s = .raised .f32Range i (draw s).2) := by
  cases h : F64.toF32 (drawF s).1 with
  | none => exact Or.inr ⟨rfl, by simp [deriveMantissa, h, drawF_snd]⟩
  | some p => exact Or.inl ⟨p, rfl, by simp [deriveMantissa, h, drawF_snd]⟩

/-- Everything `deriveWindow` can end in (R100). -/
theorem deriveWindow_cases (i len : Nat) (s : State) :
    (∃ k, normalize (materialize len s).window ((materialize len s).winRead i) = some k ∧
      deriveWindow i len s = .byte k (materialize len s)) ∨
    (normalize (materialize len s).window ((materialize len s).winRead i) = none ∧
      deriveWindow i len s = .raised .divZero i (materialize len s)) := by
  cases h : normalize (materialize len s).window ((materialize len s).winRead i) with
  | none => exact Or.inr ⟨rfl, by simp [deriveWindow, windowTarget, h]⟩
  | some k => exact Or.inl ⟨k, rfl, by simp [deriveWindow, windowTarget, h]⟩

/-- The loop of a transform, packaged as an induction (R57, R129). `P i s` says where the loop stands before
byte `i`; it holds at the start, each byte that derives carries it on, and `Q` holds where the loop ends: by
completing `total` bytes, or by an error at a byte below `total`. -/
theorem transformFrom_induction {derive : Nat → State → Derived}
    {apply : Nat → Byte → State → State} {total : Nat} (P : Nat → State → Prop) (Q : State → Prop)
    (hbyte : ∀ i k s t, i < total → P i s → derive i s = .byte k t → P (i + 1) (apply i k t))
    (hraise : ∀ i e j s t, i < total → P i s → derive i s = .raised e j t → Q (raise e j t))
    (hdone : ∀ t, P total t → Q t) (count i : Nat) (s : State) (htotal : i + count = total)
    (h : P i s) : Q (transformFrom derive apply count i s) := by
  induction count generalizing i s with
  | zero =>
    obtain rfl : i = total := by omega
    exact hdone s h
  | succ n ih =>
    unfold transformFrom
    cases hd : derive i s with
    | byte k t => exact ih (i + 1) (apply i k t) (by omega) (hbyte i k s t (by omega) h hd)
    | raised e j t => exact hraise i e j s t (by omega) h hd

/-- `Reseed` writes W and B and nothing else (R107). -/
theorem reseed_spec (k : Byte) (s : State) :
    (∀ i j, Eight.get (Eight.get (reseed k s).w i) j = reseedWeight k i j) ∧
    (∀ i, Eight.get (reseed k s).b i = reseedBias k i) ∧
    { reseed k s with w := s.w, b := s.b } = s := by
  refine ⟨fun i j => ?_, fun i => ?_, rfl⟩ <;> simp [reseed]

/-- Output bit `i` of `Evaluate` (R108). -/
theorem evaluate_getLsbD (w : Eight (Eight Weight)) (b : Eight Bias) (x : Byte) (i : Fin 8) :
    (evaluate w b x).getLsbD i.val = outputBit w b x i := byteOfBits_getLsbD _ i

/-- Each byte of XTR's loop touches BUF and nothing else. -/
theorem applyXor_spec (i : Nat) (k : Byte) (s : State) :
    (∀ a, (applyXor i k s).bufRead a = if a = i then s.bufRead i ^^^ k else s.bufRead a) ∧
    { applyXor i k s with buf := s.buf } = s :=
  ⟨fun a => State.bufRead_bufWrite s i a _, rfl⟩

/-- Each byte of PTR's loop touches BUF, W and B and nothing else. -/
theorem applyPerceptron_spec (i : Nat) (k : Byte) (s : State) :
    (∀ a, (applyPerceptron i k s).bufRead a =
      if a = i then evaluate (reseed k s).w (reseed k s).b (s.bufRead i) else s.bufRead a) ∧
    { applyPerceptron i k s with buf := s.buf, w := s.w, b := s.b } = s :=
  ⟨fun a => State.bufRead_bufWrite (reseed k s) i a _, rfl⟩

end Sys2Proof.Machine
end

