-- ==== Sys2Proof/Laws/PerInstr.lean ====
section
/-! SUPPORT. Statements for all commands, made command by command. -/

namespace Sys2Proof.Laws.EncodedOpcode

open Sys2Proof

/-- The top byte of a command's word is its opcode (30_encoding.md R59, R68). -/
def Statement (i : Instr) : Prop := opField (encode i) = i.opcode

theorem clre : Statement .clre := encodeZ_op _
theorem gnewi (n : BitVec 6) : Statement (.gnewi n) := encodeN_op _ _
theorem gnewl : Statement .gnewl := encodeZ_op _
theorem gnext : Statement .gnext := encodeZ_op _
theorem ggetv : Statement .ggetv := encodeZ_op _
theorem gsetv : Statement .gsetv := encodeZ_op _
theorem ggetp : Statement .ggetp := encodeZ_op _
theorem gsetp : Statement .gsetp := encodeZ_op _
theorem mext : Statement .mext := encodeZ_op _
theorem wsetl (k : BitVec 16) : Statement (.wsetl k) := encodeK_op _ _
theorem wwr (k : BitVec 16) : Statement (.wwr k) := encodeK_op _ _
theorem wrd (k : BitVec 16) : Statement (.wrd k) := encodeK_op _ _
theorem wfill (k : BitVec 16) : Statement (.wfill k) := encodeK_op _ _
theorem wnorm (k : BitVec 16) : Statement (.wnorm k) := encodeK_op _ _
theorem wnormv : Statement .wnormv := encodeZ_op _
theorem preseed : Statement .preseed := encodeZ_op _
theorem peval : Statement .peval := encodeZ_op _
theorem prdw (row : BitVec 3) : Statement (.prdw row) := encodeR_op _ _
theorem prdb : Statement .prdb := encodeZ_op _
theorem bwr (addr : BitVec 16) (imm8 : Byte) : Statement (.bwr addr imm8) := encodeB_op _ _ _
theorem brd (k : BitVec 16) : Statement (.brd k) := encodeK_op _ _
theorem xtr (mode : Mode) (len : BitVec 16) : Statement (.xtr mode len) := encodeT_op _ _ _
theorem ptr (mode : Mode) (len : BitVec 16) : Statement (.ptr mode len) := encodeT_op _ _ _

end Sys2Proof.Laws.EncodedOpcode
end

