-- ==== Sys2Proof/Machine/Assembler.lean ====
section
/-! DEFINITION. The directives and pseudo-instructions of the assembly notation (30_encoding.md R72, R73)
as the host accesses they stand for. -/

namespace Sys2Proof.Machine

open Sys2Proof

/-- A command line: the command's word written to CMD (R72). -/
def asmCommand (i : Instr) : HostAccess := .writeCmd (encode i)

/-- `.data v` (R72). -/
def asmData (v : Word64) : HostAccess := .writeData v

/-- `.dataf d` for the number `± n / d` (R72): the binary64 pattern nearest it, ties to even. A number beyond
the finite range is the infinity of its sign. DESIGN CHOICE, log 16. -/
def asmDataf (neg : Bool) (n d : Nat) : HostAccess :=
  .writeData (F64.ofRatio neg (n * F64.one) d)

/-- `GNEWI` without operand is `GNEWI 8` (R73). -/
def asmGnewiDefault : List HostAccess := [asmCommand (.gnewi 8)]

/-- `GNEWLP s, r` (R73), the two numbers given as patterns. -/
def asmGnewlp (seed coefficient : Word64) : List HostAccess :=
  [asmData seed, asmCommand .gnewl, asmData coefficient, asmCommand .gsetp]

/-- `GRESET v` (R73). -/
def asmGreset (v : Word64) : List HostAccess := [asmData v, asmCommand .gsetv]

/-- `LDB a, b0, b1, ..., bk` (R73). R73 is silent on addresses above 65535, which no word of BWR can hold: the
address is taken modulo 65536. DESIGN CHOICE, log 16. -/
def asmLdb (a : BitVec 16) (bytes : List Byte) : List HostAccess :=
  match bytes with
  | [] => []
  | x :: rest => asmCommand (.bwr a x) :: asmLdb (a + 1) rest

end Sys2Proof.Machine
end

