-- ==== Sys2Proof/Tests/Slice0.lean ====
section
/-! SUPPORT. The model's own tests: well-formedness, decoding of words written out from the formats of
30_encoding.md, one step of each command with results from 95_test_vectors.md, and a witness for the
hypotheses of each obligation. -/

namespace Sys2Proof.Tests

open Sys2Proof Sys2Proof.Machine

/-! ### Small states -/

/-- The state an outcome holds. -/
def after (o : Host.Outcome State Fault Refusal) : State :=
  match o with
  | .next t => t
  | .fault _ => State.reset
  | .refused _ => State.reset

/-- An integer generator, with the value in GVAL and in DATA. -/
def intGen (n : BitVec 6) (v : Word64) : State :=
  { State.reset with data := v, gv := true, gn := n, gval := v }

/-- A logistic generator with the default coefficient, the value in GVAL and in DATA. -/
def logGen (v : Word64) : State :=
  { State.reset with data := v, gv := true, gvar := .log, gval := v, gpar := 0x400FC28F5C28F5C3 }

/-- The window entries from `k` on. -/
def entriesFrom (k : Nat) (l : List Word64) : Memory Word64 :=
  match l with
  | [] => []
  | x :: rest => (k, x) :: entriesFrom (k + 1) rest

/-- A window, its length in WLEN. -/
def withWindow (l : List Word64) (s : State) : State :=
  { s with win := entriesFrom 0 l, wlen := BitVec.ofNat 16 l.length }

/-- The buffer bytes from `a` on. -/
def bytesFrom (a : Nat) (l : List Byte) : List Host.Cell :=
  match l with
  | [] => []
  | x :: rest => (a, x) :: bytesFrom (a + 1) rest

/-- Bytes at the start of BUF. -/
def withBytes (l : List Byte) (s : State) : State := { s with buf := bytesFrom 0 l }

/-- A pending error. -/
def withErr (e : ErrCode) (i : BitVec 16) (s : State) : State := { s with err := e, erridx := i }

/-- One host access pending. -/
def pending (a : HostAccess) (s : State) : State := { s with inputs := [a] }

/-- DATA after a command. -/
def dataAfter (i : Instr) (s : State) : Word64 := (after (exec i s)).data

/-! ### Well-formed terms -/

theorem test_wf_refuses_exponent_zero : (Instr.gnewi 0).wf = false := by decide
theorem test_wf_refuses_exponent_33 : (Instr.gnewi 33).wf = false := by decide
theorem test_wf_refuses_exponent_63 : (Instr.gnewi 63).wf = false := by decide
theorem test_wf_refuses_raw_perceptron : (Instr.ptr .rawCast 1).wf = false := by decide
theorem test_wf_accepts_extremes :
    (Instr.gnewi 1).wf = true ∧ (Instr.gnewi 32).wf = true ∧
    (Instr.ptr .mantissaByte 0xFFFF).wf = true ∧ (Instr.xtr .rawCast 0).wf = true := by decide

/-! ### Decoding: op in bits 31:24, then the format's fields, most significant bit first -/

theorem test_decode_format_Z :
    decode 0b00000001000000000000000000000000 = .ok .clre ∧
    decode 0b00010001000000000000000000000000 = .ok .gnewl ∧
    decode 0b00010010000000000000000000000000 = .ok .gnext ∧
    decode 0b00010011000000000000000000000000 = .ok .ggetv ∧
    decode 0b00010100000000000000000000000000 = .ok .gsetv ∧
    decode 0b00010101000000000000000000000000 = .ok .ggetp ∧
    decode 0b00010110000000000000000000000000 = .ok .gsetp ∧
    decode 0b00100000000000000000000000000000 = .ok .mext ∧
    decode 0b00101101000000000000000000000000 = .ok .wnormv ∧
    decode 0b00110000000000000000000000000000 = .ok .preseed ∧
    decode 0b00110001000000000000000000000000 = .ok .peval ∧
    decode 0b00110011000000000000000000000000 = .ok .prdb := by decide

theorem test_decode_format_K :
    decode 0b00101000000000001000000000000001 = .ok (.wsetl 0x8001) ∧
    decode 0b00101001000000000000000000000010 = .ok (.wwr 2) ∧
    decode 0b00101010000000001111111111111111 = .ok (.wrd 0xFFFF) ∧
    decode 0b00101011000000000000000000001000 = .ok (.wfill 8) ∧
    decode 0b00101100000000000000000100000000 = .ok (.wnorm 256) ∧
    decode 0b01000001000000000000000000001100 = .ok (.brd 12) := by decide

theorem test_decode_formats_BTNR :
    decode 0b01000000111011100000111111111111 = .ok (.bwr 4095 0xEE) ∧
    decode 0b01010000000000000000000000001101 = .ok (.xtr .rawCast 13) ∧
    decode 0b01010000000000010000000000000011 = .ok (.xtr .mantissaByte 3) ∧
    decode 0b01010000000000101000000000000000 = .ok (.xtr .windowNormalized 0x8000) ∧
    decode 0b01010001000000010000000000000011 = .ok (.ptr .mantissaByte 3) ∧
    decode 0b01010001000000100000000000000011 = .ok (.ptr .windowNormalized 3) ∧
    decode 0b00010000000000000000000000100000 = .ok (.gnewi 32) ∧
    decode 0b00110010000000000000000000000110 = .ok (.prdw 6) := by decide

/-- V23, V31, V41, V50, V55, V58 to V61: one word for each reason, and the edges. -/
theorem test_decode_rejects_by_name :
    decode 0x00000000 = .error .unassignedOpcode ∧ decode 0xFFFFFFFF = .error .unassignedOpcode ∧
    decode 0x01000001 = .error .mustBeZero ∧ decode 0x20000001 = .error .mustBeZero ∧
    decode 0x2C010000 = .error .mustBeZero ∧ decode 0x41010000 = .error .mustBeZero ∧
    decode 0x50040005 = .error .mustBeZero ∧ decode 0x10000048 = .error .mustBeZero ∧
    decode 0x32000008 = .error .mustBeZero ∧
    decode 0x10000000 = .error .exponentOutOfRange ∧
    decode 0x10000021 = .error .exponentOutOfRange ∧
    decode 0x50030005 = .error .reservedMode ∧ decode 0x51030003 = .error .reservedMode ∧
    decode 0x51000003 = .error .rawPerceptron := by decide

/-- R68: the words of the examples in 95_test_vectors.md, part 3. -/
theorem test_encode_words :
    encode (.bwr 12 0x21) = 0x4021000C ∧ encode (.xtr .windowNormalized 3) = 0x50020003 ∧
    encode (.gnewi 32) = 0x10000020 ∧ encode (.prdw 6) = 0x32000006 ∧
    encode (.wsetl 3) = 0x28000003 ∧ encode .clre = 0x01000000 := by decide

theorem test_table_word_runs_first :
    decodeTableWord 32 0x28000003 = some (.wsetl 3) ∧ decodeTableWord 32 0 = none ∧
    (after (step (State.reset.withFetchWord 32 0x28000003))).wlen = 3 := by decide

/-- R72, R73: the pseudo-instructions as words, and `.dataf` on 0.5 and 3.97. -/
theorem test_pseudo_instructions :
    asmGnewiDefault = [.writeCmd 0x10000008] ∧
    asmGnewlp 1 2 = [.writeData 1, .writeCmd 0x11000000, .writeData 2, .writeCmd 0x16000000] ∧
    asmGreset 5 = [.writeData 5, .writeCmd 0x14000000] ∧
    asmLdb 7 [0x48, 0x65] = [.writeCmd 0x40480007, .writeCmd 0x40650008] := by decide
theorem test_dataf :
    asmDataf false 1 2 = .writeData 0x3FE0000000000000 ∧
    asmDataf false 397 100 = .writeData 0x400FC28F5C28F5C3 := by decide +kernel

/-! ### Floating primitives -/

/-- V17 draw 1 in steps, V22, V37. -/
theorem test_arithmetic :
    F64.mul 0x3FE0000000000000 0x400FC28F5C28F5C3 = 0x3FFFC28F5C28F5C3 ∧
    F64.sub 0x3FF0000000000000 0x7FF0000000000000 = 0xFFF0000000000000 ∧
    F64.div 0x4047000000000000 0x4066E00000000000 = 0x3FD01661EC6A5123 ∧
    F64.mul 0 0x7FF0000000000000 = 0x7FF8000000000000 ∧
    F64.eq 0x8000000000000000 0 = true := by decide +kernel

/-- V28, V29, V30: the overflow threshold, a subnormal, a tie below the least one, a tie above 2^24. -/
theorem test_to_binary32 :
    F64.toF32 0x47EFFFFFF0000000 = none ∧ F64.toF32 0x47EFFFFFEFFFFFFF = some 0x7F7FFFFF ∧
    F64.toF32 0x37A16C262777579C = some 0x000116C2 ∧ F64.toF32 0x3690000000000000 = some 0 ∧
    F64.toF32 0xB66244CE242C5561 = some 0x80000000 ∧
    F64.toF32 0x4170000030000000 = some 0x4B800002 := by decide +kernel

/-- V19: the narrowing of negative and of very large values; V10 through `I2F` (V27). -/
theorem test_narrowing_and_image :
    F64.toByte 0xC01FC28F5C28F5C3 = 249 ∧ F64.toByte 0xC0719CE0D66F0CFF = 231 ∧
    F64.toByte 0xC9F116498961EDFA = 0 ∧ F64.toByte 0xFFF0000000000000 = 0 ∧
    F64.toF32 (F64.ofNat 808005305) = some 0x4E40A4BB := by decide +kernel

/-! ### The generator -/

/-- V23: the seed is DATA[31:0], STATUS afterwards is 0x210. -/
theorem test_gnewi :
    (after (exec (.gnewi 8) { logGen 0 with data := 0xAAAAAAAA00000005 })).status = 0x210 ∧
    (after (exec (.gnewi 8) { logGen 0 with data := 0xAAAAAAAA00000005 })).gval = 5 ∧
    (after (exec (.gnewi 8) (logGen 0))).gpar = 0 := by decide

/-- V23. -/
theorem test_gnewl :
    (after (exec .gnewl { State.reset with data := 0x3FE0000000000000 })).status = 0x30 ∧
    (after (exec .gnewl (intGen 8 5))).gpar = 0x400FC28F5C28F5C3 := by decide

/-- V3, V6, V9, V10, V12: coercion before the increment, the exact 64-bit product. -/
theorem test_gnext_int :
    dataAfter .gnext (intGen 8 255) = 2 ∧ dataAfter .gnext (intGen 1 5) = 2 ∧
    dataAfter .gnext (intGen 32 0xFFFFFFFF) = 2 ∧
    dataAfter .gnext (intGen 32 0x12345678) = 0x30292EB9 ∧
    (after (exec .gnext (intGen 8 300))).gval = 189 := by decide

/-- V17 draws 1 and 2, V20, V22. -/
theorem test_gnext_log :
    dataAfter .gnext (logGen 0x3FE0000000000000) = 0x3FEFC28F5C28F5C3 ∧
    dataAfter .gnext (logGen 0x3FEFC28F5C28F5C3) = 0x3F9E42CC2D6A9C1F ∧
    dataAfter .gnext (logGen 0x8000000000000000) = 0x8000000000000000 ∧
    dataAfter .gnext (logGen 0x7FF0000000000001) = 0x7FF8000000000000 := by decide +kernel

/-- V23: GSETV ignores the upper half under INT. -/
theorem test_ggetv_gsetv :
    dataAfter .ggetv { intGen 8 7 with data := 0 } = 7 ∧
    (after (exec .gsetv { intGen 32 1 with data := 0xAAAAAAAA00000007 })).gval = 7 ∧
    (after (exec .gsetv { logGen 1 with data := 0xAAAAAAAA00000007 })).gval = 0xAAAAAAAA00000007 := by
  decide

/-- V21 and V23: the coefficient of the logistic variant only. -/
theorem test_ggetp_gsetp :
    (after (exec .gsetp { logGen 0x3FE0000000000000 with data := 0x400C000000000000 })).gpar =
      0x400C000000000000 ∧
    dataAfter .ggetp (logGen 9) = 0x400FC28F5C28F5C3 ∧
    (after (exec .ggetp (intGen 8 1))).status = 0x215 := by decide

/-! ### The extractor and the quantiser -/

/-- S1, V24, V25: all bits above the low byte are ignored. -/
theorem test_mext :
    dataAfter .mext { State.reset with data := 0x3F800000 } = 0 ∧
    dataAfter .mext { State.reset with data := 0x3DCCCCCD } = 0xCD ∧
    dataAfter .mext { State.reset with data := 0xDEADBEEF3F8000AB } = 0xAB := by decide

/-- V41 with `BUFCAP = 4096`: WCAP is a legal length, WCAP + 1 is not. -/
theorem test_wsetl :
    (after (exec (.wsetl 4096) State.reset)).wlen = 4096 ∧
    (after (exec (.wsetl 4097) State.reset)) = withErr .bounds 0 State.reset := by decide

/-- V41: index WCAP raises BOUNDS; an index beyond WLEN does not. -/
theorem test_wwr_wrd :
    (after (exec (.wwr 4095) { State.reset with data := 9 })).win = [(4095, 9)] ∧
    (after (exec (.wwr 4096) State.reset)).err = .bounds ∧
    dataAfter (.wrd 1) (withWindow [4, 6] State.reset) = 6 ∧
    (after (exec (.wrd 5) (withWindow [4, 6] State.reset))).err = .ok := by decide

/-- V41: two draws, as binary64 entries, and WLEN. -/
theorem test_wfill :
    (after (exec (.wfill 2) (intGen 8 1))).win =
      [(0, 0x4008000000000000), (1, 0x402A000000000000)] ∧
    (after (exec (.wfill 2) (intGen 8 1))).wlen = 2 ∧
    (after (exec (.wfill 2) (intGen 8 1))).gval = 13 ∧
    (after (exec (.wfill 0) State.reset)).err = .badGen := by decide +kernel

/-- V32, V34, V35, V37. -/
theorem test_wnorm :
    dataAfter (.wnorm 1)
      (withWindow [0x3FF0000000000000, 0x4000000000000000, 0x4010000000000000] State.reset) = 63 ∧
    dataAfter (.wnorm 1) (withWindow [0xBFF0000000000000, 0x3FE0000000000000] State.reset) = 253 ∧
    dataAfter (.wnorm 1) (withWindow [0xC010000000000000, 0xC000000000000000] State.reset) = 255 ∧
    (after (exec (.wnorm 1) (withWindow [0x8000000000000000, 0] State.reset))).aux = 0x00020001 := by
  decide +kernel

/-- V38, V40, V41. -/
theorem test_wnormv :
    dataAfter .wnormv { withWindow [0x3FF0000000000000, 0x4000000000000000, 0x4010000000000000]
      State.reset with data := 0xC059000000000000 } = 38 ∧
    dataAfter .wnormv { withWindow [0x7FF8000000000000, 0x3FF0000000000000]
      State.reset with data := 0x3FF0000000000000 } = 0 ∧
    (after (exec .wnormv State.reset)).status = 6 := by decide +kernel

/-! ### The perceptron -/

/-- V52, V55 for seed 0xA5. -/
theorem test_preseed_and_readback :
    dataAfter (.prdw 5) (reseed 0xA5 State.reset) = 0x0C00 ∧
    dataAfter (.prdw 1) (after (exec .preseed { State.reset with data := 0xA5 })) = 0x0004 ∧
    dataAfter .prdb (after (exec .preseed { State.reset with data := 0x12A5 })) = 0xA5 ∧
    dataAfter (.prdw 7) State.reset = 0 ∧ dataAfter .prdb State.reset = 0 := by decide

/-- V53, V54. -/
theorem test_peval :
    dataAfter .peval { reseed 0xA5 State.reset with data := 0x3C } = 0x99 ∧
    dataAfter .peval { reseed 0xFF State.reset with data := 0xC03C } = 0xC3 ∧
    dataAfter .peval { State.reset with data := 0x3C } = 0 := by decide

/-- V56: the XOR engine's bytes, and the last seed in the biases. -/
theorem test_ptr_mantissa :
    (after (exec (.ptr .mantissaByte 3)
      (withBytes [0x48, 0x69, 0x21] (logGen 0x3FE0000000000000)))).buf =
        [(0, 0x33), (1, 0x08), (2, 0xFD)] ∧
    biasBits (after (exec (.ptr .mantissaByte 3)
      (withBytes [0x48, 0x69, 0x21] (logGen 0x3FE0000000000000)))).b = 0xDC := by decide +kernel

/-- V57, V58. -/
theorem test_ptr_window :
    (after (exec (.ptr .windowNormalized 3)
      (withBytes [0x41, 0x42, 0x43] (logGen 0x3FE0000000000000)))).buf =
        [(0, 0x7A), (1, 0x9C), (2, 0x43)] ∧
    after (exec (.ptr .mantissaByte 0) (intGen 8 1)) = intGen 8 1 := by decide +kernel

/-! ### The cipher engine -/

/-- V51 (first three bytes) and V49. -/
theorem test_xtr_raw :
    (after (exec (.xtr .rawCast 3) (withBytes [0xFF, 0xFF, 0xFF] (intGen 8 1)))).buf =
      [(0, 0xFC), (1, 0xF2), (2, 0x48)] ∧
    (after (exec (.xtr .rawCast 2) (withBytes [0, 0] (logGen 0x4000000000000000)))).buf =
      [(0, 0xF9), (1, 0xE7)] := by decide +kernel

/-- V48 and V45. -/
theorem test_xtr_mantissa_and_window :
    after (exec (.xtr .mantissaByte 8) (withBytes [0, 0, 0, 0, 0, 0, 0, 0] (logGen 0x4000000000000000)))
      = { withErr .f32Range 5
            (withBytes [0x7B, 0x07, 0x0B, 0x82, 0x90, 0, 0, 0] (logGen 0x4000000000000000)) with
          gval := 0xC9F116498961EDFA } ∧
    after (exec (.xtr .windowNormalized 2) (withBytes [0, 0] (intGen 8 1))) =
      { withWindow [0x406B600000000000, 0x404A800000000000] (withBytes [0x40, 0] (intGen 8 1)) with
        gval := 53 } := by decide +kernel

/-! ### Buffer, errors, ports -/

/-- V59. -/
theorem test_bwr_brd :
    (after (exec (.bwr 4095 0xEE) State.reset)).buf = [(4095, 0xEE)] ∧
    after (exec (.bwr 4096 0xEE) State.reset) = withErr .bounds 0 State.reset ∧
    dataAfter (.brd 1) (withBytes [5, 0x48] { State.reset with data := 0xFFFFFFFFFFFFFFFF }) = 0x48 ∧
    (after (exec (.brd 4096) State.reset)).err = .bounds := by decide

/-- V60: ERR goes, ERRIDX stays. -/
theorem test_clre :
    after (exec .clre (withErr .bounds 7 (intGen 8 1))) = withErr .ok 7 (intGen 8 1) := by decide

/-- V60: everything but the exact CLRE word is refused. -/
theorem test_error_state_refuses :
    after (step (pending (.writeCmd 0x40110000) (withErr .bounds 0 State.reset))) =
      withErr .bounds 0 State.reset ∧
    after (step (pending (.writeCmd 0x00000000) (withErr .bounds 0 State.reset))) =
      withErr .bounds 0 State.reset ∧
    after (step (pending (.writeData 9) (withErr .bounds 0 State.reset))) =
      { withErr .bounds 0 State.reset with data := 9 } := by decide

/-- V61: ILLEGAL before BOUNDS before BADGEN. -/
theorem test_order_of_checks :
    (after (step (pending (.writeCmd 0x5003FFFF) State.reset))).err = .illegal ∧
    (after (step (pending (.writeCmd 0x5001FFFF) State.reset))).err = .bounds ∧
    (after (step (pending (.writeCmd 0x50010010) State.reset))).err = .badGen := by decide

/-- V23: what the host reads of STATUS and AUX. -/
theorem test_port_reads :
    (after (step (pending .readStatus (intGen 32 1)))).reply = some 0x810 ∧
    (after (step (pending .readAux (withErr .divZero 1 (withWindow [0, 0] State.reset))))).reply =
      some 0x00020001 ∧
    (after (step (pending (.writeStatus 0xFFFFFFFF) (intGen 32 1)))).reply = some 0 := by decide

/-- R43, R139. -/
theorem test_reset_access :
    (after (step (pending .reset (withErr .bounds 7 (reseed 0xA5 (logGen 5)))))).status = 0 ∧
    (after (step (pending .reset (withErr .bounds 7 (reseed 0xA5 (logGen 5)))))).launches = 1 := by
  decide

/-! ### Witnesses: concrete states and operands that meet the hypotheses of each obligation

One conjunction for each clause of a statement, at the edge of its range where it has one. -/

/-- The hypothesis of a statement about a next state, for any command and state. -/
theorem exec_after (i : Instr) (s : State) : exec i s = .next (after (exec i s)) := by
  cases i <;> rfl

/-- CLRE's next state, for any state. -/
theorem clre_after (s : State) : exec .clre s = .next (clearError s) := rfl

/-- A state with an integer generator meets the invariant. -/
theorem intGen_inv : (intGen 32 0xFFFFFFFF).Inv := by
  constructor <;> decide

/-- A state with a logistic generator and a full-width value meets the invariant. -/
theorem logGen_inv : (logGen 0xFFF0000000000000).Inv := by
  constructor <;> decide

/-- A state without a generator meets the invariant. -/
theorem noGen_inv : (withErr .bounds 3 State.reset).Inv := by
  constructor <;> decide

theorem witness_DecodeInvertsEncode :
    (Instr.gnewi 1).wf = true ∧ (Instr.gnewi 32).wf = true ∧
    (Instr.ptr .windowNormalized 0xFFFF).wf = true := by decide

theorem witness_EncodeInvertsDecode :
    decode 0x51020003 = .ok (.ptr .windowNormalized 3) := by decide

/-- One word for each of the cases (a) to (e), at its edge. -/
theorem witness_IllegalWordsRaiseIllegal :
    (pending (.writeCmd 0x02000000) State.reset).inputs = .writeCmd 0x02000000 :: [] ∧
    (pending (.writeCmd 0x02000000) State.reset).err = .ok ∧ WordIllegal 0x02000000 ∧
    WordIllegal 0x01800000 ∧ WordIllegal 0x41010000 ∧ WordIllegal 0x50040000 ∧
    WordIllegal 0x10000041 ∧ WordIllegal 0x32000008 ∧ WordIllegal 0x10000000 ∧
    WordIllegal 0x10000021 ∧ WordIllegal 0x50030000 ∧ WordIllegal 0x51000000 := by
  refine ⟨by decide, by decide, ?_, ?_, ?_, ?_, ?_, ?_, ?_, ?_, ?_, ?_⟩ <;> unfold WordIllegal <;> decide

/-- The words next to those edges are legal. -/
theorem witness_IllegalWordsRaiseIllegal_not :
    ¬ WordIllegal 0x10000001 ∧ ¬ WordIllegal 0x10000020 ∧ ¬ WordIllegal 0x50020000 ∧
    ¬ WordIllegal 0x51010000 ∧ ¬ WordIllegal 0x32000007 := by
  refine ⟨?_, ?_, ?_, ?_, ?_⟩ <;> unfold WordIllegal <;> decide

theorem witness_StepRunsTheDecodedCommand :
    (pending (.writeCmd 0x12000000) (intGen 8 1)).inputs = .writeCmd 0x12000000 :: [] ∧
    decode 0x12000000 = .ok .gnext := by decide

theorem witness_IssueFollowsTheOrderOfChecks :
    (withErr .bounds 0 State.reset).err ≠ .ok ∧ State.reset.err = .ok ∧ WordIllegal 0 ∧
    decode 0x50001001 = .ok (.xtr .rawCast 4097) ∧ OutOfBounds (.xtr .rawCast 4097) State.reset ∧
    decode 0x50001000 = .ok (.xtr .rawCast 4096) ∧ ¬ OutOfBounds (.xtr .rawCast 4096) State.reset ∧
    LacksGenerator (.xtr .rawCast 4096) State.reset ∧
    ¬ OutOfBounds (.xtr .rawCast 4096) (intGen 1 0) ∧
    ¬ LacksGenerator (.xtr .rawCast 4096) (intGen 1 0) := by
  unfold WordIllegal; simp only [OutOfBounds, LacksGenerator]; decide

theorem witness_ErrorStateRefusesEveryOtherWord :
    (pending (.writeCmd 0x01000001) (withErr .illegal 0 State.reset)).err ≠ .ok ∧
    (0x01000001 : Word32) ≠ 0x01000000 ∧
    (pending .readStatus (withErr .illegal 0 State.reset)).inputs = .readStatus :: [] ∧
    (pending .readAux (withErr .illegal 0 State.reset)).inputs = .readAux :: [] ∧
    (pending .readData (withErr .illegal 0 State.reset)).inputs = .readData :: [] ∧
    (pending (.writeData 9) (withErr .illegal 0 State.reset)).inputs = .writeData 9 :: [] := by decide

theorem witness_ClreClearsTheErrorAndNothingElse :
    (pending (.writeCmd 0x01000001) State.reset).inputs = .writeCmd 0x01000001 :: [] ∧
    (0x01000001 : Word32).toNat / 2 ^ 24 = 1 ∧ (0x01000001 : Word32) ≠ 0x01000000 ∧
    (0x01800000 : Word32).toNat / 2 ^ 24 = 1 ∧ (0x01800000 : Word32) ≠ 0x01000000 ∧
    (withErr .divZero 1 State.reset).err ≠ .ok ∧ State.reset.err = .ok := by decide

theorem witness_PortsAnswerTheHost :
    (pending (.writeCmd 0) State.reset).inputs = .writeCmd 0 :: [] ∧
    (pending .readStatus State.reset).inputs = .readStatus :: [] ∧
    (pending .readAux State.reset).inputs = .readAux :: [] ∧
    (pending .readData State.reset).inputs = .readData :: [] ∧
    (pending (.writeData 1) State.reset).inputs = .writeData 1 :: [] ∧
    (pending .readCmd State.reset).inputs = .readCmd :: [] ∧
    (pending (.writeStatus 1) State.reset).inputs = .writeStatus 1 :: [] ∧
    (pending (.writeAux 1) State.reset).inputs = .writeAux 1 :: [] := by decide

theorem witness_StatusShowsErrAndTheGenerator :
    (withErr .bounds 3 State.reset).Inv ∧ (withErr .bounds 3 State.reset).gv = false ∧
    (logGen 0xFFF0000000000000).Inv ∧ (logGen 0xFFF0000000000000).gvar = .log ∧
    exec (.brd 1) (intGen 8 1) = .next (after (exec (.brd 1) (intGen 8 1))) ∧
    exec .clre (withErr .bounds 3 State.reset) = .next (withErr .ok 3 State.reset) ∧
    (withErr .ok 3 State.reset).err ≠ (withErr .bounds 3 State.reset).err :=
  ⟨noGen_inv, rfl, logGen_inv, rfl, exec_after _ _, rfl, by decide⟩

/-- Each clause on ERR has a state. -/
theorem witness_StatusShowsErrAndTheGenerator_codes (e : ErrCode) :
    (withErr e 0 State.reset).err = e := rfl

theorem witness_AuxShowsErridxAndWlen :
    exec (.xtr .rawCast 1) (withErr .ok 3 State.reset) =
      .next (withErr .badGen 0 State.reset) ∧
    (withErr .badGen 0 State.reset).erridx ≠ (withErr .ok 3 State.reset).erridx ∧
    exec .clre (withErr .bounds 3 State.reset) = .next (withErr .ok 3 State.reset) ∧
    exec (.wsetl 2) State.reset = .next { State.reset with wlen := 2 } ∧
    ({ State.reset with wlen := 2 } : State).wlen ≠ State.reset.wlen :=
  ⟨rfl, by decide, rfl, rfl, by decide⟩

theorem witness_ResetLeavesTheLaunchState :
    (pending .reset (withErr .bounds 3 (logGen 5))).inputs = .reset :: [] := by decide

theorem witness_EveryStepAnswersANextState : State.reset.inputs = [] := by decide

/-- A state of the invariant with bytes listed. -/
theorem witness_ResetSatisfiesTheInvariant : (withBytes [0x21, 0x22] State.reset).Inv := by
  constructor <;> decide

theorem witness_EveryStepKeepsTheInvariant :
    (intGen 32 0xFFFFFFFF).Inv ∧
    step (intGen 32 0xFFFFFFFF) = .next (intGen 32 0xFFFFFFFF) := ⟨intGen_inv, rfl⟩

/-- CLRE meets the premises of every clause; the clauses' own commands meet the others'. -/
theorem witness_CommandsWriteOnlyTheirOwnState :
    exec .clre (intGen 8 1) = .next (intGen 8 1) ∧ Instr.clre ≠ .gnewl ∧ Instr.clre ≠ .gnext ∧
    Instr.clre ≠ .gsetv ∧ Instr.clre ≠ .gsetp ∧ Instr.clre ≠ .preseed ∧
    (∀ n, Instr.clre ≠ .gnewi n) ∧ (∀ k, Instr.clre ≠ .wfill k) ∧ (∀ k, Instr.clre ≠ .wwr k) ∧
    (∀ a x, Instr.clre ≠ .bwr a x) ∧ (∀ m len, Instr.clre ≠ .xtr m len) ∧
    (∀ m len, Instr.clre ≠ .ptr m len) := by
  refine ⟨rfl, ?_⟩
  simp

theorem witness_DataIsWrittenOnlyByResults :
    exec (.brd 4096) State.reset = .next (withErr .bounds 0 State.reset) ∧
    (withErr .bounds 0 State.reset).err ≠ .ok ∧
    exec .gnext (intGen 8 1) = .next { intGen 8 3 with data := 3 } ∧
    ({ intGen 8 3 with data := 3 } : State).data ≠ (intGen 8 1).data := by
  refine ⟨rfl, by decide, rfl, by decide⟩

/-- Both sides of each bound: `BUFCAP` as a length and as an address, WLEN as an index. -/
theorem witness_OutOfRangeRaisesBounds :
    (Instr.brd 4096).wf = true ∧ State.reset.err = .ok ∧ OutOfBounds (.brd 4096) State.reset ∧
    ¬ OutOfBounds (.brd 4095) State.reset ∧ OutOfBounds (.wsetl 4097) State.reset ∧
    ¬ OutOfBounds (.wsetl 4096) State.reset ∧ OutOfBounds .wnormv State.reset ∧
    OutOfBounds (.wnorm 1) (withWindow [5] State.reset) ∧
    ¬ OutOfBounds (.wnorm 0) (withWindow [5] State.reset) ∧
    exec (.brd 4095) State.reset = .next (after (exec (.brd 4095) State.reset)) := by
  simp only [OutOfBounds]
  exact ⟨by decide, by decide, by decide, by decide, by decide, by decide, by decide, by decide,
    by decide, exec_after _ _⟩

theorem witness_MissingGeneratorRaisesBadgen :
    (Instr.wfill 0).wf = true ∧ State.reset.err = .ok ∧ ¬ OutOfBounds (.wfill 0) State.reset ∧
    LacksGenerator (.wfill 0) State.reset ∧
    (Instr.ggetp).wf = true ∧ ¬ OutOfBounds .ggetp (intGen 8 1) ∧
    LacksGenerator .ggetp (intGen 8 1) ∧ ¬ LacksGenerator .ggetp (logGen 1) ∧
    exec .ggetp (logGen 1) = .next (after (exec .ggetp (logGen 1))) := by
  simp only [OutOfBounds, LacksGenerator]
  exact ⟨by decide, by decide, by decide, by decide, by decide, by decide, by decide, by decide,
    exec_after _ _⟩

theorem witness_InvalidSeedIsNeverRaised :
    exec .clre State.reset = .next State.reset ∧
    exec .gnext (withErr .invalidSeed 0 State.reset) = .next (withErr .invalidSeed 0 State.reset) ∧
    (withErr .invalidSeed 0 State.reset).err = .invalidSeed ∧
    step (withErr .invalidSeed 0 State.reset) = .next (withErr .invalidSeed 0 State.reset) ∧
    (logGen 0).err = .ok ∧ (logGen 0).gv = true ∧ (logGen 0).gvar = .log ∧
    1 ≤ (32 : BitVec 6).toNat ∧ (32 : BitVec 6).toNat ≤ 32 := by
  refine ⟨rfl, rfl, rfl, rfl, ?_⟩
  decide

theorem witness_GnewiConstructsAnIntegerGenerator :
    State.reset.err = .ok ∧ 1 ≤ (1 : BitVec 6).toNat ∧ (32 : BitVec 6).toNat ≤ 32 ∧
    (0 : BitVec 6).toNat = 0 ∧ 32 < (33 : BitVec 6).toNat := by decide

theorem witness_GnewlConstructsALogisticGenerator : State.reset.err = .ok := by decide

theorem witness_GnextDrawsOnceAndReturnsTheValue :
    State.reset.err = .ok ∧ State.reset.gv = false ∧
    (intGen 8 255).err = .ok ∧ (intGen 8 255).gv = true ∧ (intGen 8 255).gvar = .int ∧
    255 = (intGen 8 255).gval.toNat % 2 ^ 32 ∧ 0 = 255 * (1 + 255) % 2 ^ (intGen 8 255).gn.toNat ∧
    (2 : Word64) = BitVec.ofNat 64 ((if 0 = 0 then 1 else 0) + 1) ∧
    (logGen 0x3FE0000000000000).gv = true ∧ (logGen 0x3FE0000000000000).gvar = .log ∧
    0x3FFFC28F5C28F5C3 = F64.mul (logGen 0x3FE0000000000000).gval (logGen 0x3FE0000000000000).gpar ∧
    0x3FE0000000000000 = F64.sub 0x3FF0000000000000 (logGen 0x3FE0000000000000).gval ∧
    0x3FEFC28F5C28F5C3 = F64.mul 0x3FFFC28F5C28F5C3 0x3FE0000000000000 := by decide +kernel

theorem witness_ValueAccessorsReadAndWriteGVAL :
    (intGen 32 0xFFFFFFFF).err = .ok ∧ (intGen 32 0xFFFFFFFF).gv = true ∧
    (intGen 32 0xFFFFFFFF).gvar = .int ∧ (intGen 32 0xFFFFFFFF).Inv ∧
    (logGen 1).err = .ok ∧ (logGen 1).gv = true ∧ (logGen 1).gvar = .log ∧
    State.reset.err = .ok ∧ State.reset.gv = false :=
  ⟨rfl, rfl, rfl, intGen_inv, rfl, rfl, rfl, rfl, rfl⟩

theorem witness_CoefficientAccessorsReadAndWriteGPAR :
    (logGen 1).err = .ok ∧ (logGen 1).gv = true ∧ (logGen 1).gvar = .log ∧
    State.reset.gv = false ∧ (intGen 8 1).gvar = .int := by decide

/-- The least and the greatest exponent. -/
theorem witness_IntegerDrawsStayInTheirRange :
    (intGen 1 5).gvar = .int ∧ 1 ≤ (intGen 1 5).gn.toNat ∧ (intGen 1 5).gn.toNat = 1 ∧
    (intGen 32 5).gvar = .int ∧ 1 ≤ (intGen 32 5).gn.toNat ∧ (intGen 32 5).gn.toNat ≤ 32 ∧
    13 = (drawTimes (1 + 1) (intGen 8 1)).gval ∧
    (intGen 32 5).err = .ok ∧ (intGen 32 5).gv = true ∧
    exec .gnext (intGen 32 5) = .next (after (exec .gnext (intGen 32 5))) :=
  ⟨rfl, by decide, rfl, rfl, by decide, by decide, by decide, rfl, rfl, exec_after _ _⟩

theorem witness_IntegerMapFacts : 1 ≤ (1 : Nat) ∧ 2 ≤ (2 : Nat) := by decide

theorem witness_DrawsDependOnTheGeneratorOnly :
    SameGenerator (intGen 8 1) (withBytes [1] (reseed 7 { intGen 8 1 with data := 9 })) ∧
    (intGen 8 1).gv = true ∧ (intGen 8 1).err = .ok ∧
    (withBytes [1] (reseed 7 { intGen 8 1 with data := 9 })).err = .ok ∧
    withBytes [1] (reseed 7 { intGen 8 1 with data := 9 }) ≠ intGen 8 1 := by
  unfold SameGenerator; decide

/-- The product rounds; the difference and the quotient are finite, the operands differ, the divisor is not a
zero; and another finite pattern to compare with. -/
theorem witness_ArithmeticRoundsToNearestEven :
    F64.isFinite 0x3FB999999999999A = true ∧ F64.isFinite 0x3FECCCCCCCCCCCCD = true ∧
    F64.isFinite 0 = true ∧ F64.isZero 0x3FECCCCCCCCCCCCD = false ∧
    F64.units 0x3FB999999999999A ≠ F64.units 0x3FECCCCCCCCCCCCD ∧
    F64.isFinite (F64.mul 0x3FB999999999999A 0x3FECCCCCCCCCCCCD) = true ∧
    F64.isFinite (F64.sub 0x3FB999999999999A 0x3FECCCCCCCCCCCCD) = true ∧
    F64.isFinite (F64.div 0x3FB999999999999A 0x3FECCCCCCCCCCCCD) = true ∧
    F64.mul 0x3FB999999999999A 0x3FECCCCCCCCCCCCD ≠ 0 := by decide +kernel

/-- Finite operands whose product, difference and quotient overflow; the difference, of the largest finite
value and `-2^970`, has exactly the magnitude of the bound. -/
theorem witness_ArithmeticRoundsToNearestEven_overflow :
    F64.isFinite 0x7FEFFFFFFFFFFFFF = true ∧ F64.isFinite 0xFC90000000000000 = true ∧
    F64.isFinite 0x0000000000000001 = true ∧ F64.isZero 0x0000000000000001 = false ∧
    F64.isFinite (F64.mul 0x7FEFFFFFFFFFFFFF 0xFC90000000000000) = false ∧
    F64.isFinite (F64.sub 0x7FEFFFFFFFFFFFFF 0xFC90000000000000) = false ∧
    |F64.units 0x7FEFFFFFFFFFFFFF - F64.units 0xFC90000000000000| = (F64.overflowBound : Int) ∧
    F64.isFinite (F64.div 0x7FEFFFFFFFFFFFFF 0x0000000000000001) = false := by decide +kernel

/-- Two operands whose quotient by 2 is equally near two patterns: the hypothesis of the tie clause. -/
theorem witness_ArithmeticRoundsToNearestEven_tie :
    |F64.units 3 * F64.one - F64.units (F64.div 3 0x4000000000000000) * F64.units 0x4000000000000000| =
      |F64.units 3 * F64.one - F64.units 1 * F64.units 0x4000000000000000| ∧
    (1 : Word64) ≠ F64.div 3 0x4000000000000000 ∧ F64.isFinite 1 = true ∧
    F64.isFinite 3 = true ∧ F64.isFinite 0x4000000000000000 = true := by decide +kernel

theorem witness_InvalidOperationsGiveTheCanonicalNaN :
    F64.isNaN 0x7FF0000000000001 = true ∧ F64.isInf 0xFFF0000000000000 = true ∧
    F64.isZero 0x8000000000000000 = true ∧ F64.isZero 0 = true ∧
    F64.sign 0xFFF0000000000000 = F64.sign 0xFFF0000000000000 := by decide

/-- Zeros reached by underflow, from operands of unlike signs that are not zeros. -/
theorem witness_ZerosAndInfinitiesFollowR18_underflow :
    F64.isZero (F64.mul 0x8000000000000001 0x3FE0000000000000) = true ∧
    F64.isZero (F64.div 0x8000000000000001 0x4000000000000000) = true ∧
    F64.isZero 0x8000000000000001 = false := by decide +kernel

theorem witness_ZerosAndInfinitiesFollowR18 :
    F64.isFinite 0x8000000000000000 = true ∧ F64.isZero 0x8000000000000000 = true ∧
    F64.isFinite 0x3FF0000000000000 = true ∧ F64.isZero 0x3FF0000000000000 = false ∧
    F64.isInf 0xFFF0000000000000 = true ∧ F64.isNaN 0x3FF0000000000000 = false ∧
    F64.isNaN 0x7FF0000000000000 = false ∧ F64.isZero 0x7FF0000000000000 = false := by decide

/-- R16 at the edges: a subnormal, the least and the largest normal exponent, an infinity, a NaN. -/
theorem witness_ComparisonsOrderTheRealValues_classes :
    0 = ((1 : Word64).extractLsb' 52 11).toNat ∧ 1 = ((1 : Word64).extractLsb' 0 52).toNat ∧
    1 = ((0x0010000000000000 : Word64).extractLsb' 52 11).toNat ∧
    2046 = ((0xFFEFFFFFFFFFFFFF : Word64).extractLsb' 52 11).toNat ∧
    2047 = ((0x7FF0000000000000 : Word64).extractLsb' 52 11).toNat ∧
    0 = ((0x7FF0000000000000 : Word64).extractLsb' 0 52).toNat ∧
    1 = ((0x7FF0000000000001 : Word64).extractLsb' 0 52).toNat := by decide

theorem witness_ComparisonsOrderTheRealValues :
    F64.isNaN 0x7FF8000000000000 = true ∧ F64.isNaN 0xFFF0000000000000 = false ∧
    F64.isNaN 0x7FEFFFFFFFFFFFFF = false ∧ F64.isNaN 0x7FF0000000000000 = false ∧
    F64.isZero 0 = true ∧ F64.isZero 0x8000000000000000 = true := by decide

/-- The overflow threshold, the pattern below it, and another finite binary32 pattern. -/
theorem witness_ConversionToBinary32RoundsAndOverflows :
    F64.isNaN 0x7FF0000000000001 = true ∧ F64.isInf 0xFFF0000000000000 = true ∧
    F64.isZero 0x8000000000000000 = true ∧ F64.isFinite 0x47EFFFFFF0000000 = true ∧
    F64.toF32 0x47EFFFFFF0000000 = none ∧ F64.isFinite 0x47EFFFFFEFFFFFFF = true ∧
    F64.toF32 0x47EFFFFFEFFFFFFF = some 0x7F7FFFFF ∧ F32.isFinite 0x7F7FFFFE = true := by
  decide +kernel

/-- R17 at the edges: a subnormal, the least and the largest normal exponent. -/
theorem witness_ConversionToBinary32RoundsAndOverflows_values :
    0 = ((1 : Word32).extractLsb' 23 8).toNat ∧ 1 = ((1 : Word32).extractLsb' 0 23).toNat ∧
    1 = ((0x00800000 : Word32).extractLsb' 23 8).toNat ∧
    254 = ((0xFF7FFFFF : Word32).extractLsb' 23 8).toNat := by decide

/-- V30: 16777217 is equally near 16777216 and 16777218, the hypothesis of the tie clause. -/
theorem witness_ConversionToBinary32RoundsAndOverflows_tie :
    F64.toF32 0x4170000010000000 = some 0x4B800000 ∧ (0x4B800001 : Word32) ≠ 0x4B800000 ∧
    |F64.units 0x4170000010000000 - F32.units 0x4B800000 * F64.perF32Unit| =
      |F64.units 0x4170000010000000 - F32.units 0x4B800001 * F64.perF32Unit| := by decide +kernel

theorem witness_NarrowingTruncatesModulo256 :
    F64.isNaN 0x7FF8000000000000 = true ∧ F64.isInf 0x7FF0000000000000 = true ∧
    F64.isFinite 0xC01FC28F5C28F5C3 = true := by decide

theorem witness_IntegerImagesAreExact : (0 : Nat) < 2 ^ 32 ∧ 4294967295 < 2 ^ 32 := by decide

theorem witness_MextReturnsTheLowByte : State.reset.err = .ok := by decide

theorem witness_WsetlSetsTheLength :
    State.reset.err = .ok ∧ (4096 : BitVec 16).toNat ≤ State.reset.bufcap ∧
    State.reset.bufcap < (4097 : BitVec 16).toNat := by decide

theorem witness_WindowEntriesAreWrittenAndRead :
    State.reset.err = .ok ∧ (4095 : BitVec 16).toNat < State.reset.wcap ∧
    State.reset.wcap ≤ (4096 : BitVec 16).toNat := by decide

theorem witness_WfillMaterialisesTheDraws :
    (intGen 8 1).err = .ok ∧ (intGen 8 1).gv = true ∧ (intGen 8 1).gvar = .int ∧
    (logGen 1).err = .ok ∧ (logGen 1).gv = true ∧ (logGen 1).gvar = .log ∧ (4096 : BitVec 16).toNat ≤ (intGen 8 1).wcap ∧
    State.reset.gv = false ∧ (0 : BitVec 16).toNat ≤ State.reset.wcap ∧
    State.reset.wcap < (4097 : BitVec 16).toNat := by decide

/-- The window as O40 and O41 write it. -/
def windowEntries (s : State) : List Word64 := (List.range s.wlen.toNat).map s.winRead

/-- Out of range, a zero maximum, and V32. -/
theorem witness_WnormNormalisesAnEntry :
    (withWindow [0xBFF0000000000000, 0] State.reset).err = .ok ∧
    (withWindow [0xBFF0000000000000, 0] State.reset).wlen.toNat ≤ (2 : BitVec 16).toNat ∧
    (1 : BitVec 16).toNat < (withWindow [0xBFF0000000000000, 0] State.reset).wlen.toNat ∧
    windowEntries (withWindow [0xBFF0000000000000, 0] State.reset) = 0xBFF0000000000000 :: [0] ∧
    F64.eq (windowMax 0xBFF0000000000000 [0]) 0 = true ∧
    windowEntries (withWindow [0x3FF0000000000000, 0x4000000000000000] State.reset) =
      0x3FF0000000000000 :: [0x4000000000000000] ∧
    F64.eq (windowMax 0x3FF0000000000000 [0x4000000000000000]) 0 = false := by decide +kernel

theorem witness_WnormvNormalisesDATA :
    State.reset.err = .ok ∧ State.reset.wlen.toNat = 0 ∧
    (withWindow [0] State.reset).wlen.toNat ≠ 0 ∧ windowEntries (withWindow [0] State.reset) = 0 :: [] ∧
    F64.eq (windowMax 0 []) 0 = true ∧
    windowEntries (withWindow [0x4008000000000000] State.reset) = 0x4008000000000000 :: [] ∧
    F64.eq (windowMax 0x4008000000000000 []) 0 = false := by decide +kernel

theorem witness_ScanFindsMinimumAndMaximum :
    (∀ x ∈ [0x3FF0000000000000, 0xC000000000000000, (0x7FF0000000000000 : Word64)],
      F64.isNaN x = false) ∧
    F64.isNaN 0x7FF8000000000000 = true ∧ F64.isZero 0 = true ∧
    F64.isZero 0x8000000000000000 = true := by
  refine ⟨?_, by decide +kernel⟩
  simp only [List.mem_cons, List.not_mem_nil, or_false, forall_eq_or_imp, forall_eq]
  decide

/-- V32, with the minimum zero allowed and the target the maximum. -/
theorem witness_NormalisationStaysWithin255 :
    (∀ x ∈ [(0 : Word64), 0x4000000000000000, 0x4010000000000000], F64.isFinite x = true) ∧
    (0x4010000000000000 : Word64) ∈ [(0 : Word64), 0x4000000000000000, 0x4010000000000000] ∧
    0 = windowMin 0 [0x4000000000000000, 0x4010000000000000] ∧
    0x4010000000000000 = windowMax 0 [0x4000000000000000, 0x4010000000000000] ∧
    0 ≤ F64.units 0 ∧ 0 < F64.units 0x4010000000000000 ∧
    0x4010000000000000 = F64.sub 0x4010000000000000 0 ∧
    0x3FF0000000000000 = F64.div 0x4010000000000000 0x4010000000000000 ∧
    0x406FE00000000000 = F64.mul 0x3FF0000000000000 0x406FE00000000000 := by
  refine ⟨?_, by decide +kernel⟩
  simp only [List.mem_cons, List.not_mem_nil, or_false, forall_eq_or_imp, forall_eq]
  decide

/-- Log 9, by hand from R91 and R18: 1.0 - 1e-300 lies far closer to 1.0 than half the spacing below it, so it
rounds to 1.0, and 1.0 / 1.0 * 255 = 255, though the minimum is positive. -/
theorem test_tiny_minimum_is_absorbed :
    F64.sub 0x3FF0000000000000 0x01A56E1FC2F8F359 = 0x3FF0000000000000 ∧
    normalize [0x01A56E1FC2F8F359, 0x3FF0000000000000] 0x3FF0000000000000 = some 255 := by
  decide +kernel

theorem witness_TopByteNeedsAZeroMinimum :
    (∀ x ∈ [(0 : Word64), 0x4010000000000000], F64.isFinite x = true) ∧
    (0x4010000000000000 : Word64) ∈ [(0 : Word64), 0x4010000000000000] ∧
    0 ≤ F64.units (windowMin 0 [0x4010000000000000]) ∧
    0 < F64.units (windowMax 0 [0x4010000000000000]) ∧
    normalize [0, 0x4010000000000000] 0x4010000000000000 = some 255 := by
  refine ⟨?_, by decide +kernel⟩
  simp only [List.mem_cons, List.not_mem_nil, or_false, forall_eq_or_imp, forall_eq]
  decide

theorem witness_XtrRawXorsTheNarrowedDraws :
    (intGen 8 1).err = .ok ∧ (intGen 8 1).gv = true ∧ (intGen 8 1).gvar = .int ∧
    (logGen 1).err = .ok ∧ (logGen 1).gv = true ∧ (logGen 1).gvar = .log ∧
    (4096 : BitVec 16).toNat ≤ (intGen 8 1).bufcap := by decide

/-- V48: five draws convert and the sixth does not; and a length at which every draw converts. -/
theorem witness_XtrMantissaXorsUntilADrawOverflows :
    (logGen 0x4000000000000000).err = .ok ∧ (logGen 0x4000000000000000).gv = true ∧
    (8 : BitVec 16).toNat ≤ (logGen 0x4000000000000000).bufcap ∧ 5 ≤ (8 : BitVec 16).toNat ∧
    (∀ i, i < 5 → mantissaByte (logGen 0x4000000000000000) i ≠ none) ∧
    5 < (8 : BitVec 16).toNat ∧ mantissaByte (logGen 0x4000000000000000) 5 = none ∧
    (∀ i, i < (5 : BitVec 16).toNat → mantissaByte (logGen 0x4000000000000000) i ≠ none) := by
  decide +kernel

/-- V45: every window normalises, so `d = n = 2`; V47: the first does not, so `n = 0` and `d = 1`. -/
theorem witness_XtrWindowXorsUntilAZeroMaximum :
    (intGen 8 1).err = .ok ∧ (intGen 8 1).gv = true ∧ 0 < (2 : BitVec 16).toNat ∧
    (2 : BitVec 16).toNat ≤ (intGen 8 1).bufcap ∧
    (∀ i, i < 2 → windowByte (intGen 8 1) (2 : BitVec 16).toNat i ≠ none) ∧
    drawnWindow (intGen 8 1) (windowStart (2 : BitVec 16).toNat 0) (2 : BitVec 16).toNat =
      0x4066E00000000000 :: [0x4061200000000000] ∧
    (logGen 0).err = .ok ∧ (logGen 0).gv = true ∧ 0 < (2 : BitVec 16).toNat ∧
    windowByte (logGen 0) (2 : BitVec 16).toNat 0 = none := by decide +kernel

theorem witness_TransformsCheckBeforeTheyStart :
    State.reset.err = .ok ∧ State.reset.bufcap < (4097 : BitVec 16).toNat ∧
    (4096 : BitVec 16).toNat ≤ State.reset.bufcap ∧ State.reset.gv = false ∧
    (intGen 8 1).gv = true ∧ Mode.mantissaByte ≠ .rawCast := by decide

theorem witness_XtrIsSelfInverseUnderReplay :
    (withBytes [0, 0] (intGen 8 1)).err = .ok ∧
    exec (.xtr .windowNormalized 2) (withBytes [0, 0] (intGen 8 1)) =
      .next (after (exec (.xtr .windowNormalized 2) (withBytes [0, 0] (intGen 8 1)))) ∧
    (after (exec (.xtr .windowNormalized 2) (withBytes [0, 0] (intGen 8 1)))).err = .ok :=
  ⟨rfl, exec_after _ _, by decide +kernel⟩

/-- V48 for XTR, V58 for PTR. -/
theorem witness_PartialTransformIsUndoneByItsPrefix :
    (logGen 0x4000000000000000).err = .ok ∧
    exec (.xtr .mantissaByte 8) (logGen 0x4000000000000000) =
      .next (after (exec (.xtr .mantissaByte 8) (logGen 0x4000000000000000))) ∧
    (after (exec (.xtr .mantissaByte 8) (logGen 0x4000000000000000))).err = .f32Range ∧
    exec .clre (after (exec (.xtr .mantissaByte 8) (logGen 0x4000000000000000))) =
      .next (clearError (after (exec (.xtr .mantissaByte 8) (logGen 0x4000000000000000)))) ∧
    exec (.ptr .mantissaByte 8) (logGen 0x4000000000000000) =
      .next (after (exec (.ptr .mantissaByte 8) (logGen 0x4000000000000000))) ∧
    (after (exec (.ptr .mantissaByte 8) (logGen 0x4000000000000000))).err = .f32Range ∧
    exec .clre (after (exec (.ptr .mantissaByte 8) (logGen 0x4000000000000000))) =
      .next (clearError (after (exec (.ptr .mantissaByte 8) (logGen 0x4000000000000000)))) :=
  ⟨rfl, exec_after _ _, by decide +kernel, clre_after _, exec_after _ _, by decide +kernel,
    clre_after _⟩

theorem witness_IntegerGeneratorNeverFailsATransform :
    (intGen 32 1).err = .ok ∧ (intGen 32 1).gv = true ∧ (intGen 32 1).gvar = .int ∧
    1 ≤ (intGen 32 1).gn.toNat ∧ (intGen 32 1).gn.toNat ≤ 32 ∧ 1 ≤ (intGen 1 1).gn.toNat ∧
    (4096 : BitVec 16).toNat ≤ (intGen 32 1).bufcap ∧ Mode.windowNormalized ≠ .rawCast := by decide

theorem witness_PerceptronCommands :
    State.reset.err = .ok ∧ State.reset.w = State.reset.w ∧ State.reset.b = State.reset.b := by
  decide

/-- V58 and V56: a failing and a complete transform. -/
theorem witness_PtrMantissaReseedsAndEvaluates :
    (logGen 0x4000000000000000).err = .ok ∧ (logGen 0x4000000000000000).gv = true ∧
    (8 : BitVec 16).toNat ≤ (logGen 0x4000000000000000).bufcap ∧
    (∀ i, i < 5 → mantissaByte (logGen 0x4000000000000000) i ≠ none) ∧
    5 < (8 : BitVec 16).toNat ∧ mantissaByte (logGen 0x4000000000000000) 5 = none ∧
    mantissaByte (logGen 0x4000000000000000) 4 = some 0x90 ∧
    (∀ i, i < 0 → mantissaByte (logGen 0x47F0000000000000) i ≠ none) ∧
    mantissaByte (logGen 0x47F0000000000000) 0 = none := by decide +kernel

theorem witness_PtrWindowReseedsAndEvaluates :
    (intGen 8 1).err = .ok ∧ (intGen 8 1).gv = true ∧ 0 < (2 : BitVec 16).toNat ∧
    (2 : BitVec 16).toNat ≤ (intGen 8 1).bufcap ∧
    (∀ i, i < 2 → windowByte (intGen 8 1) (2 : BitVec 16).toNat i ≠ none) ∧
    windowByte (intGen 8 1) (2 : BitVec 16).toNat 0 = some 0x40 ∧
    windowByte (logGen 0) (2 : BitVec 16).toNat 0 = none := by decide +kernel

theorem witness_PtrAndXtrAgreeButForThePerceptron : Mode.mantissaByte ≠ .rawCast := by decide

theorem witness_BufferBytesAreWrittenAndRead :
    State.reset.err = .ok ∧ (4095 : BitVec 16).toNat < State.reset.bufcap ∧
    State.reset.bufcap ≤ (4096 : BitVec 16).toNat := by decide

theorem witness_AbsoluteValueClearsTheSign : (0 : Nat) < 64 ∧ 63 < 64 := by decide

end Sys2Proof.Tests
end

/-! PROOFS. The invariant (O15): one rule per update of the state, then per shared operation, then per
command, then for the step. -/

namespace Sys2Proof.Machine

open Sys2Proof

/-! ### The integer map stays below `2^32` (R35, R76) -/

/-- The reduced product `v * (1 + v)` is even and below the even modulus `2^n`, so the increment does not
reach the modulus; for `n = 1` the result is 2. -/
theorem intStep_lt (v n : Nat) (h1 : 1 ≤ n) (h32 : n ≤ 32) : intStep v n < 2 ^ 32 := by
  obtain ⟨k, rfl⟩ : ∃ k, n = k + 1 := ⟨n - 1, by omega⟩
  have hbound : 2 * 2 ^ k ≤ 2 ^ 32 := by
    rw [← pow_succ']; exact Nat.pow_le_pow_right (by norm_num) h32
  have hlt : v * (1 + v) % (2 * 2 ^ k) < 2 * 2 ^ k := Nat.mod_lt _ (by positivity)
  have heven : v * (1 + v) % (2 * 2 ^ k) % 2 = 0 := by
    rw [Nat.mod_mul_right_mod, Nat.add_comm]
    exact Nat.even_iff.mp (Nat.even_mul_succ_self v)
  unfold intStep
  rw [pow_succ']
  split_ifs <;> omega

/-- A word made from a number below `2^32` has a zero upper half (R33). -/
theorem upperHalf_ofNat {n : Nat} (h : n < 2 ^ 32) :
    (BitVec.ofNat 64 n).extractLsb' 32 32 = 0 := by
  apply BitVec.eq_of_toNat_eq
  simp only [BitVec.extractLsb'_toNat, BitVec.toNat_ofNat, Nat.shiftRight_eq_div_pow,
    BitVec.ofNat_eq_ofNat]
  omega

/-- A zero-extended 32-bit operand has a zero upper half (R27, R33). -/
theorem upperHalf_zext64 (v : Word32) : (zext64 v).extractLsb' 32 32 = 0 := by
  have h := upperHalf_ofNat v.isLt
  rwa [BitVec.ofNat_toNat] at h

namespace State.Inv

variable {s : State}

/-! ### One rule per update -/

theorem setData (hs : s.Inv) (v : Word64) : (s.setData v).Inv := { hs with }

theorem setInputs (hs : s.Inv) (l : List HostAccess) : (s.setInputs l).Inv := { hs with }

theorem setReply (hs : s.Inv) (r : Option Word64) : (s.setReply r).Inv := { hs with }

theorem setPerceptron (hs : s.Inv) (w : Eight (Eight Weight)) (b : Eight Bias) :
    (s.setPerceptron w b).Inv := { hs with }

theorem setErr (hs : s.Inv) {e : ErrCode} (he : e ≠ .invalidSeed) : (s.setErr e).Inv :=
  { hs with errorCode := he }

theorem raise (hs : s.Inv) {e : ErrCode} (he : e ≠ .invalidSeed) (i : Nat) : (raise e i s).Inv :=
  { hs with errorCode := he }

theorem setWlen (hs : s.Inv) {n : BitVec 16} (hn : n.toNat ≤ s.wcap) : (s.setWlen n).Inv :=
  { hs with windowLength := hn }

theorem bufWrite (hs : s.Inv) {a : Nat} (ha : a < s.bufcap) (v : Byte) : (s.bufWrite a v).Inv :=
  { hs with
    bufCanonical := Memory.wf_put s.buf a v hs.bufCanonical
    bufInside := Memory.below_put s.bufcap s.buf v ha hs.bufInside }

theorem winWrite (hs : s.Inv) {k : Nat} (hk : k < s.wcap) (v : Word64) : (s.winWrite k v).Inv :=
  { hs with
    winCanonical := Memory.wf_put s.win k v hs.winCanonical
    winInside := Memory.below_put s.wcap s.win v hk hs.winInside }

/-- GVAL may be written where there is a generator, with a 32-bit value under INT (R33). -/
theorem setGval (hs : s.Inv) (hgv : s.gv = true) {v : Word64}
    (hv : s.gvar = .int → v.extractLsb' 32 32 = 0) : (s.setGval v).Inv :=
  { hs with
    noGenerator := fun h => absurd (hgv.symm.trans h) (by decide)
    intValue := hv }

/-- GPAR may be written for a logistic generator only (R34). -/
theorem setGpar (hs : s.Inv) (hlog : s.gvar = .log) (v : Word64) : (s.setGpar v).Inv :=
  { hs with intCoefficient := fun h => absurd (hlog.symm.trans h) (by decide) }

/-- Constructing an integer generator (R78). -/
theorem newInt (hs : s.Inv) {n : BitVec 6} (h1 : 1 ≤ n.toNat) (h32 : n.toNat ≤ 32) {v : Word64}
    (hv : v.extractLsb' 32 32 = 0) : (((s.setGen .int n).setGval v).setGpar 0).Inv :=
  { hs with
    noGenerator := nofun
    logExponent := nofun
    intExponent := fun _ _ => ⟨h1, h32⟩
    intValue := fun _ => hv
    intCoefficient := fun _ => rfl }

/-- Constructing a logistic generator (R79). -/
theorem newLog (hs : s.Inv) (v a : Word64) : (((s.setGen .log 0).setGval v).setGpar a).Inv :=
  { hs with
    noGenerator := nofun
    logExponent := fun _ => rfl
    intExponent := nofun
    intValue := nofun
    intCoefficient := nofun }

/-! ### One rule per shared operation -/

/-- The value of a draw fits GVAL as R33 has it. -/
theorem nextValue_upperHalf (hs : s.Inv) (hgv : s.gv = true) (hint : s.gvar = .int) :
    (nextValue s.gvar s.gn s.gval s.gpar).extractLsb' 32 32 = 0 := by
  obtain ⟨h1, h32⟩ := hs.intExponent hgv hint
  rw [hint]
  exact upperHalf_ofNat (intStep_lt _ _ h1 h32)

theorem draw (hs : s.Inv) (hgv : s.gv = true) : (draw s).2.Inv :=
  hs.setGval hgv (hs.nextValue_upperHalf hgv)

theorem fillFrom (hs : s.Inv) (hgv : s.gv = true) {count j : Nat} (h : j + count ≤ s.wcap) :
    (fillFrom count j s).Inv := by
  induction count generalizing j s with
  | zero => exact hs
  | succ n ih =>
    have hnext := (hs.draw hgv).winWrite (show j < s.wcap by omega) (drawF s).1
    exact ih hnext hgv (show j + 1 + n ≤ s.wcap by omega)

/-- A length within WCAP is one that WLEN can hold, so materialising keeps WLEN within WCAP (R38). -/
theorem materialize (hs : s.Inv) (hgv : s.gv = true) {len : Nat} (h : len ≤ s.wcap) :
    (materialize len s).Inv := by
  have hcap : s.wcap ≤ 65535 := hs.capacity.2
  have hfill := hs.fillFrom hgv (count := len) (j := 0) (by omega)
  have hwcap : (Machine.fillFrom len 0 s).wcap = s.wcap := by
    rw [(fillFrom_spec len 0 s).2]; rfl
  refine hfill.setWlen ?_
  rw [hwcap, BitVec.toNat_ofNat, Nat.mod_eq_of_lt (by omega)]
  exact h

/-- The checks before a command keep the invariant, and so does the command if its own rule does where
they pass (R71). -/
theorem command (hs : s.Inv) {legal inBounds genReady : Bool} {body : State → State}
    (hbody : legal = true → inBounds = true → genReady = true → (body s).Inv) :
    (command legal inBounds genReady body s).Inv := by
  rcases command_cases legal inBounds genReady body s with
    ⟨-, h⟩ | ⟨-, -, h⟩ | ⟨-, -, -, h⟩ | ⟨-, -, -, -, h⟩ | ⟨-, hl, hb, hg, h⟩ <;> rw [h]
  · exact hs
  · exact hs.raise (by decide) 0
  · exact hs.raise (by decide) 0
  · exact hs.raise (by decide) 0
  · exact hbody hl hb hg

theorem returnNormalized (hs : s.Inv) (result : Option Byte) (i : Nat) :
    (returnNormalized result i s).Inv := by
  cases result with
  | none => exact hs.raise (by decide) i
  | some b => exact hs.setData _

end State.Inv

/-! ### The loop of a transform (R57) -/

/-- What holds of the state between two bytes of a transform: the invariant, a generator, and the capacity
the length was checked against. -/
structure State.Running (cap : Nat) (s : State) : Prop where
  inv : s.Inv
  generator : s.gv = true
  capacity : s.bufcap = cap

/-- Deriving a byte leaves a running state, and an error it ends in is not INVALID_SEED. -/
def Derived.Keeps (cap : Nat) : Derived → Prop
  | .byte _ t => t.Running cap
  | .raised e _ t => e ≠ .invalidSeed ∧ t.Running cap

namespace State.Running

variable {cap : Nat} {s : State}

theorem draw (hs : s.Running cap) : (draw s).2.Running cap :=
  ⟨hs.inv.draw hs.generator, hs.generator, hs.capacity⟩

theorem materialize (hs : s.Running cap) {len : Nat} (h : len ≤ cap) :
    (materialize len s).Running cap := by
  have hframe := (materialize_spec len s).2
  refine ⟨hs.inv.materialize hs.generator (h.trans_eq hs.capacity.symm), ?_, ?_⟩
  · rw [hframe]; exact hs.generator
  · rw [hframe]; exact hs.capacity

theorem applyXor (hs : s.Running cap) {i : Nat} (hi : i < cap) (k : Byte) :
    (applyXor i k s).Running cap :=
  ⟨hs.inv.bufWrite (hs.capacity ▸ hi) _, hs.generator, hs.capacity⟩

theorem applyPerceptron (hs : s.Running cap) {i : Nat} (hi : i < cap) (k : Byte) :
    (applyPerceptron i k s).Running cap :=
  ⟨(hs.inv.setPerceptron _ _).bufWrite (hs.capacity ▸ hi) _, hs.generator, hs.capacity⟩

theorem deriveRaw (hs : s.Running cap) : (deriveRaw s).Keeps cap := hs.draw

theorem deriveMantissa (hs : s.Running cap) (i : Nat) : (deriveMantissa i s).Keeps cap := by
  rcases deriveMantissa_cases i s with ⟨p, -, h⟩ | ⟨-, h⟩ <;> rw [h]
  · exact hs.draw
  · exact ⟨by decide, hs.draw⟩

theorem deriveWindow (hs : s.Running cap) (i : Nat) {len : Nat} (hlen : len ≤ cap) :
    (deriveWindow i len s).Keeps cap := by
  rcases deriveWindow_cases i len s with ⟨k, -, h⟩ | ⟨-, h⟩ <;> rw [h]
  · exact hs.materialize hlen
  · exact ⟨by decide, hs.materialize hlen⟩

theorem deriveSeed (hs : s.Running cap) (mode : Mode) (i : Nat) {len : Nat} (hlen : len ≤ cap) :
    (deriveSeed mode len i s).Keeps cap := by
  unfold Machine.deriveSeed
  split
  · exact hs.deriveMantissa i
  · exact hs.deriveWindow i hlen

/-- A transform whose derivation and application keep running states ends within the invariant, completed
or stopped by an error part-way (R129). -/
theorem transform {derive : Nat → State → Derived} {apply : Nat → Byte → State → State}
    (hderive : ∀ i t, t.Running cap → (derive i t).Keeps cap)
    (happly : ∀ i k t, i < cap → t.Running cap → (apply i k t).Running cap)
    (hs : s.Running cap) {len : Nat} (hlen : len ≤ cap) :
    (transformFrom derive apply len 0 s).Inv := by
  refine transformFrom_induction (total := len) (fun _ t => t.Running cap) State.Inv
    ?byte ?raise (fun t ht => ht.inv) len 0 s (Nat.zero_add len) hs
  case byte =>
    intro i k u t hi hu hd
    have ht := hderive i u hu
    rw [hd] at ht
    exact happly i k t (by omega) ht
  case raise =>
    intro i e j u t _ hu hd
    have ht := hderive i u hu
    rw [hd] at ht
    exact ht.2.inv.raise ht.1 j

theorem xtrBody (hs : s.Running cap) (mode : Mode) {len : Nat} (hlen : len ≤ cap) :
    (xtrBody mode len s).Inv := by
  have happly := fun i k t (hi : i < cap) (ht : State.Running cap t) => ht.applyXor hi k
  unfold Machine.xtrBody
  split
  · exact hs.inv
  · cases mode with
    | rawCast => exact hs.transform (fun _ _ ht => ht.deriveRaw) happly hlen
    | mantissaByte => exact hs.transform (fun i _ ht => ht.deriveMantissa i) happly hlen
    | windowNormalized =>
      exact (hs.materialize hlen).transform (fun i _ ht => ht.deriveWindow i hlen) happly hlen

theorem ptrBody (hs : s.Running cap) (mode : Mode) {len : Nat} (hlen : len ≤ cap) :
    (ptrBody mode len s).Inv := by
  have hderive := fun i t (ht : State.Running cap t) => ht.deriveSeed mode i hlen
  have happly := fun i k t (hi : i < cap) (ht : State.Running cap t) => ht.applyPerceptron hi k
  unfold Machine.ptrBody
  split
  · exact hs.inv
  · split
    · exact (hs.materialize hlen).transform hderive happly hlen
    · exact hs.transform hderive happly hlen

end State.Running

/-! ### Commands, accesses and the step -/

namespace State.Inv

variable {s : State}

/-- What GSETV stores has a zero upper half under INT (R82). -/
theorem setValueOperand_upperHalf (s : State) (hint : s.gvar = .int) :
    (setValueOperand s).extractLsb' 32 32 = 0 := by
  simp only [setValueOperand, hint]
  exact upperHalf_zext64 _

/-- Every command, from every state of the invariant, ends in a state of the invariant. -/
theorem exec (hs : s.Inv) (i : Instr) : ∃ t, exec i s = .next t ∧ t.Inv := by
  cases i with
  | clre => exact ⟨_, rfl, hs.setErr (by decide)⟩
  | gnewi n =>
    refine ⟨_, rfl, hs.command fun hlegal _ _ => ?_⟩
    simp only [legalExponent, Bool.and_eq_true, decide_eq_true_eq] at hlegal
    exact hs.newInt hlegal.1 hlegal.2 (upperHalf_zext64 _)
  | gnewl => exact ⟨_, rfl, hs.command fun _ _ _ => hs.newLog _ _⟩
  | gnext => exact ⟨_, rfl, hs.command fun _ _ hgv => (hs.draw hgv).setData _⟩
  | ggetv => exact ⟨_, rfl, hs.command fun _ _ _ => hs.setData _⟩
  | gsetv =>
    exact ⟨_, rfl, hs.command fun _ _ hgv => hs.setGval hgv (setValueOperand_upperHalf s)⟩
  | ggetp => exact ⟨_, rfl, hs.command fun _ _ _ => hs.setData _⟩
  | gsetp =>
    refine ⟨_, rfl, hs.command fun _ _ hlog => hs.setGpar ?_ _⟩
    simp only [hasLogistic, Bool.and_eq_true, decide_eq_true_eq] at hlog
    exact hlog.2
  | mext => exact ⟨_, rfl, hs.command fun _ _ _ => hs.setData _⟩
  | wsetl k => exact ⟨_, rfl, hs.command fun _ hk _ => hs.setWlen (of_decide_eq_true hk)⟩
  | wwr k => exact ⟨_, rfl, hs.command fun _ hk _ => hs.winWrite (of_decide_eq_true hk) _⟩
  | wrd k => exact ⟨_, rfl, hs.command fun _ _ _ => hs.setData _⟩
  | wfill k =>
    exact ⟨_, rfl, hs.command fun _ hk hgv => hs.materialize hgv (of_decide_eq_true hk)⟩
  | wnorm k => exact ⟨_, rfl, hs.command fun _ _ _ => hs.returnNormalized _ _⟩
  | wnormv => exact ⟨_, rfl, hs.command fun _ _ _ => hs.returnNormalized _ _⟩
  | preseed => exact ⟨_, rfl, hs.command fun _ _ _ => hs.setPerceptron _ _⟩
  | peval => exact ⟨_, rfl, hs.command fun _ _ _ => hs.setData _⟩
  | prdw row => exact ⟨_, rfl, hs.command fun _ _ _ => hs.setData _⟩
  | prdb => exact ⟨_, rfl, hs.command fun _ _ _ => hs.setData _⟩
  | bwr a x => exact ⟨_, rfl, hs.command fun _ ha _ => hs.bufWrite (of_decide_eq_true ha) _⟩
  | brd k => exact ⟨_, rfl, hs.command fun _ _ _ => hs.setData _⟩
  | xtr mode len =>
    exact ⟨_, rfl, hs.command fun _ hlen hgv =>
      State.Running.xtrBody ⟨hs, hgv, rfl⟩ mode (of_decide_eq_true hlen)⟩
  | ptr mode len =>
    exact ⟨_, rfl, hs.command fun _ hlen hgv =>
      State.Running.ptrBody ⟨hs, hgv, rfl⟩ mode (of_decide_eq_true hlen)⟩

theorem issue (hs : s.Inv) (c : Word32) : ∃ t, issue c s = .next t ∧ t.Inv := by
  unfold Machine.issue
  cases decode c with
  | ok i => exact hs.exec i
  | error e =>
    refine ⟨_, rfl, ?_⟩
    unfold issueIllegal
    split
    · exact hs
    · exact hs.raise (by decide) 0

/-- A reset leaves empty memories and the reset registers, and keeps the capacity (R43, R139). -/
theorem resetBlock (hs : s.Inv) : (resetBlock s).Inv where
  capacity := hs.capacity
  bufCanonical := rfl
  bufInside := rfl
  winCanonical := rfl
  winInside := rfl
  windowLength := Nat.zero_le _
  noGenerator _ := ⟨rfl, rfl, rfl⟩
  logExponent := nofun
  intExponent := nofun
  intValue _ := show (0 : Word64).extractLsb' 32 32 = 0 by decide
  intCoefficient _ := rfl
  errorCode := nofun

theorem hostAccess (hs : s.Inv) (a : HostAccess) : ∃ t, hostAccess a s = .next t ∧ t.Inv := by
  cases a with
  | writeCmd c => exact (hs.setReply none).issue c
  | readCmd => exact ⟨_, rfl, hs.setReply _⟩
  | readStatus => exact ⟨_, rfl, hs.setReply _⟩
  | writeStatus v => exact ⟨_, rfl, hs.setReply _⟩
  | readAux => exact ⟨_, rfl, hs.setReply _⟩
  | writeAux v => exact ⟨_, rfl, hs.setReply _⟩
  | readData => exact ⟨_, rfl, hs.setReply _⟩
  | writeData v => exact ⟨_, rfl, (hs.setData v).setReply _⟩
  | reset => exact ⟨_, rfl, hs.resetBlock⟩

theorem step (hs : s.Inv) : ∃ t, step s = .next t ∧ t.Inv := by
  unfold Machine.step
  cases s.inputs with
  | nil => exact ⟨s, rfl, hs⟩
  | cons a rest => exact (hs.setInputs rest).hostAccess a

end State.Inv

/-- Settles O15: by the access taken off the inputs, the command it issues, and the updates that makes. -/
theorem everyStepKeepsTheInvariant : Obligations.EveryStepKeepsTheInvariant := by
  intro s t hs hstep
  obtain ⟨u, hu, hinv⟩ := hs.step
  rw [hstep] at hu
  cases hu
  exact hinv

end Sys2Proof.Machine

/-! PROOFS. The floating primitives (O29 to O35, O60): classes and signs of patterns first, then what each
primitive is on each class, then the statements. -/

namespace Sys2Proof.Machine

open Sys2Proof

/-! ### Classes of patterns (R16) -/

section Classes

variable {p : Word64}

theorem F64.isNaN_of_isInf (h : F64.isInf p = true) : F64.isNaN p = false := by
  have hi := (F64.isInf_iff p).mp h
  rw [← Bool.not_eq_true, F64.isNaN_iff]
  omega

theorem F64.isZero_of_isInf (h : F64.isInf p = true) : F64.isZero p = false := by
  have hi := (F64.isInf_iff p).mp h
  rw [← Bool.not_eq_true, F64.isZero_iff]
  omega

theorem F64.isFinite_of_isZero (h : F64.isZero p = true) : F64.isFinite p = true := by
  have hz := (F64.isZero_iff p).mp h
  rw [F64.isFinite_iff]
  omega

/-- A pattern that is no NaN is an infinity or finite. -/
theorem F64.isFinite_of_not_nan_inf (hn : F64.isNaN p = false) (hi : F64.isInf p = false) :
    F64.isFinite p = true := by
  rw [← Bool.not_eq_true, F64.isNaN_iff] at hn
  rw [← Bool.not_eq_true, F64.isInf_iff] at hi
  rw [F64.isFinite_iff]
  omega

/-- A pattern is its sign over its magnitude pattern. -/
theorem F64.eq_withSign (p : Word64) : p = F64.withSign (F64.sign p) (p.toNat % 2 ^ 63) := by
  have hlt := p.isLt
  apply BitVec.eq_of_toNat_eq
  rw [F64.withSign_toNat _ _ (Nat.mod_lt _ (by norm_num)), F64.sign_eq]
  split_ifs with h
  · have := of_decide_eq_true h; omega
  · have := mt decide_eq_true h; omega

theorem F64.eq_zero_of_isZero (h : F64.isZero p = true) : p = F64.zero (F64.sign p) := by
  have hp := F64.eq_withSign p
  rwa [(F64.isZero_iff p).mp h] at hp

theorem F64.eq_infinity_of_isInf (h : F64.isInf p = true) : p = F64.infinity (F64.sign p) := by
  have hp := F64.eq_withSign p
  rwa [(F64.isInf_iff p).mp h] at hp

/-- Only the zeros have magnitude zero. -/
theorem F64.magnitude_eq_zero_iff (p : Word64) : F64.magnitude p = 0 ↔ F64.isZero p = true := by
  rw [F64.isZero_iff, F64.magnitude_eq, ← patternValue_zero 53]
  exact (patternValue_strictMono 53).injective.eq_iff

theorem F64.magnitude_pos (h : F64.isZero p = false) : 0 < F64.magnitude p := by
  rw [Nat.pos_iff_ne_zero, Ne, F64.magnitude_eq_zero_iff, h]
  decide

theorem F64.units_of_isZero (h : F64.isZero p = true) : F64.units p = 0 := by
  simp [F64.units, (F64.magnitude_eq_zero_iff p).mpr h]

end Classes

/-! ### The patterns of the zeros and the infinities -/

section Patterns

variable (neg : Bool)

@[simp] theorem F64.sign_zero : F64.sign (F64.zero neg) = neg :=
  F64.sign_withSign neg 0 (by norm_num)

@[simp] theorem F64.isZero_zero : F64.isZero (F64.zero neg) = true :=
  (F64.isZero_iff _).mpr (F64.withSign_mod neg 0 (by norm_num))

@[simp] theorem F64.sign_infinity : F64.sign (F64.infinity neg) = neg :=
  F64.sign_withSign neg _ (by norm_num)

/-- A zero has an even fraction. -/
theorem F64.getLsbD_zero : (F64.zero neg).getLsbD 0 = false := by
  cases neg <;> decide

end Patterns

/-! ### Signed values -/

theorem F64.units_eq (p : Word64) :
    F64.units p = signedNumerator (F64.sign p) (F64.magnitude p) := rfl

@[simp] theorem abs_signedNumerator (neg : Bool) (n : Nat) : |signedNumerator neg n| = n := by
  cases neg <;> simp [signedNumerator]

theorem signedNumerator_mul (s t : Bool) (m n : Nat) :
    signedNumerator (s != t) (m * n) = signedNumerator s m * signedNumerator t n := by
  cases s <;> cases t <;> simp [signedNumerator]

/-- A difference is its own sign over its absolute value. -/
theorem signedNumerator_sub (x y : Int) :
    signedNumerator (decide (x < y)) (x - y).natAbs = x - y := by
  by_cases h : x < y
  · simp [signedNumerator, h, abs_of_neg (sub_neg.mpr h)]
  · simp [signedNumerator, h, abs_of_nonneg (sub_nonneg.mpr (not_lt.mp h))]

/-! ### What each primitive is on each class (R18, R19) -/

section Primitives

variable {a b : Word64}

theorem F64.mul_of_finite (ha : F64.isFinite a = true) (hb : F64.isFinite b = true) :
    F64.mul a b =
      F64.ofRatio (F64.sign a != F64.sign b) (F64.magnitude a * F64.magnitude b) F64.one := by
  obtain ⟨han, hai⟩ := F64.not_nan_inf_of_finite ha
  obtain ⟨hbn, hbi⟩ := F64.not_nan_inf_of_finite hb
  simp [F64.mul, han, hai, hbn, hbi]

theorem F64.sub_of_finite (ha : F64.isFinite a = true) (hb : F64.isFinite b = true)
    (hne : F64.units a ≠ F64.units b) :
    F64.sub a b = F64.ofRatio (decide (F64.units a < F64.units b))
      (F64.units a - F64.units b).natAbs 1 := by
  obtain ⟨han, hai⟩ := F64.not_nan_inf_of_finite ha
  obtain ⟨hbn, hbi⟩ := F64.not_nan_inf_of_finite hb
  simp [F64.sub, han, hai, hbn, hbi, sub_ne_zero.mpr hne]

theorem F64.sub_of_equal (ha : F64.isFinite a = true) (hb : F64.isFinite b = true)
    (heq : F64.units a = F64.units b) :
    F64.sub a b = F64.zero (F64.sign a && !F64.sign b) := by
  obtain ⟨han, hai⟩ := F64.not_nan_inf_of_finite ha
  obtain ⟨hbn, hbi⟩ := F64.not_nan_inf_of_finite hb
  simp [F64.sub, han, hai, hbn, hbi, heq]

theorem F64.div_of_finite (ha : F64.isFinite a = true) (hb : F64.isFinite b = true)
    (hz : F64.isZero b = false) :
    F64.div a b =
      F64.ofRatio (F64.sign a != F64.sign b) (F64.magnitude a * F64.one) (F64.magnitude b) := by
  obtain ⟨han, hai⟩ := F64.not_nan_inf_of_finite ha
  obtain ⟨hbn, hbi⟩ := F64.not_nan_inf_of_finite hb
  simp [F64.div, han, hai, hbn, hbi, hz]

/-- A ratio of zero rounds to the zero of the sign. -/
theorem F64.ofRatio_zero (neg : Bool) {d : Nat} (hd : 0 < d) :
    F64.ofRatio neg 0 d = F64.zero neg := by
  have h0 : roundPattern 53 0 d = 0 :=
    roundPattern_exact 53 0 d hd (by norm_num) 0 (by rw [patternValue_zero, mul_zero])
  rw [F64.ofRatio, h0]
  rfl

end Primitives

/-! ### Rounding of mul, sub and div (O29) -/

/-- Everything `ofRatio` promises of the value `± n / d` it rounds (R18): sign, overflow, nearest, ties to
even. -/
theorem F64.ofRatio_rounds (neg : Bool) (n d : Nat) (hd : 0 < d) :
    F64.sign (F64.ofRatio neg n d) = neg ∧
    (F64.isFinite (F64.ofRatio neg n d) = true ↔
      |signedNumerator neg n| < (F64.overflowBound : Int) * d) ∧
    (F64.isFinite (F64.ofRatio neg n d) = false → F64.ofRatio neg n d = F64.infinity neg) ∧
    ∀ y, F64.isFinite (F64.ofRatio neg n d) = true → F64.isFinite y = true →
      |signedNumerator neg n - F64.units (F64.ofRatio neg n d) * d| ≤
        |signedNumerator neg n - F64.units y * d| ∧
      (|signedNumerator neg n - F64.units (F64.ofRatio neg n d) * d| =
        |signedNumerator neg n - F64.units y * d| → y ≠ F64.ofRatio neg n d →
        (F64.ofRatio neg n d).getLsbD 0 = false) := by
  obtain ⟨hsign, hfinite, hinf, -⟩ := F64.ofRatio_spec neg n d
  refine ⟨hsign, ?_, fun h => hinf ?_, fun y hr _ => F64.ofRatio_nearest neg n d hd y hr⟩
  · rw [F64.ofRatio_isFinite_iff neg n d hd, abs_signedNumerator, mul_comm d]
    exact_mod_cast Iff.rfl
  · by_contra hlt
    rw [hfinite.mpr (not_le.mp hlt)] at h
    cases h

/-- A distance from a multiple of a signed divisor is one from a multiple of its magnitude, with the other
value's sign adjusted. -/
theorem F64.abs_sub_mul_units (b : Word64) (x y : Int) :
    |x - y * F64.units b| = |x * signedNumerator (F64.sign b) 1 - y * F64.magnitude b| := by
  rw [F64.units_eq]
  cases F64.sign b
  · simp [signedNumerator]
  · rw [← abs_neg]; congr 1; simp [signedNumerator]; ring

/-- Settles O29: each result is `ofRatio` of the exact value, but for the zero difference. -/
theorem arithmeticRoundsToNearestEven : Obligations.ArithmeticRoundsToNearestEven := by
  intro a b ha hb
  refine ⟨?mul, ?sub, ?div⟩
  case mul =>
    rintro r rfl
    rw [F64.mul_of_finite ha hb, F64.units_eq a, F64.units_eq b, ← signedNumerator_mul]
    exact F64.ofRatio_rounds _ _ _ F64.one_pos
  case sub =>
    rintro r rfl
    by_cases heq : F64.units a = F64.units b
    · have hfinite := F64.isFinite_of_isZero (F64.isZero_zero (F64.sign a && !F64.sign b))
      have hbound : (0 : Int) < F64.overflowBound := by exact_mod_cast F64.overflowBound_pos
      rw [F64.sub_of_equal ha hb heq, F64.units_of_isZero (F64.isZero_zero _)]
      refine ⟨fun hne => absurd heq hne, ?_, fun h => absurd (hfinite.symm.trans h) (by decide),
        fun y _ _ => ⟨?_, fun _ _ => F64.getLsbD_zero _⟩⟩
      · rw [heq, sub_self, abs_zero]
        exact iff_of_true hfinite hbound
      · simp [heq]
    · have h := F64.ofRatio_rounds (decide (F64.units a < F64.units b))
        (F64.units a - F64.units b).natAbs 1 one_pos
      rw [signedNumerator_sub, ← F64.sub_of_finite ha hb heq] at h
      simp only [Nat.cast_one, mul_one] at h
      obtain ⟨hsign, hrest⟩ := h
      exact ⟨fun _ => hsign, hrest⟩
  case div =>
    rintro r rfl hz
    have hexact : signedNumerator (F64.sign a != F64.sign b) (F64.magnitude a * F64.one) =
        F64.units a * F64.one * signedNumerator (F64.sign b) 1 := by
      rw [F64.units_eq, ← Nat.mul_one (F64.magnitude a * F64.one), signedNumerator_mul]
      cases F64.sign a <;> simp [signedNumerator]
    have hbound : |F64.units a * F64.one * signedNumerator (F64.sign b) 1| =
        |F64.units a * F64.one| := by rw [abs_mul, abs_signedNumerator, Nat.cast_one, mul_one]
    have hmag : |F64.units b| = F64.magnitude b := abs_signedNumerator _ _
    have h := F64.ofRatio_rounds (F64.sign a != F64.sign b) (F64.magnitude a * F64.one)
      (F64.magnitude b) (F64.magnitude_pos hz)
    simp only [F64.abs_sub_mul_units, F64.div_of_finite ha hb hz, hmag]
    rwa [hexact, hbound] at h

/-! ### Invalid operations (O30) -/

/-- Settles O30: each case falls into a branch that answers the canonical NaN. -/
theorem invalidOperationsGiveTheCanonicalNaN : Obligations.InvalidOperationsGiveTheCanonicalNaN := by
  intro a b
  refine ⟨?nan, ?infTimesZero, ?infMinusInf, ?zeroOverZero, ?infOverInf⟩
  case nan =>
    rintro (h | h) <;> simp [F64.mul, F64.sub, F64.div, h, Config.nan64]
  case infTimesZero =>
    intro ha hb
    have hfin := F64.not_nan_inf_of_finite (F64.isFinite_of_isZero hb)
    simp [F64.mul, ha, hb, hfin, F64.isNaN_of_isInf ha, Config.nan64]
  case infMinusInf =>
    intro ha hb hsign
    simp [F64.sub, ha, hb, hsign, F64.isNaN_of_isInf, Config.nan64]
  case zeroOverZero =>
    intro ha hb
    have hafin := F64.not_nan_inf_of_finite (F64.isFinite_of_isZero ha)
    have hbfin := F64.not_nan_inf_of_finite (F64.isFinite_of_isZero hb)
    simp [F64.div, ha, hb, hafin, hbfin, Config.nan64]
  case infOverInf =>
    intro ha hb
    simp [F64.div, ha, hb, F64.isNaN_of_isInf, Config.nan64]

/-! ### Zeros and infinities (O31) -/

section SpecialCases

variable {a b : Word64}

theorem F64.isZero_nan64 : F64.isZero Config.nan64 = false := by decide

/-- A product that is no NaN has the exclusive or of the signs. -/
theorem F64.mul_nan_or_sign (a b : Word64) :
    F64.mul a b = Config.nan64 ∨ F64.sign (F64.mul a b) = (F64.sign a != F64.sign b) := by
  unfold F64.mul
  split_ifs
  · exact Or.inl rfl
  · exact Or.inl rfl
  · exact Or.inr (F64.sign_infinity _)
  · exact Or.inr (F64.ofRatio_spec _ _ _).1

/-- A quotient that is no NaN has the exclusive or of the signs. -/
theorem F64.div_nan_or_sign (a b : Word64) :
    F64.div a b = Config.nan64 ∨ F64.sign (F64.div a b) = (F64.sign a != F64.sign b) := by
  unfold F64.div
  split_ifs
  · exact Or.inl rfl
  · exact Or.inl rfl
  · exact Or.inr (F64.sign_infinity _)
  · exact Or.inr (F64.sign_zero _)
  · exact Or.inl rfl
  · exact Or.inr (F64.sign_infinity _)
  · exact Or.inr (F64.ofRatio_spec _ _ _).1

/-- A result that is the NaN or has a known sign is the zero of that sign when it is a zero. -/
theorem F64.eq_zero_of_nan_or_sign {r : Word64} {neg : Bool}
    (h : r = Config.nan64 ∨ F64.sign r = neg) (hz : F64.isZero r = true) : r = F64.zero neg := by
  rcases h with rfl | rfl
  · exact absurd (F64.isZero_nan64.symm.trans hz) (by decide)
  · exact F64.eq_zero_of_isZero hz

theorem F64.mul_of_zero (ha : F64.isFinite a = true) (hb : F64.isFinite b = true)
    (hz : F64.isZero a = true ∨ F64.isZero b = true) :
    F64.mul a b = F64.zero (F64.sign a != F64.sign b) := by
  have hprod : F64.magnitude a * F64.magnitude b = 0 := by
    rw [mul_eq_zero, F64.magnitude_eq_zero_iff, F64.magnitude_eq_zero_iff]
    exact hz
  rw [F64.mul_of_finite ha hb, hprod, F64.ofRatio_zero _ F64.one_pos]

theorem F64.div_of_zero (ha : F64.isZero a = true) (hb : F64.isFinite b = true)
    (hz : F64.isZero b = false) : F64.div a b = F64.zero (F64.sign a != F64.sign b) := by
  rw [F64.div_of_finite (F64.isFinite_of_isZero ha) hb hz, (F64.magnitude_eq_zero_iff a).mpr ha,
    zero_mul, F64.ofRatio_zero _ (F64.magnitude_pos hz)]

theorem F64.sub_of_zeros (ha : F64.isZero a = true) (hb : F64.isZero b = true) :
    F64.sub a b = F64.zero (F64.sign a && !F64.sign b) :=
  F64.sub_of_equal (F64.isFinite_of_isZero ha) (F64.isFinite_of_isZero hb)
    ((F64.units_of_isZero ha).trans (F64.units_of_isZero hb).symm)

theorem F64.sub_self (ha : F64.isFinite a = true) : F64.sub a a = F64.zero false := by
  rw [F64.sub_of_equal ha ha rfl, Bool.and_not_self]

theorem F64.mul_of_inf (ha : F64.isInf a = true) (hn : F64.isNaN b = false)
    (hz : F64.isZero b = false) :
    F64.mul a b = F64.infinity (F64.sign a != F64.sign b) ∧
    F64.mul b a = F64.infinity (F64.sign b != F64.sign a) := by
  simp [F64.mul, ha, hn, hz, F64.isNaN_of_isInf ha, F64.isZero_of_isInf ha]

theorem F64.inf_and_finite (ha : F64.isInf a = true) (hb : F64.isFinite b = true) :
    F64.sub a b = F64.infinity (F64.sign a) ∧ F64.sub b a = F64.infinity (!F64.sign a) ∧
    F64.div b a = F64.zero (F64.sign b != F64.sign a) := by
  obtain ⟨hbn, hbi⟩ := F64.not_nan_inf_of_finite hb
  simp [F64.sub, F64.div, ha, hbn, hbi, F64.isNaN_of_isInf ha]

theorem F64.div_by_zero (hn : F64.isNaN a = false) (hz : F64.isZero a = false)
    (hb : F64.isZero b = true) : F64.div a b = F64.infinity (F64.sign a != F64.sign b) := by
  obtain ⟨hbn, hbi⟩ := F64.not_nan_inf_of_finite (F64.isFinite_of_isZero hb)
  simp [F64.div, hn, hz, hb, hbn, hbi]

end SpecialCases

/-- Settles O31, one lemma for each of R18's special cases. -/
theorem zerosAndInfinitiesFollowR18 : Obligations.ZerosAndInfinitiesFollowR18 := by
  have hzero : (0 : Word64) = F64.zero false := rfl
  refine ⟨by decide, fun a b => ⟨?_, ?_⟩, fun a b ha hb hz => F64.mul_of_zero ha hb hz,
    fun a b ha hb hz => F64.div_of_zero ha hb hz, fun x hx => F64.sub_self hx, ?_, ?_, ?_, ?_,
    fun a b ha hn hz => ?_, fun a b ha hb => ?_, fun a b hn hz hb => F64.div_by_zero hn hz hb⟩
  · exact F64.eq_zero_of_nan_or_sign (F64.mul_nan_or_sign a b)
  · exact F64.eq_zero_of_nan_or_sign (F64.div_nan_or_sign a b)
  · simp [hzero, F64.sub_of_zeros]
  · simp [hzero, F64.sub_of_zeros]
  · simp [hzero, F64.sub_of_zeros]
  · simp [hzero, F64.sub_of_zeros]
  · obtain ⟨hab, hba⟩ := F64.mul_of_inf ha hn hz
    exact ⟨hab, by rw [hba, bne_comm]⟩
  · obtain ⟨hab, hrest⟩ := F64.inf_and_finite ha hb
    exact ⟨hab.trans (F64.eq_infinity_of_isInf ha).symm, hrest⟩

/-! ### The absolute value (O60) -/

/-- Settles O60: bit 63 comes from the zero put in front, every lower bit from the operand. -/
theorem absoluteValueClearsTheSign : Obligations.AbsoluteValueClearsTheSign := by
  intro a i hi
  simp only [F64.abs, BitVec.getLsbD_setWidth, BitVec.getLsbD_append, BitVec.getLsbD_extractLsb']
  by_cases h63 : i = 63
  · simp [h63]
  · have hlow : i < 63 := by omega
    simp [h63, hlow, hi]

/-! ### Narrowing (O34) -/

/-- Truncation toward zero divides the magnitude and keeps the sign. -/
theorem F64.trunc_eq (x : Word64) :
    F64.trunc x = signedNumerator (F64.sign x) (F64.magnitude x / F64.one) := by
  rw [F64.trunc, F64.units_eq]
  cases F64.sign x <;> simp [signedNumerator, Int.neg_tdiv]

/-- A finite pattern narrows to its truncation modulo 256. -/
theorem F64.toByte_of_finite {x : Word64} (hx : F64.isFinite x = true) :
    ((F64.toByte x).toNat : Int) = F64.trunc x % 256 := by
  obtain ⟨hn, hi⟩ := F64.not_nan_inf_of_finite hx
  simp only [F64.toByte, hn, hi, Bool.or_self, Bool.false_eq_true, if_false, BitVec.toNat_ofInt]
  omega

/-- Settles O34 with the truncation `F64.trunc`. -/
theorem narrowingTruncatesModulo256 : Obligations.NarrowingTruncatesModulo256 := by
  intro x
  refine ⟨?special, fun hx => ⟨F64.trunc x, ?below, ?above, ?sign, F64.toByte_of_finite hx⟩⟩
  case special =>
    rintro (h | h) <;> simp [F64.toByte, h]
  case below =>
    rw [F64.trunc_eq, F64.units_eq, abs_signedNumerator, abs_signedNumerator]
    exact_mod_cast Nat.div_mul_le_self _ _
  case above =>
    rw [F64.trunc_eq, F64.units_eq, abs_signedNumerator, abs_signedNumerator, mul_comm]
    exact_mod_cast Nat.lt_mul_div_succ _ F64.one_pos
  case sign =>
    rw [F64.trunc_eq, F64.units_eq, ← signedNumerator_mul, bne_self_eq_false]
    exact Int.natCast_nonneg _

/-! ### Integer images (O35) -/

/-- 1.0 as a power of two, split in two factors. -/
theorem F64.one_eq_mul {j k : Nat} (h : j + k = 1074) : F64.one = 2 ^ j * 2 ^ k := by
  rw [← pow_add, h]
  unfold F64.one
  rfl

/-- Every natural number below `2^32` is the value of a finite pattern: its significand shifted up to 53 bits,
and the exponent that takes the shift back. -/
theorem exists_patternValue_eq {v : Nat} (hv : v < 2 ^ 32) :
    ∃ m < 2047 * 2 ^ 52, v * F64.one = patternValue 53 m := by
  rcases Nat.eq_zero_or_pos v with rfl | hpos
  · exact ⟨0, by norm_num, by rw [patternValue_zero, zero_mul]⟩
  · have hlog : v.log2 < 32 := (Nat.log2_lt hpos.ne').mpr hv
    have hlow : 2 ^ v.log2 ≤ v := Nat.log2_self_le hpos.ne'
    have hhigh : v < 2 ^ (v.log2 + 1) := Nat.lt_log2_self
    generalize v.log2 = e at *
    have hge : 2 ^ 52 ≤ v * 2 ^ (52 - e) :=
      calc 2 ^ 52 = 2 ^ e * 2 ^ (52 - e) := by rw [← pow_add]; congr 1; omega
        _ ≤ v * 2 ^ (52 - e) := Nat.mul_le_mul_right _ hlow
    have hlt : v * 2 ^ (52 - e) < 2 ^ 53 :=
      calc v * 2 ^ (52 - e) < 2 ^ (e + 1) * 2 ^ (52 - e) :=
            Nat.mul_lt_mul_of_pos_right hhigh (by positivity)
        _ = 2 ^ 53 := by rw [← pow_add]; congr 1; omega
    refine ⟨(1022 + e) * 2 ^ (53 - 1) + v * 2 ^ (52 - e), by omega, ?_⟩
    rw [patternValue_of_significand 53 _ _ hlt.le (by norm_num) (Or.inr hge), mul_assoc,
      F64.one_eq_mul (show 52 - e + (1022 + e) = 1074 by omega)]

/-- Settles O35: a representable value is kept as it is. -/
theorem integerImagesAreExact : Obligations.IntegerImagesAreExact := by
  intro v hv
  obtain ⟨m, hm, hval⟩ := exists_patternValue_eq hv
  have hround : roundPattern 53 (v * F64.one) 1 = m :=
    roundPattern_exact 53 _ 1 one_pos (by norm_num) m (by rw [one_mul, hval])
  obtain ⟨hsign, hfinite, -, hpattern⟩ := F64.ofRatio_spec false (v * F64.one) 1
  rw [hround] at hfinite hpattern
  obtain ⟨-, hmag⟩ := hpattern hm
  refine ⟨hfinite.mpr hm, ?_⟩
  rw [F64.ofNat, F64.units_eq, hsign, hmag, ← hval]
  exact Nat.cast_mul _ _

/-! ### Real values of binary64 patterns (R16) -/

theorem signedNumerator_cast (neg : Bool) (n : Nat) :
    (signedNumerator neg n : ℚ) = (if neg then -1 else 1) * n := by
  cases neg <;> simp [signedNumerator]

theorem inv_two_pow_cast (n : Nat) : (((2 ^ n : ℕ) : ℚ))⁻¹ = (2 : ℚ) ^ (-n : ℤ) := by
  rw [zpow_neg, zpow_natCast, Nat.cast_pow, Nat.cast_ofNat]

/-- The least unit of binary64 is `2^-1074` (R16). -/
theorem F64.one_inv : (F64.one : ℚ)⁻¹ = (2 : ℚ) ^ (-1074 : ℤ) := by
  unfold F64.one
  exact inv_two_pow_cast 1074

/-- A normal pattern's power of two: its biased exponent over the least unit `2^-u`. -/
theorem two_pow_pred_mul {e : Nat} (he : 1 ≤ e) (u : ℤ) :
    (2 : ℚ) ^ (e - 1) * (2 : ℚ) ^ (-u) = (2 : ℚ) ^ ((e : ℤ) - (u + 1)) := by
  rw [← zpow_natCast, ← zpow_add₀ two_ne_zero, Nat.cast_sub he]
  congr 1
  push_cast
  ring

theorem F64.units_of_subnormal {p : Word64} (h : F64.exponent p = 0) :
    (F64.units p : ℚ) / F64.one =
      (if F64.sign p then -1 else 1) * F64.fraction p * (2 : ℚ) ^ (-1074 : ℤ) := by
  rw [F64.units_eq, signedNumerator_cast, F64.magnitude, if_pos h, div_eq_mul_inv, F64.one_inv]

theorem F64.units_of_normal {p : Word64} (h : 1 ≤ F64.exponent p) :
    (F64.units p : ℚ) / F64.one = (if F64.sign p then -1 else 1) * (2 ^ 52 + F64.fraction p) *
      (2 : ℚ) ^ ((F64.exponent p : ℤ) - 1075) := by
  have hpow := two_pow_pred_mul h 1074
  rw [F64.units_eq, signedNumerator_cast, F64.magnitude, if_neg (Nat.one_le_iff_ne_zero.mp h),
    div_eq_mul_inv, F64.one_inv, show (1075 : ℤ) = 1074 + 1 by norm_num, ← hpow]
  generalize (2 : ℚ) ^ (-1074 : ℤ) = unit
  push_cast
  ring

/-! ### The order of the real values (R20) -/

/-- The count of units at which the magnitude of an infinity is put, beyond every finite value. -/
def F64.infinityUnits : Int := patternValue 53 (2047 * 2 ^ 52)

theorem F64.infinityUnits_pos : 0 < F64.infinityUnits := by
  have h := patternValue_strictMono 53 (show 0 < 2047 * 2 ^ 52 by norm_num)
  rw [patternValue_zero] at h
  exact Int.natCast_pos.mpr h

theorem F64.magnitude_of_isInf {p : Word64} (h : F64.isInf p = true) :
    (F64.magnitude p : Int) = F64.infinityUnits := by
  rw [F64.magnitude_eq, (F64.isInf_iff p).mp h, F64.infinityUnits]

theorem F64.abs_units_lt_of_finite {p : Word64} (h : F64.isFinite p = true) :
    |F64.units p| < F64.infinityUnits := by
  rw [F64.units_eq, abs_signedNumerator, F64.magnitude_eq]
  exact Int.ofNat_lt.mpr (patternValue_strictMono 53 ((F64.isFinite_iff p).mp h))

/-- A pattern that is no NaN is `-infinity`, finite or `+infinity`, and its count of units is at the lower
bound, between the bounds or at the upper one. -/
theorem F64.extended_cases {p : Word64} (hn : F64.isNaN p = false) :
    (F64.extended p = ⊥ ∧ F64.units p = -F64.infinityUnits) ∨
    (F64.extended p = ((F64.units p : WithTop Int) : WithBot (WithTop Int)) ∧
      -F64.infinityUnits < F64.units p ∧ F64.units p < F64.infinityUnits) ∨
    (F64.extended p = ((⊤ : WithTop Int) : WithBot (WithTop Int)) ∧
      F64.units p = F64.infinityUnits) := by
  cases hi : F64.isInf p with
  | true =>
    cases hs : F64.sign p
    · exact Or.inr (Or.inr ⟨by simp [F64.extended, hi, hs],
        by simp [F64.units, hs, F64.magnitude_of_isInf hi]⟩)
    · exact Or.inl ⟨by simp [F64.extended, hi, hs],
        by simp [F64.units, hs, F64.magnitude_of_isInf hi]⟩
  | false =>
    have hfinite := F64.isFinite_of_not_nan_inf hn hi
    exact Or.inr (Or.inl ⟨by simp [F64.extended, hi], abs_lt.mp (F64.abs_units_lt_of_finite hfinite)⟩)

/-- The counts of units are in the order of the values on R20's line. -/
theorem F64.extended_lt_iff {a b : Word64} (ha : F64.isNaN a = false) (hb : F64.isNaN b = false) :
    F64.extended a < F64.extended b ↔ F64.units a < F64.units b := by
  have hpos := F64.infinityUnits_pos
  have below (u : Int) : ((u : WithTop Int) : WithBot (WithTop Int)) < ((⊤ : WithTop Int) :) :=
    WithBot.coe_lt_coe.mpr (WithTop.coe_lt_top u)
  rcases F64.extended_cases ha with ⟨ea, ua⟩ | ⟨ea, la, ua⟩ | ⟨ea, ua⟩
  · rcases F64.extended_cases hb with ⟨eb, ub⟩ | ⟨eb, lb, ub⟩ | ⟨eb, ub⟩ <;> rw [ea, eb]
    · exact iff_of_false (lt_irrefl _) (by omega)
    · exact iff_of_true (WithBot.bot_lt_coe _) (by omega)
    · exact iff_of_true (WithBot.bot_lt_coe _) (by omega)
  · rcases F64.extended_cases hb with ⟨eb, ub⟩ | ⟨eb, lb, ub⟩ | ⟨eb, ub⟩ <;> rw [ea, eb]
    · exact iff_of_false not_lt_bot (by omega)
    · exact WithBot.coe_lt_coe.trans WithTop.coe_lt_coe
    · exact iff_of_true (below _) (by omega)
  · rcases F64.extended_cases hb with ⟨eb, ub⟩ | ⟨eb, lb, ub⟩ | ⟨eb, ub⟩ <;> rw [ea, eb]
    · exact iff_of_false not_lt_bot (by omega)
    · exact iff_of_false (below _).not_gt (by omega)
    · exact iff_of_false (lt_irrefl _) (by omega)

theorem F64.extended_eq_iff {a b : Word64} (ha : F64.isNaN a = false) (hb : F64.isNaN b = false) :
    F64.extended a = F64.extended b ↔ F64.units a = F64.units b := by
  rw [le_antisymm_iff, le_antisymm_iff, ← not_lt, ← not_lt, ← not_lt, ← not_lt,
    F64.extended_lt_iff ha hb, F64.extended_lt_iff hb ha]

/-- With a NaN all three comparisons are false. -/
theorem F64.compare_of_nan {a b : Word64} (h : F64.isNaN a = true ∨ F64.isNaN b = true) :
    F64.lt a b = false ∧ F64.gt a b = false ∧ F64.eq a b = false := by
  rcases h with h | h <;> simp [F64.lt, F64.gt, F64.eq, h]

/-- Without a NaN the comparisons are those of the counts of units. -/
theorem F64.compare_of_not_nan {a b : Word64} (ha : F64.isNaN a = false) (hb : F64.isNaN b = false) :
    (F64.lt a b = true ↔ F64.units a < F64.units b) ∧
    (F64.gt a b = true ↔ F64.units b < F64.units a) ∧
    (F64.eq a b = true ↔ F64.units a = F64.units b) := by
  simp [F64.lt, F64.gt, F64.eq, ha, hb]

/-- Settles O32: the comparisons compare counts of units, which are ordered as R20's line is. -/
theorem comparisonsOrderTheRealValues : Obligations.ComparisonsOrderTheRealValues := by
  refine ⟨?classes, fun a b => F64.compare_of_nan, fun a b ha hb => ?order, fun z z' hz hz' => ?zeros⟩
  case classes =>
    rintro p e f rfl rfl
    have hexp : F64.exponent p < 2 ^ 11 := (p.extractLsb' 52 11).isLt
    refine ⟨rfl, ?_, ?_, ?_, ?_, F64.units_of_subnormal, fun h _ => F64.units_of_normal h⟩ <;>
      simp only [F64.isZero, F64.isFinite, F64.isInf, F64.isNaN, Bool.and_eq_true, decide_eq_true_eq]
    · exact Iff.rfl
    · change F64.exponent p ≠ 2047 ↔ F64.exponent p ≤ 2046
      omega
    · exact Iff.rfl
    · exact Iff.rfl
  case order =>
    rw [F64.extended_lt_iff ha hb, F64.extended_lt_iff hb ha, F64.extended_eq_iff ha hb]
    exact F64.compare_of_not_nan ha hb
  case zeros =>
    obtain ⟨hn, -⟩ := F64.not_nan_inf_of_finite (F64.isFinite_of_isZero hz)
    obtain ⟨hn', -⟩ := F64.not_nan_inf_of_finite (F64.isFinite_of_isZero hz')
    simp [F64.lt, F64.gt, F64.eq, hn, hn', F64.units_of_isZero hz, F64.units_of_isZero hz']

/-! ### Binary32 patterns (R17) -/

/-- A binary32 pattern from a sign and the pattern of its magnitude. -/
def F32.withSign (neg : Bool) (mag : Nat) : Word32 :=
  BitVec.ofNat 32 (mag + if neg then 2 ^ 31 else 0)

section Binary32

variable (q : Word32)

theorem F32.sign_eq : q.getLsbD 31 = decide (2 ^ 31 ≤ q.toNat) := by
  have := q.isLt
  rw [BitVec.getLsbD, Nat.testBit_eq_decide_div_mod_eq]
  congr 1
  apply propext
  constructor <;> intro h <;> omega

theorem F32.exponent_eq : (q.extractLsb' 23 8).toNat = q.toNat % 2 ^ 31 / 2 ^ 23 := by
  have := q.isLt
  rw [BitVec.extractLsb'_toNat, Nat.shiftRight_eq_div_pow]
  omega

theorem F32.fraction_eq : (q.extractLsb' 0 23).toNat = q.toNat % 2 ^ 31 % 2 ^ 23 := by
  rw [BitVec.extractLsb'_toNat, Nat.shiftRight_zero]
  omega

theorem F32.isFinite_iff : F32.isFinite q = true ↔ q.toNat % 2 ^ 31 < 255 * 2 ^ 23 := by
  rw [F32.isFinite, F32.exponent_eq, decide_eq_true_eq]
  omega

/-- The value of a pattern is its sign over the value of the pattern without its sign. -/
theorem F32.units_eq :
    F32.units q = signedNumerator (q.getLsbD 31) (patternValue 24 (q.toNat % 2 ^ 31)) := by
  have hmag : (if (q.extractLsb' 23 8).toNat = 0 then ((q.extractLsb' 0 23).toNat : Int)
      else ((2 ^ 23 + (q.extractLsb' 0 23).toNat : Nat) : Int) *
        2 ^ ((q.extractLsb' 23 8).toNat - 1)) = patternValue 24 (q.toNat % 2 ^ 31) := by
    rw [F32.exponent_eq, F32.fraction_eq, patternValue]
    by_cases h : q.toNat % 2 ^ 31 < 2 ^ 23
    · rw [if_pos (by omega), if_pos h, Nat.mod_eq_of_lt h]
    · rw [if_neg (by omega), if_neg h]
      push_cast
      rfl
  rw [F32.units, hmag]
  cases q.getLsbD 31 <;> simp [signedNumerator]

theorem F32.withSign_toNat (neg : Bool) {m : Nat} (h : m < 2 ^ 31) :
    (F32.withSign neg m).toNat = m + if neg then 2 ^ 31 else 0 := by
  rw [F32.withSign, BitVec.toNat_ofNat, Nat.mod_eq_of_lt]
  split_ifs <;> omega

theorem F32.withSign_mod (neg : Bool) {m : Nat} (h : m < 2 ^ 31) :
    (F32.withSign neg m).toNat % 2 ^ 31 = m := by
  rw [F32.withSign_toNat neg h]
  split_ifs <;> omega

theorem F32.sign_withSign (neg : Bool) {m : Nat} (h : m < 2 ^ 31) :
    (F32.withSign neg m).getLsbD 31 = neg := by
  rw [F32.sign_eq, F32.withSign_toNat neg h]
  cases neg
  · simpa using h
  · simp

theorem F32.eq_withSign : q = F32.withSign (q.getLsbD 31) (q.toNat % 2 ^ 31) := by
  have hlt := q.isLt
  apply BitVec.eq_of_toNat_eq
  rw [F32.withSign_toNat _ (Nat.mod_lt _ (by norm_num)), F32.sign_eq]
  split_ifs with h
  · have := of_decide_eq_true h; omega
  · have := mt decide_eq_true h; omega

end Binary32

/-! ### Real values of binary32 patterns (R17) -/

theorem F64.one_eq_perF32Unit : F64.one = 2 ^ 149 * F64.perF32Unit := by
  rw [F64.one_eq_mul (show 149 + 925 = 1074 by norm_num)]
  unfold F64.perF32Unit
  rfl

/-- The least unit of binary32 is `2^-149` (R17). -/
theorem F64.perF32Unit_div_one : (F64.perF32Unit : ℚ) / F64.one = (2 : ℚ) ^ (-149 : ℤ) := by
  have hne : (F64.perF32Unit : ℚ) ≠ 0 := Nat.cast_ne_zero.mpr F64.perF32Unit_pos.ne'
  rw [F64.one_eq_perF32Unit, Nat.cast_mul, div_mul_cancel_right₀ hne]
  exact inv_two_pow_cast 149

theorem F32.units_of_subnormal {q : Word32} (h : (q.extractLsb' 23 8).toNat = 0) :
    (F32.units q * F64.perF32Unit : ℚ) / F64.one =
      (if q.getLsbD 31 then -1 else 1) * (q.extractLsb' 0 23).toNat * (2 : ℚ) ^ (-149 : ℤ) := by
  rw [mul_div_assoc, F64.perF32Unit_div_one, F32.units, if_pos h]
  generalize (2 : ℚ) ^ (-149 : ℤ) = unit
  push_cast
  rfl

theorem F32.units_of_normal {q : Word32} (h : 1 ≤ (q.extractLsb' 23 8).toNat) :
    (F32.units q * F64.perF32Unit : ℚ) / F64.one =
      (if q.getLsbD 31 then -1 else 1) * (2 ^ 23 + (q.extractLsb' 0 23).toNat) *
        (2 : ℚ) ^ (((q.extractLsb' 23 8).toNat : ℤ) - 150) := by
  rw [mul_div_assoc, F64.perF32Unit_div_one, F32.units, if_neg (Nat.one_le_iff_ne_zero.mp h),
    show (150 : ℤ) = 149 + 1 by norm_num, ← two_pow_pred_mul h 149]
  generalize (2 : ℚ) ^ (-149 : ℤ) = unit
  push_cast
  ring

/-! ### The conversion to binary32 (O33) -/

/-- Rounding to nearest, ties to even, with the sign put back: no signed value of the format is nearer. -/
theorem roundPattern_nearest_signed (p n d : Nat) (hd : 0 < d) (hp : 2 ≤ p) (neg neg' : Bool) (m : Nat) :
    |signedNumerator neg n - signedNumerator neg (patternValue p (roundPattern p n d)) * d| ≤
      |signedNumerator neg n - signedNumerator neg' (patternValue p m) * d| ∧
    (|signedNumerator neg n - signedNumerator neg (patternValue p (roundPattern p n d)) * d| =
      |signedNumerator neg n - signedNumerator neg' (patternValue p m) * d| →
      (neg' = neg → m ≠ roundPattern p n d) → roundPattern p n d % 2 = 0) := by
  have same (v : Nat) : |signedNumerator neg n - signedNumerator neg v * d| = |(n : ℤ) - d * v| := by
    cases neg
    · simp [signedNumerator, mul_comm]
    · rw [← abs_neg]; congr 1; simp [signedNumerator]; ring
  have near := roundPattern_nearest p n d hd hp
  rw [same]
  by_cases hsign : neg' = neg
  · subst hsign
    rw [same]
    exact ⟨(near m).1, fun heq hne => (near m).2 heq (hne rfl)⟩
  · have opposite : |signedNumerator neg n - signedNumerator neg' (patternValue p m) * d| =
        n + patternValue p m * d := by
      have hsign' : neg' = !neg := Bool.eq_not.mpr hsign
      have hnn : (0 : ℤ) ≤ n + patternValue p m * d := by positivity
      rw [hsign', ← abs_of_nonneg hnn]
      cases neg
      · simp [signedNumerator]
      · rw [← abs_neg]; congr 1; simp [signedNumerator]; ring
    obtain ⟨hzero, heven⟩ := near 0
    have hnn : (0 : ℤ) ≤ patternValue p m * d := by positivity
    rw [patternValue_zero, Nat.cast_zero, mul_zero, sub_zero, Nat.abs_cast] at hzero heven
    rw [opposite]
    refine ⟨by linarith, fun heq _ => ?_⟩
    by_cases h0 : roundPattern p n d = 0
    · rw [h0]
    · exact heven (by linarith) (Ne.symm h0)

/-- The binary32 pattern, without sign, that a binary64 pattern rounds to. -/
def F64.rounded32 (x : Word64) : Nat := roundPattern 24 (F64.magnitude x) F64.perF32Unit

/-- The conversion of a finite value rounds its magnitude, a zero like any other (R22). -/
theorem F64.toF32_of_finite {x : Word64} (hx : F64.isFinite x = true) :
    F64.toF32 x = if 255 * 2 ^ 23 ≤ F64.rounded32 x then none
      else some (F32.withSign (F64.sign x) (F64.rounded32 x)) := by
  obtain ⟨hn, hi⟩ := F64.not_nan_inf_of_finite hx
  unfold F64.toF32
  simp only [hn, hi, Bool.false_eq_true, if_false]
  cases hz : F64.isZero x with
  | true =>
    have h0 : F64.rounded32 x = 0 :=
      roundPattern_exact 24 _ _ F64.perF32Unit_pos (by norm_num) 0
        (by rw [(F64.magnitude_eq_zero_iff x).mpr hz, patternValue_zero, mul_zero])
    rw [h0, if_neg (show ¬ 255 * 2 ^ 23 ≤ 0 by norm_num)]
    cases F64.sign x <;> rfl
  | false =>
    simp only [Bool.false_eq_true, if_false]
    rfl

/-- Half way between the largest finite binary32 value and the value its infinity's pattern would have. -/
theorem F64.toF32Bound_eq : 2 * ((2 ^ 128 - 2 ^ 103) * F64.one) =
    F64.perF32Unit * (patternValue 24 (255 * 2 ^ 23 - 1) + patternValue 24 (255 * 2 ^ 23)) := by
  have hsum : 2 * ((2 ^ 128 - 2 ^ 103) * 2 ^ 149) =
      patternValue 24 (255 * 2 ^ 23 - 1) + patternValue 24 (255 * 2 ^ 23) := by decide
  rw [F64.one_eq_perF32Unit, ← hsum, Nat.mul_comm F64.perF32Unit, mul_assoc, mul_assoc]

/-- Overflow of the conversion (R22). -/
theorem F64.rounded32_overflow_iff (x : Word64) :
    255 * 2 ^ 23 ≤ F64.rounded32 x ↔ (2 ^ 128 - 2 ^ 103) * F64.one ≤ F64.magnitude x := by
  have h := roundPattern_le_iff_of_odd 24 (F64.magnitude x) F64.perF32Unit F64.perF32Unit_pos
    (by norm_num) (255 * 2 ^ 23 - 1) (by norm_num)
  rw [show 255 * 2 ^ 23 - 1 + 1 = 255 * 2 ^ 23 by norm_num, ← F64.toF32Bound_eq] at h
  generalize (2 ^ 128 - 2 ^ 103) * F64.one = bound at *
  unfold F64.rounded32
  omega

/-- What a converted pattern is: finite, with the sign of the operand over the rounded magnitude. -/
theorem F64.eq_withSign_of_toF32 {x : Word64} {p : Word32} (hx : F64.isFinite x = true)
    (h : F64.toF32 x = some p) :
    F64.rounded32 x < 255 * 2 ^ 23 ∧ p = F32.withSign (F64.sign x) (F64.rounded32 x) := by
  rw [F64.toF32_of_finite hx] at h
  split_ifs at h with hlt
  exact ⟨not_le.mp hlt, (Option.some.inj h).symm⟩

/-- A converted pattern is a nearest binary32 value, the even one on a tie. -/
theorem F64.toF32_nearest {x : Word64} {p : Word32} (hx : F64.isFinite x = true)
    (h : F64.toF32 x = some p) (q : Word32) :
    |F64.units x - F32.units p * F64.perF32Unit| ≤ |F64.units x - F32.units q * F64.perF32Unit| ∧
    (|F64.units x - F32.units p * F64.perF32Unit| = |F64.units x - F32.units q * F64.perF32Unit| →
      q ≠ p → p.getLsbD 0 = false) := by
  obtain ⟨hlt, rfl⟩ := F64.eq_withSign_of_toF32 hx h
  have hlt' : F64.rounded32 x < 2 ^ 31 := by omega
  have hmod := F32.withSign_mod (F64.sign x) hlt'
  obtain ⟨hle, heven⟩ := roundPattern_nearest_signed 24 (F64.magnitude x) F64.perF32Unit
    F64.perF32Unit_pos (by norm_num) (F64.sign x) (q.getLsbD 31) (q.toNat % 2 ^ 31)
  rw [F64.units_eq, F32.units_eq, F32.units_eq q, F32.sign_withSign _ hlt', hmod]
  refine ⟨hle, fun heq hne => ?_⟩
  have hbit : F64.rounded32 x % 2 = 0 := heven heq fun hsign hmag => hne <| by
    rw [F32.eq_withSign q, hsign, hmag, F64.rounded32]
  rw [BitVec.getLsbD, Nat.testBit_zero, decide_eq_false_iff_not]
  omega

/-- Settles O33: a finite value converts to its sign over its rounded magnitude. -/
theorem conversionToBinary32RoundsAndOverflows :
    Obligations.ConversionToBinary32RoundsAndOverflows := by
  refine ⟨?patterns, fun x => ⟨?nan, ?inf, ?zero, ?overflow, ?nearest⟩⟩
  case patterns =>
    rintro q e f rfl rfl
    refine ⟨?_, F32.units_of_subnormal, fun h _ => F32.units_of_normal h⟩
    have := (q.extractLsb' 23 8).isLt
    rw [F32.isFinite, decide_eq_true_eq]
    omega
  case nan =>
    intro h
    simp [F64.toF32, h, Config.nan32]
  case inf =>
    intro h
    simp [F64.toF32, h, F64.isNaN_of_isInf h]
  case zero =>
    intro h
    obtain ⟨hn, hi⟩ := F64.not_nan_inf_of_finite (F64.isFinite_of_isZero h)
    simp [F64.toF32, h, hn, hi]
  case overflow =>
    intro hx
    rw [F64.toF32_of_finite hx, ← F64.rounded32_overflow_iff]
    by_cases h : 255 * 2 ^ 23 ≤ F64.rounded32 x
    · rw [if_pos h]; exact iff_of_true rfl h
    · rw [if_neg h]; exact iff_of_false (Option.some_ne_none _) h
  case nearest =>
    intro p q hx hp _
    obtain ⟨hlt, heq⟩ := F64.eq_withSign_of_toF32 hx hp
    have hlt' : F64.rounded32 x < 2 ^ 31 := by omega
    refine ⟨?_, ?_, F64.toF32_nearest hx hp q⟩
    · rw [F32.isFinite_iff, heq, F32.withSign_mod _ hlt']
      exact hlt
    · rw [heq, F32.sign_withSign _ hlt']

end Sys2Proof.Machine

/-! PROOFS. The registers (O5, O9 to O12, O14, O16, O17, O26): the ports and the reset first, then the
table of what each command may write with the one lemma on what a command can end in, then the statements
that read the table. -/

namespace Sys2Proof.Machine

open Sys2Proof

/-! ### The ports (R40) -/

/-- A step is the oldest pending access, at the state with it taken off the inputs (R150). -/
theorem step_of_inputs {s : State} {a : HostAccess} {rest : List HostAccess}
    (h : s.inputs = a :: rest) : step s = hostAccess a (s.setInputs rest) := by
  simp [step, h]

/-- A command's word is issued as that command (R71). -/
theorem issue_of_decode {c : Word32} {i : Instr} (h : decode c = .ok i) (s : State) :
    issue c s = exec i s := by
  simp [issue, h]

/-- Settles O5: the access is taken off the inputs, and its word is issued as the command. -/
theorem stepRunsTheDecodedCommand : Obligations.StepRunsTheDecodedCommand := by
  intro s c rest i hinputs hdecode
  rw [step_of_inputs hinputs]
  exact issue_of_decode hdecode _

/-- Settles O9: each access is what `hostAccess` makes of it. -/
theorem portsAnswerTheHost : Obligations.PortsAnswerTheHost := fun _ _ =>
  ⟨fun _ => step_of_inputs, step_of_inputs, step_of_inputs, step_of_inputs, fun _ => step_of_inputs,
    step_of_inputs, fun _ => step_of_inputs, fun _ => step_of_inputs⟩

/-! ### Reset (R43, R139) -/

/-- The registers of the launch state have their reset values, whatever the fields R43 does not speak of. -/
theorem atResetValues_launch (capacity launches : Nat) (inputs : List HostAccess) :
    AtResetValues { State.reset with bufcap := capacity, launches := launches, inputs := inputs } where
  data := rfl
  err := rfl
  erridx := rfl
  gv := rfl
  gvar := rfl
  gn := rfl
  gval := rfl
  gpar := rfl
  weights i j := by simp [State.reset]
  biases i := by simp [State.reset]
  wlen := rfl
  status := show State.reset.status = 0 by decide
  aux := show State.reset.aux = 0 by decide

/-- Settles O12: State.reset and the state a reset leaves differ in the model's own fields only. -/
theorem resetLeavesTheLaunchState : Obligations.ResetLeavesTheLaunchState :=
  ⟨atResetValues_launch _ _ _, fun _ _ hinputs =>
    ⟨_, step_of_inputs hinputs, atResetValues_launch _ _ _, rfl, rfl⟩⟩

/-! ### Canonical memories (R44) -/

/-- `risesFrom` with a lower bound is the library's chain, headed by the bound. -/
theorem Memory.risesFrom_some_iff {α : Type} (m : Memory α) (l : Nat) :
    Memory.risesFrom (some l) m = true ↔ (l :: m.map Prod.fst).IsChain (· < ·) := by
  induction m generalizing l with
  | nil => simp [Memory.risesFrom]
  | cons cell rest ih => simp [Memory.risesFrom, ih]

/-- In a canonical memory the listed addresses rise strictly. -/
theorem Memory.wf_iff_pairwise {α : Type} (m : Memory α) :
    Memory.wf m = true ↔ (m.map Prod.fst).Pairwise (· < ·) := by
  rw [← List.isChain_iff_pairwise]
  cases m with
  | nil => simp [Memory.wf, Memory.risesFrom]
  | cons cell rest => simp [Memory.wf, Memory.risesFrom, Memory.risesFrom_some_iff]

theorem Memory.below_iff {α : Type} (cap : Nat) (m : Memory α) :
    Memory.below cap m = true ↔ ∀ cell ∈ m, cell.1 < cap := by
  simp [Memory.below]

/-- The launch state meets the invariant: empty memories, no generator, the recommended capacity. -/
theorem State.reset_inv : State.reset.Inv := by
  constructor <;> decide

/-- Settles O14: the memory clauses of the invariant, read as facts on the listed addresses. -/
theorem resetSatisfiesTheInvariant : Obligations.ResetSatisfiesTheInvariant :=
  ⟨State.reset_inv, fun s hs =>
    ⟨(Memory.wf_iff_pairwise s.buf).mp hs.bufCanonical, (Memory.below_iff _ _).mp hs.bufInside,
      (Memory.wf_iff_pairwise s.win).mp hs.winCanonical, (Memory.below_iff _ _).mp hs.winInside,
      hs.windowLength⟩⟩

/-! ### The fields of STATUS and AUX (R29, R30) -/

section Views

variable (s : State)

theorem State.status_err : s.status.extractLsb' 0 4 = errBits s.err := by
  ext i hi
  simp only [State.status, BitVec.getElem_extractLsb', BitVec.getLsbD_setWidth, BitVec.getLsbD_append]
  interval_cases i <;> simp

theorem State.status_gv : s.status.getLsbD 4 = s.gv := by
  simp only [State.status, BitVec.getLsbD_setWidth, BitVec.getLsbD_append]
  simp

theorem State.status_gvar : s.status.getLsbD 5 = decide (s.gvar = .log) := by
  simp only [State.status, BitVec.getLsbD_setWidth, BitVec.getLsbD_append]
  cases h : s.gvar <;> simp [variantBit]

theorem State.status_gn : s.status.extractLsb' 6 6 = s.gn := by
  ext i hi
  simp only [State.status, BitVec.getElem_extractLsb', BitVec.getLsbD_setWidth, BitVec.getLsbD_append]
  interval_cases i <;> simp

theorem State.status_high : s.status.extractLsb' 12 20 = 0 := by
  ext i hi
  simp only [State.status, BitVec.getElem_extractLsb', BitVec.getLsbD_setWidth, BitVec.getLsbD_append]
  interval_cases i <;> simp

theorem State.aux_erridx : s.aux.extractLsb' 0 16 = s.erridx := by
  ext i hi
  simp only [State.aux, BitVec.getElem_extractLsb', BitVec.getLsbD_setWidth, BitVec.getLsbD_append]
  interval_cases i <;> simp

theorem State.aux_wlen : s.aux.extractLsb' 16 16 = s.wlen := by
  ext i hi
  simp only [State.aux, BitVec.getElem_extractLsb', BitVec.getLsbD_setWidth, BitVec.getLsbD_append]
  interval_cases i <;> simp

end Views
/-! ### What each command may write (R33 to R39) -/

/-- The registers, those written together being one, and the two memories (R27 to R39). -/
inductive Register where
  /-- ERR and ERRIDX. -/
  | error
  | data
  /-- GV, GVAR and GN. -/
  | generator
  | gval
  | gpar
  /-- W and B. -/
  | perceptron
  | win
  | wlen
  | buf

/-- What the windows of a transform's mode write: WindowNormalized alone draws some (R100). -/
def windowRegisters (mode : Mode) : List Register :=
  if mode = .windowNormalized then [.win, .wlen] else []

/-- What a command may write besides ERR and ERRIDX. -/
def registersWritten (i : Instr) : List Register :=
  match i with
  | .clre => []
  | .gnewi _ => [.generator, .gval, .gpar]
  | .gnewl => [.generator, .gval, .gpar]
  | .gnext => [.gval, .data]
  | .ggetv => [.data]
  | .gsetv => [.gval]
  | .ggetp => [.data]
  | .gsetp => [.gpar]
  | .mext => [.data]
  | .wsetl _ => [.wlen]
  | .wwr _ => [.win]
  | .wrd _ => [.data]
  | .wfill _ => [.gval, .win, .wlen]
  | .wnorm _ => [.data]
  | .wnormv => [.data]
  | .preseed => [.perceptron]
  | .peval => [.data]
  | .prdw _ => [.data]
  | .prdb => [.data]
  | .bwr _ _ => [.buf]
  | .brd _ => [.data]
  | .xtr mode _ => .gval :: .buf :: windowRegisters mode
  | .ptr mode _ => .gval :: .buf :: .perceptron :: windowRegisters mode

/-! ### The table read register by register -/

section Table

variable {i : Instr}

@[simp] theorem error_not_mem_registersWritten : .error ∉ registersWritten i := by
  cases i <;> simp [registersWritten, windowRegisters]

@[simp] theorem generator_mem_registersWritten :
    .generator ∈ registersWritten i ↔ (∃ n, i = .gnewi n) ∨ i = .gnewl := by
  cases i <;> simp [registersWritten, windowRegisters]

@[simp] theorem gval_mem_registersWritten :
    .gval ∈ registersWritten i ↔ (∃ n, i = .gnewi n) ∨ i = .gnewl ∨ i = .gnext ∨ i = .gsetv ∨
      (∃ k, i = .wfill k) ∨ (∃ m len, i = .xtr m len) ∨ ∃ m len, i = .ptr m len := by
  cases i <;> simp [registersWritten, windowRegisters]

@[simp] theorem gpar_mem_registersWritten :
    .gpar ∈ registersWritten i ↔ (∃ n, i = .gnewi n) ∨ i = .gnewl ∨ i = .gsetp := by
  cases i <;> simp [registersWritten, windowRegisters]

@[simp] theorem perceptron_mem_registersWritten :
    .perceptron ∈ registersWritten i ↔ i = .preseed ∨ ∃ m len, i = .ptr m len := by
  cases i <;> simp [registersWritten, windowRegisters]

@[simp] theorem win_mem_registersWritten :
    .win ∈ registersWritten i ↔ (∃ k, i = .wwr k) ∨ (∃ k, i = .wfill k) ∨
      (∃ len, i = .xtr .windowNormalized len) ∨ ∃ len, i = .ptr .windowNormalized len := by
  cases i <;> simp [registersWritten, windowRegisters]

@[simp] theorem wlen_mem_registersWritten :
    .wlen ∈ registersWritten i ↔ (∃ k, i = .wsetl k) ∨ (∃ k, i = .wfill k) ∨
      (∃ len, i = .xtr .windowNormalized len) ∨ ∃ len, i = .ptr .windowNormalized len := by
  cases i <;> simp [registersWritten, windowRegisters]

@[simp] theorem buf_mem_registersWritten :
    .buf ∈ registersWritten i ↔
      (∃ a x, i = .bwr a x) ∨ (∃ m len, i = .xtr m len) ∨ ∃ m len, i = .ptr m len := by
  cases i <;> simp [registersWritten, windowRegisters]

@[simp] theorem data_mem_registersWritten :
    .data ∈ registersWritten i ↔ i = .gnext ∨ i = .ggetv ∨ i = .ggetp ∨ i = .mext ∨
      (∃ k, i = .wrd k) ∨ (∃ k, i = .wnorm k) ∨ i = .wnormv ∨ i = .peval ∨ (∃ row, i = .prdw row) ∨
      i = .prdb ∨ ∃ k, i = .brd k := by
  cases i <;> simp [registersWritten, windowRegisters]

end Table

/-! ### Writing only some registers -/

/-- From `s` to `t` only the registers of `ws` may have changed; the capacity, the launch counter and the
host's side have not. -/
structure State.WritesOnly (ws : List Register) (s t : State) : Prop where
  error : .error ∉ ws → t.err = s.err ∧ t.erridx = s.erridx
  data : .data ∉ ws → t.data = s.data
  generator : .generator ∉ ws → t.gv = s.gv ∧ t.gvar = s.gvar ∧ t.gn = s.gn
  gval : .gval ∉ ws → t.gval = s.gval
  gpar : .gpar ∉ ws → t.gpar = s.gpar
  perceptron : .perceptron ∉ ws → t.w = s.w ∧ t.b = s.b
  win : .win ∉ ws → t.win = s.win
  wlen : .wlen ∉ ws → t.wlen = s.wlen
  buf : .buf ∉ ws → t.buf = s.buf
  bufcap : t.bufcap = s.bufcap
  launches : t.launches = s.launches
  inputs : t.inputs = s.inputs
  reply : t.reply = s.reply

/-- Deriving a keystream byte writes only registers of `ws`, and an error it raises is a non-zero code. -/
def Derived.WritesOnly (ws : List Register) (s : State) : Derived → Prop
  | .byte _ t => s.WritesOnly ws t
  | .raised e _ t => e ≠ .ok ∧ s.WritesOnly ws t

namespace State.WritesOnly

variable {ws : List Register} {s t : State}

theorem refl (ws : List Register) (s : State) : s.WritesOnly ws s :=
  ⟨fun _ => ⟨rfl, rfl⟩, fun _ => rfl, fun _ => ⟨rfl, rfl, rfl⟩, fun _ => rfl, fun _ => rfl,
    fun _ => ⟨rfl, rfl⟩, fun _ => rfl, fun _ => rfl, fun _ => rfl, rfl, rfl, rfl, rfl⟩

/-- A register allowed once more changes nothing. -/
theorem cons (h : s.WritesOnly ws t) (r : Register) : s.WritesOnly (r :: ws) t where
  error hr := h.error (mt (List.mem_cons_of_mem r) hr)
  data hr := h.data (mt (List.mem_cons_of_mem r) hr)
  generator hr := h.generator (mt (List.mem_cons_of_mem r) hr)
  gval hr := h.gval (mt (List.mem_cons_of_mem r) hr)
  gpar hr := h.gpar (mt (List.mem_cons_of_mem r) hr)
  perceptron hr := h.perceptron (mt (List.mem_cons_of_mem r) hr)
  win hr := h.win (mt (List.mem_cons_of_mem r) hr)
  wlen hr := h.wlen (mt (List.mem_cons_of_mem r) hr)
  buf hr := h.buf (mt (List.mem_cons_of_mem r) hr)
  bufcap := h.bufcap
  launches := h.launches
  inputs := h.inputs
  reply := h.reply

/-! ### One rule per update -/

theorem setErr (h : s.WritesOnly ws t) (e : ErrCode) (hr : .error ∈ ws) :
    s.WritesOnly ws (t.setErr e) := { h with error := absurd hr }

theorem raise (h : s.WritesOnly ws t) (e : ErrCode) (i : Nat) (hr : .error ∈ ws) :
    s.WritesOnly ws (raise e i t) := { h with error := absurd hr }

theorem setData (h : s.WritesOnly ws t) (v : Word64) (hr : .data ∈ ws) :
    s.WritesOnly ws (t.setData v) := { h with data := absurd hr }

theorem setGen (h : s.WritesOnly ws t) (var : Variant) (n : BitVec 6) (hr : .generator ∈ ws) :
    s.WritesOnly ws (t.setGen var n) := { h with generator := absurd hr }

theorem setGval (h : s.WritesOnly ws t) (v : Word64) (hr : .gval ∈ ws) :
    s.WritesOnly ws (t.setGval v) := { h with gval := absurd hr }

theorem setGpar (h : s.WritesOnly ws t) (v : Word64) (hr : .gpar ∈ ws) :
    s.WritesOnly ws (t.setGpar v) := { h with gpar := absurd hr }

theorem setPerceptron (h : s.WritesOnly ws t) (w : Eight (Eight Weight)) (b : Eight Bias)
    (hr : .perceptron ∈ ws) : s.WritesOnly ws (t.setPerceptron w b) :=
  { h with perceptron := absurd hr }

theorem winWrite (h : s.WritesOnly ws t) (k : Nat) (v : Word64) (hr : .win ∈ ws) :
    s.WritesOnly ws (t.winWrite k v) := { h with win := absurd hr }

theorem setWlen (h : s.WritesOnly ws t) (n : BitVec 16) (hr : .wlen ∈ ws) :
    s.WritesOnly ws (t.setWlen n) := { h with wlen := absurd hr }

theorem bufWrite (h : s.WritesOnly ws t) (a : Nat) (v : Byte) (hr : .buf ∈ ws) :
    s.WritesOnly ws (t.bufWrite a v) := { h with buf := absurd hr }

/-! ### One rule per shared operation -/

theorem draw (h : s.WritesOnly ws t) (hr : .gval ∈ ws) : s.WritesOnly ws (draw t).2 :=
  h.setGval _ hr

theorem fillFrom (h : s.WritesOnly ws t) (hgval : .gval ∈ ws) (hwin : .win ∈ ws) (count j : Nat) :
    s.WritesOnly ws (fillFrom count j t) := by
  induction count generalizing j t with
  | zero => exact h
  | succ n ih => exact ih ((h.draw hgval).winWrite j _ hwin) (j + 1)

theorem materialize (h : s.WritesOnly ws t) (hgval : .gval ∈ ws) (hwin : .win ∈ ws)
    (hwlen : .wlen ∈ ws) (len : Nat) : s.WritesOnly ws (materialize len t) :=
  (h.fillFrom hgval hwin len 0).setWlen _ hwlen

theorem applyXor (h : s.WritesOnly ws t) (hbuf : .buf ∈ ws) (i : Nat) (k : Byte) :
    s.WritesOnly ws (applyXor i k t) := h.bufWrite _ _ hbuf

theorem applyPerceptron (h : s.WritesOnly ws t) (hbuf : .buf ∈ ws) (hwb : .perceptron ∈ ws)
    (i : Nat) (k : Byte) : s.WritesOnly ws (applyPerceptron i k t) :=
  (h.setPerceptron _ _ hwb).bufWrite _ _ hbuf

theorem deriveRaw (h : s.WritesOnly ws t) (hgval : .gval ∈ ws) : (deriveRaw t).WritesOnly ws s :=
  h.draw hgval

theorem deriveMantissa (h : s.WritesOnly ws t) (hgval : .gval ∈ ws) (i : Nat) :
    (deriveMantissa i t).WritesOnly ws s := by
  rcases deriveMantissa_cases i t with ⟨p, -, hd⟩ | ⟨-, hd⟩ <;> rw [hd]
  · exact h.draw hgval
  · exact ⟨nofun, h.draw hgval⟩

theorem deriveWindow (h : s.WritesOnly ws t) (hgval : .gval ∈ ws) (hwin : .win ∈ ws)
    (hwlen : .wlen ∈ ws) (i len : Nat) : (deriveWindow i len t).WritesOnly ws s := by
  have hu := h.materialize hgval hwin hwlen len
  rcases deriveWindow_cases i len t with ⟨k, -, hd⟩ | ⟨-, hd⟩ <;> rw [hd]
  · exact hu
  · exact ⟨nofun, hu⟩

end State.WritesOnly

/-! ### What a command can end in -/

/-- Everything a command can end in (R71, R117, R128 to R130): the error cleared by CLRE, a refusal, its own
rule completed with no error pending, or an error raised at a state `u` the rule got to, with DATA as before. -/
inductive CommandEnds (i : Instr) (s : State) : State → Prop where
  | cleared (hi : i = .clre) : CommandEnds i s (clearError s)
  | refused (herr : s.err ≠ .ok) : CommandEnds i s s
  | completed {t : State} (hok : s.err = .ok) (ht : s.WritesOnly (registersWritten i) t) :
      CommandEnds i s t
  | failed {u : State} {e : ErrCode} {j : Nat} (hok : s.err = .ok) (he : e ≠ .ok)
      (hu : s.WritesOnly (registersWritten i) u) (hdata : u.data = s.data) :
      CommandEnds i s (raise e j u)

namespace CommandEnds

variable {i : Instr} {s : State}

/-- The checks before a command end in a refusal or an error; past them its own rule says how it ends
(R71). -/
theorem command {legal inBounds genReady : Bool} {body : State → State}
    (hbody : s.err = .ok → legal = true → CommandEnds i s (body s)) :
    CommandEnds i s (command legal inBounds genReady body s) := by
  have hfailed : ∀ e, s.err = .ok → e ≠ .ok → CommandEnds i s (raise e 0 s) :=
    fun e hok he => .failed hok he (.refl _ s) rfl
  rcases command_cases legal inBounds genReady body s with
    ⟨herr, h⟩ | ⟨hok, -, h⟩ | ⟨hok, -, -, h⟩ | ⟨hok, -, -, -, h⟩ | ⟨hok, hlegal, -, -, h⟩ <;> rw [h]
  · exact .refused herr
  · exact hfailed _ hok nofun
  · exact hfailed _ hok nofun
  · exact hfailed _ hok nofun
  · exact hbody hok hlegal

/-- A command whose own rule raises no error. -/
theorem ofBody {legal inBounds genReady : Bool} {body : State → State}
    (hbody : s.WritesOnly (registersWritten i) (body s)) :
    CommandEnds i s (Machine.command legal inBounds genReady body s) :=
  command fun hok _ => .completed hok hbody

theorem returnNormalized (hok : s.err = .ok) (hdata : .data ∈ registersWritten i)
    (result : Option Byte) (j : Nat) : CommandEnds i s (returnNormalized result j s) := by
  cases result with
  | some b => exact .completed hok ((State.WritesOnly.refl _ s).setData _ hdata)
  | none => exact .failed hok nofun (.refl _ s) rfl

/-- A transform ends completed, or at the byte whose derivation raised an error (R129). -/
theorem transform {derive : Nat → State → Derived} {apply : Nat → Byte → State → State} {u : State}
    (hok : s.err = .ok) (hdata : .data ∉ registersWritten i)
    (hderive : ∀ n t, s.WritesOnly (registersWritten i) t →
      (derive n t).WritesOnly (registersWritten i) s)
    (happly : ∀ n k t, s.WritesOnly (registersWritten i) t →
      s.WritesOnly (registersWritten i) (apply n k t))
    (hu : s.WritesOnly (registersWritten i) u) (len : Nat) :
    CommandEnds i s (transformFrom derive apply len 0 u) := by
  refine transformFrom_induction (total := len) (fun _ t => s.WritesOnly (registersWritten i) t)
    (CommandEnds i s) ?byte ?raise (fun t ht => .completed hok ht) len 0 u (Nat.zero_add len) hu
  case byte =>
    intro n k v t _ hv hd
    have ht := hderive n v hv
    rw [hd] at ht
    exact happly n k t ht
  case raise =>
    intro n e j v t _ hv hd
    have ht := hderive n v hv
    rw [hd] at ht
    exact .failed hok ht.1 ht.2 (ht.2.data hdata)

theorem xtrBody (hok : s.err = .ok) (mode : Mode) (len : BitVec 16) :
    CommandEnds (.xtr mode len) s (xtrBody mode len.toNat s) := by
  have hs := State.WritesOnly.refl (registersWritten (.xtr mode len)) s
  have happly := fun n k t (ht : s.WritesOnly (registersWritten (.xtr mode len)) t) =>
    ht.applyXor (by simp) n k
  unfold Machine.xtrBody
  split
  · exact .completed hok hs
  · cases mode with
    | rawCast => exact transform hok (by simp) (fun _ _ ht => ht.deriveRaw (by simp)) happly hs _
    | mantissaByte =>
      exact transform hok (by simp) (fun n _ ht => ht.deriveMantissa (by simp) n) happly hs _
    | windowNormalized =>
      exact transform hok (by simp)
        (fun n _ ht => ht.deriveWindow (by simp) (by simp) (by simp) n _) happly
        (hs.materialize (by simp) (by simp) (by simp) _) _

/-- RawCast is no mode of PTR, and has been turned away before (R69 (e)). -/
theorem ptrBody (hok : s.err = .ok) {mode : Mode} (hmode : legalPerceptronMode mode = true)
    (len : BitVec 16) : CommandEnds (.ptr mode len) s (ptrBody mode len.toNat s) := by
  have hs := State.WritesOnly.refl (registersWritten (.ptr mode len)) s
  have happly := fun n k t (ht : s.WritesOnly (registersWritten (.ptr mode len)) t) =>
    ht.applyPerceptron (by simp) (by simp) n k
  unfold Machine.ptrBody
  split
  · exact .completed hok hs
  · cases mode with
    | rawCast => exact absurd hmode (by decide)
    | mantissaByte =>
      exact transform hok (by simp) (fun n _ ht => ht.deriveMantissa (by simp) n) happly hs _
    | windowNormalized =>
      exact transform hok (by simp)
        (fun n _ ht => ht.deriveWindow (by simp) (by simp) (by simp) n _) happly
        (hs.materialize (by simp) (by simp) (by simp) _) _

end CommandEnds

/-- Every command ends as `CommandEnds` says, having written only its own registers. -/
theorem exec_ends {i : Instr} {s t : State} (h : exec i s = .next t) : CommandEnds i s t := by
  have hs := State.WritesOnly.refl (registersWritten i) s
  cases i <;> cases h
  case clre => exact .cleared rfl
  case gnewi n =>
    exact .ofBody (((hs.setGen _ _ (by simp)).setGval _ (by simp)).setGpar _ (by simp))
  case gnewl =>
    exact .ofBody (((hs.setGen _ _ (by simp)).setGval _ (by simp)).setGpar _ (by simp))
  case gnext => exact .ofBody ((hs.draw (by simp)).setData _ (by simp))
  case ggetv => exact .ofBody (hs.setData _ (by simp))
  case gsetv => exact .ofBody (hs.setGval _ (by simp))
  case ggetp => exact .ofBody (hs.setData _ (by simp))
  case gsetp => exact .ofBody (hs.setGpar _ (by simp))
  case mext => exact .ofBody (hs.setData _ (by simp))
  case wsetl k => exact .ofBody (hs.setWlen _ (by simp))
  case wwr k => exact .ofBody (hs.winWrite _ _ (by simp))
  case wrd k => exact .ofBody (hs.setData _ (by simp))
  case wfill k => exact .ofBody (hs.materialize (by simp) (by simp) (by simp) _)
  case wnorm k => exact .command fun hok _ => .returnNormalized hok (by simp) _ _
  case wnormv => exact .command fun hok _ => .returnNormalized hok (by simp) _ _
  case preseed => exact .ofBody (hs.setPerceptron _ _ (by simp))
  case peval => exact .ofBody (hs.setData _ (by simp))
  case prdw row => exact .ofBody (hs.setData _ (by simp))
  case prdb => exact .ofBody (hs.setData _ (by simp))
  case bwr a x => exact .ofBody (hs.bufWrite _ _ (by simp))
  case brd k => exact .ofBody (hs.setData _ (by simp))
  case xtr mode len => exact .command fun hok _ => .xtrBody hok mode len
  case ptr mode len => exact .command fun hok hlegal => .ptrBody hok hlegal len

/-- Whatever it ends in, a command writes ERR, ERRIDX and its own registers only. -/
theorem exec_writesOnly {i : Instr} {s t : State} (h : exec i s = .next t) :
    s.WritesOnly (.error :: registersWritten i) t := by
  have hs := State.WritesOnly.refl (.error :: registersWritten i) s
  cases exec_ends h with
  | cleared _ => exact hs.setErr _ (by simp)
  | refused _ => exact hs
  | completed _ ht => exact ht.cons _
  | failed _ _ hu _ => exact (hu.cons _).raise _ _ (by simp)

/-! ### The statements on who writes what -/

/-- Settles O16: each clause reads the table at its register. -/
theorem commandsWriteOnlyTheirOwnState : Obligations.CommandsWriteOnlyTheirOwnState := by
  intro i s t h
  have hw := exec_writesOnly h
  refine ⟨?gval, ?gpar, ?perceptron, ?win, ?buf, hw.bufcap, hw.launches, hw.inputs, hw.reply⟩
  case gval =>
    intros
    exact hw.gval (by simp_all)
  case gpar =>
    intros
    exact hw.gpar (by simp_all)
  case perceptron =>
    intros
    exact hw.perceptron (by simp_all)
  case win =>
    intro _ _ _ _ k
    exact State.winRead_congr (hw.win (by simp_all)) hw.launches k
  case buf =>
    intro _ _ _ a
    exact State.bufRead_congr (hw.buf (by simp_all)) hw.launches a

/-- Settles O17: a command that completes leaves no error pending, and every other end leaves DATA. -/
theorem dataIsWrittenOnlyByResults : Obligations.DataIsWrittenOnlyByResults := by
  refine fun i s t h => ⟨fun herr => ?onError, fun hdata => ?writers⟩
  case onError =>
    cases exec_ends h with
    | cleared _ => rfl
    | refused _ => rfl
    | completed hok ht =>
      have hkept := (ht.error error_not_mem_registersWritten).1
      exact absurd (hkept.trans hok) herr
    | failed _ _ _ hu => exact hu
  case writers =>
    by_contra hi
    exact hdata ((exec_writesOnly h).data (by simpa using hi))

/-- Settles O10: the bit fields of the word, the generator registers of the invariant, the table, and the
four ends of a command. -/
theorem statusShowsErrAndTheGenerator : Obligations.StatusShowsErrAndTheGenerator := by
  refine ⟨fun s => ?fields, fun s hs hgv => ?noGenerator, fun s hs hlog => ?logistic, ?writers, ?clears⟩
  case fields =>
    rw [s.status_err, s.status_gv, s.status_gvar, decide_eq_true_eq]
    have hcode : ∀ e, s.err = e → errBits s.err = errBits e := fun e h => congrArg errBits h
    exact ⟨hcode .ok, hcode .divZero, hcode .invalidSeed, hcode .f32Range, hcode .illegal,
      hcode .badGen, hcode .bounds, Iff.rfl, Iff.rfl, s.status_gn, s.status_high⟩
  case noGenerator =>
    obtain ⟨hvar, hgn, -⟩ := hs.noGenerator hgv
    exact ⟨by rw [s.status_gvar, hvar]; rfl, by rw [s.status_gn, hgn]⟩
  case logistic => rw [s.status_gn, hs.logExponent hlog]
  case writers =>
    intro i s t h _ _
    exact (exec_writesOnly h).generator (by simp_all)
  case clears =>
    intro i s t h hne hok'
    cases exec_ends h with
    | cleared hi => exact hi
    | refused _ => exact absurd rfl hne
    | completed hok _ => exact absurd (hok'.trans hok.symm) hne
    | failed _ he _ _ => exact absurd hok' he

/-- Settles O11: the bit fields of the word, the four ends of a command, and the table. -/
theorem auxShowsErridxAndWlen : Obligations.AuxShowsErridxAndWlen := by
  refine ⟨fun s => ⟨s.aux_erridx, s.aux_wlen⟩, ?erridx, ?clre, ?wlen⟩
  case erridx =>
    intro i s t h hne
    cases exec_ends h with
    | cleared _ => exact absurd rfl hne
    | refused _ => exact absurd rfl hne
    | completed _ ht => exact absurd (ht.error error_not_mem_registersWritten).2 hne
    | failed hok he _ _ => exact ⟨hok, he⟩
  case clre =>
    intro s t h
    cases h
    rfl
  case wlen =>
    intro i s t h hne
    by_contra hi
    exact hne ((exec_writesOnly h).wlen (by simpa using hi))

/-! ### Integer draws (R35, R76) -/

/-- The reduced product is even and below the even modulus, so with the increment it is odd and at most the
modulus less one; a product of zero gives 2. -/
theorem intStep_range (v : Nat) {n : Nat} (hn : 1 ≤ n) :
    intStep v n = 2 ∨ intStep v n % 2 = 1 ∧ 3 ≤ intStep v n ∧ intStep v n ≤ 2 ^ n - 1 := by
  obtain ⟨k, rfl⟩ : ∃ k, n = k + 1 := ⟨n - 1, by omega⟩
  have hlt : v * (1 + v) % (2 * 2 ^ k) < 2 * 2 ^ k := Nat.mod_lt _ (by positivity)
  have heven : v * (1 + v) % (2 * 2 ^ k) % 2 = 0 := by
    rw [Nat.mod_mul_right_mod, Nat.add_comm]
    exact Nat.even_iff.mp (Nat.even_mul_succ_self v)
  unfold intStep
  rw [pow_succ']
  split_ifs <;> omega

/-- What a run of at least one draw leaves in GVAL under INT. -/
theorem drawTimes_succ_gval_of_int {s : State} (hint : s.gvar = .int) (k : Nat) :
    ∃ v, (drawTimes (k + 1) s).gval = BitVec.ofNat 64 (intStep v s.gn.toNat) := by
  rw [drawTimes_succ, drawTimes_frame k s]
  exact ⟨_, congrArg (nextValue · s.gn (drawTimes k s).gval s.gpar) hint⟩

/-- Settles O26: the last draw is a value of the integer map, which fits 32 bits. -/
theorem integerDrawsStayInTheirRange : Obligations.IntegerDrawsStayInTheirRange := by
  refine fun s hint h1 h32 => ⟨?range, ?gnext⟩
  case range =>
    rintro k _ rfl
    obtain ⟨v, hv⟩ := drawTimes_succ_gval_of_int hint k
    have hrange := intStep_range v h1
    have hlt := intStep_lt v _ h1 h32
    have hnat : (drawTimes (k + 1) s).gval.toNat = intStep v s.gn.toNat := by
      rw [hv, BitVec.toNat_ofNat]
      omega
    rw [hnat, hv]
    refine ⟨hrange, fun hone => ?_, upperHalf_ofNat hlt⟩
    rw [hone] at hrange ⊢
    omega
  case gnext =>
    intro t hok hgv ht
    cases ht
    rw [State.hasGenerator, hgv, command_ready hok]
    rfl

end Sys2Proof.Machine

/-! PROOFS. Decoding, encoding and the order of checks (O1 to O4, O6, O13): the two round trips format by
format, then everything the decoder can answer, then what a command's checks test and where each way of
issuing a word ends. -/

namespace Sys2Proof.Machine

open Sys2Proof

/-! ### Decoding an encoded word (R60 to R66) -/

theorem decodeZ_encodeZ (op : BitVec 8) (i : Instr) : decodeZ (encodeZ op) i = .ok i :=
  if_pos (encodeZ_mbz op)

theorem decodeK_encodeK (op : BitVec 8) (k : BitVec 16) (f : BitVec 16 → Instr) :
    decodeK (encodeK op k) f = .ok (f k) := by
  rw [decodeK, if_pos (encodeK_mbz op k), encodeK_low]

theorem decodeB_encodeB (op : BitVec 8) (addr : BitVec 16) (imm8 : Byte)
    (f : BitVec 16 → Byte → Instr) : decodeB (encodeB op addr imm8) f = .ok (f addr imm8) := by
  rw [decodeB, encodeB_low, encodeB_imm8]

theorem decodeT_encodeT (op : BitVec 8) (mode : Mode) (len : BitVec 16)
    (f : Mode → BitVec 16 → Except DecodeError Instr) :
    decodeT (encodeT op mode len) f = f mode len := by
  rw [decodeT, if_pos (encodeT_mbz op mode len), encodeT_mode, modeOfBits_modeBits, encodeT_low]

theorem decodeN_encodeN (op : BitVec 8) (n : BitVec 6) (f : BitVec 6 → Except DecodeError Instr) :
    decodeN (encodeN op n) f = f n := by
  rw [decodeN, if_pos (encodeN_mbz op n), encodeN_n]

theorem decodeR_encodeR (op : BitVec 8) (row : BitVec 3) (f : BitVec 3 → Instr) :
    decodeR (encodeR op row) f = .ok (f row) := by
  rw [decodeR, if_pos (encodeR_mbz op row), encodeR_row]

/-- The top byte of a command's word is its opcode, in every format (R59, R68). -/
theorem opField_encode (i : Instr) : opField (encode i) = i.opcode := by
  cases i
  all_goals simp only [encode, encodeZ_op, encodeK_op, encodeB_op, encodeT_op, encodeN_op, encodeR_op]

/-- The opcode selects the row, whose format reads its operands back; GNEWI and PTR have an extra
condition. -/
theorem decode_encode {i : Instr} (hwf : i.wf = true) : decode (encode i) = .ok i := by
  unfold decode
  rw [opField_encode]
  cases i
  case clre | gnewl | gnext | ggetv | gsetv | ggetp | gsetp | mext | wnormv | preseed | peval | prdb =>
    exact decodeZ_encodeZ _ _
  case wsetl k | wwr k | wrd k | wfill k | wnorm k | brd k => exact decodeK_encodeK _ k _
  case bwr addr imm8 => exact decodeB_encodeB _ addr imm8 _
  case xtr mode len => exact decodeT_encodeT _ mode len _
  case ptr mode len => exact (decodeT_encodeT _ mode len _).trans (if_pos hwf)
  case gnewi n => exact (decodeN_encodeN _ n _).trans (if_pos hwf)
  case prdw row => exact decodeR_encodeR _ row _

/-- Settles O1: each format reads back the fields its encoder wrote. -/
theorem decodeInvertsEncode : Obligations.DecodeInvertsEncode := fun _ => decode_encode

/-! ### Encoding the fields of a word -/

section Fields

open BitVec (extractLsb'_append_extractLsb'_eq_extractLsb')

variable {c : Word32}

theorem encodeZ_opField (h : c.extractLsb' 0 24 = 0) : encodeZ (opField c) = c := by
  rw [encodeZ, ← BitVec.ofNat_eq_ofNat, ← h]
  simp only [opField]
  rw [extractLsb'_append_extractLsb'_eq_extractLsb' (by rfl)]
  simp

theorem encodeK_opField (h : c.extractLsb' 16 8 = 0) : encodeK (opField c) (lowField c) = c := by
  rw [encodeK, ← BitVec.ofNat_eq_ofNat, ← h]
  simp only [opField, lowField]
  rw [extractLsb'_append_extractLsb'_eq_extractLsb' (by rfl),
    extractLsb'_append_extractLsb'_eq_extractLsb' (by rfl)]
  simp

variable (c) in
theorem encodeB_opField : encodeB (opField c) (lowField c) (imm8Field c) = c := by
  simp only [encodeB, opField, lowField, imm8Field]
  rw [extractLsb'_append_extractLsb'_eq_extractLsb' (by rfl),
    extractLsb'_append_extractLsb'_eq_extractLsb' (by rfl)]
  simp

theorem encodeT_opField {mode : Mode} (h : c.extractLsb' 18 6 = 0)
    (hmode : modeField c = modeBits mode) : encodeT (opField c) mode (lowField c) = c := by
  rw [encodeT, ← BitVec.ofNat_eq_ofNat, ← h, ← hmode]
  simp only [opField, modeField, lowField]
  rw [extractLsb'_append_extractLsb'_eq_extractLsb' (by rfl),
    extractLsb'_append_extractLsb'_eq_extractLsb' (by rfl),
    extractLsb'_append_extractLsb'_eq_extractLsb' (by rfl)]
  simp

theorem encodeN_opField (h : c.extractLsb' 6 18 = 0) : encodeN (opField c) (nField c) = c := by
  rw [encodeN, ← BitVec.ofNat_eq_ofNat, ← h]
  simp only [opField, nField]
  rw [extractLsb'_append_extractLsb'_eq_extractLsb' (by rfl),
    extractLsb'_append_extractLsb'_eq_extractLsb' (by rfl)]
  simp

theorem encodeR_opField (h : c.extractLsb' 3 21 = 0) : encodeR (opField c) (rowField c) = c := by
  rw [encodeR, ← BitVec.ofNat_eq_ofNat, ← h]
  simp only [opField, rowField]
  rw [extractLsb'_append_extractLsb'_eq_extractLsb' (by rfl),
    extractLsb'_append_extractLsb'_eq_extractLsb' (by rfl)]
  simp

end Fields

/-! ### The illegal words, on the fields (R69) -/

/-- A bit field as R69 writes it, on the word as a number. -/
theorem toNat_div_mod (c : Word32) (start len : Nat) :
    c.toNat / 2 ^ start % 2 ^ len = (c.extractLsb' start len).toNat := by
  rw [BitVec.extractLsb'_toNat, Nat.shiftRight_eq_div_pow]

theorem toNat_div_eq_opField (c : Word32) : c.toNat / 2 ^ 24 = (opField c).toNat := by
  rw [opField, ← toNat_div_mod, Nat.mod_eq_of_lt (by have := c.isLt; omega)]

theorem legalExponent_iff (n : BitVec 6) : legalExponent n = true ↔ 1 ≤ n.toNat ∧ n.toNat ≤ 32 := by
  simp only [legalExponent, Bool.and_eq_true, decide_eq_true_eq]
  rfl

theorem legalExponent_eq_false_iff (n : BitVec 6) :
    legalExponent n = false ↔ n.toNat = 0 ∨ 33 ≤ n.toNat := by
  rw [← Bool.not_eq_true, legalExponent_iff]
  omega

/-- A mode field is the number of a mode, or the reserved 3 (R67). -/
theorem modeOfBits_cases (b : BitVec 2) :
    (∃ mode, b = modeBits mode ∧ modeOfBits b = .ok mode) ∨
      b = 3 ∧ modeOfBits b = .error .reservedMode := by
  match b with
  | 0 => exact .inl ⟨.rawCast, rfl, rfl⟩
  | 1 => exact .inl ⟨.mantissaByte, rfl, rfl⟩
  | 2 => exact .inl ⟨.windowNormalized, rfl, rfl⟩
  | 3 => exact .inr ⟨rfl, rfl⟩

/-- R69 on the fields of the word. -/
theorem wordIllegal_iff (c : Word32) : WordIllegal c ↔
    (opField c).toNat ∉ assignedOpcodes ∨
    ((opField c).toNat ∈ formatZOpcodes ∧ c.extractLsb' 0 24 ≠ 0) ∨
    ((opField c).toNat ∈ formatKOpcodes ∧ c.extractLsb' 16 8 ≠ 0) ∨
    ((opField c).toNat ∈ formatTOpcodes ∧ c.extractLsb' 18 6 ≠ 0) ∨
    ((opField c).toNat = 0x10 ∧ c.extractLsb' 6 18 ≠ 0) ∨
    ((opField c).toNat = 0x32 ∧ c.extractLsb' 3 21 ≠ 0) ∨
    ((opField c).toNat = 0x10 ∧ legalExponent (nField c) = false) ∨
    ((opField c).toNat ∈ formatTOpcodes ∧ modeField c = 3) ∨
    ((opField c).toNat = 0x51 ∧ modeField c = 0) := by
  have hlow (len : Nat) : c.toNat % 2 ^ len = (c.extractLsb' 0 len).toNat := by
    rw [← toNat_div_mod, pow_zero, Nat.div_one]
  simp only [WordIllegal, toNat_div_eq_opField, toNat_div_mod, hlow, legalExponent_eq_false_iff,
    modeField, nField, ← BitVec.toNat_inj, ne_eq]
  rfl

/-- No case of R69 applies to the word of a well-formed command. -/
theorem not_wordIllegal_encode {i : Instr} (hwf : i.wf = true) : ¬ WordIllegal (encode i) := by
  rw [wordIllegal_iff, opField_encode]
  cases i
  case gnewi n =>
    have hn : legalExponent n = true := hwf
    simp [Instr.opcode, assignedOpcodes, formatZOpcodes, formatKOpcodes, formatTOpcodes, encode,
      encodeN_mbz, encodeN_n, hn]
  case ptr mode len =>
    cases mode with
    | rawCast => cases hwf
    | mantissaByte | windowNormalized =>
      simp [Instr.opcode, assignedOpcodes, formatZOpcodes, formatKOpcodes, formatTOpcodes, encode,
        encodeT_mbz, encodeT_mode, modeBits]
  case xtr mode len =>
    cases mode with
    | rawCast | mantissaByte | windowNormalized =>
      simp [Instr.opcode, assignedOpcodes, formatZOpcodes, formatKOpcodes, formatTOpcodes, encode,
        encodeT_mbz, encodeT_mode, modeBits]
  all_goals
    simp [Instr.opcode, assignedOpcodes, formatZOpcodes, formatKOpcodes, formatTOpcodes, encode,
      encodeZ_mbz, encodeK_mbz, encodeR_mbz]

/-! ### Everything the decoder can answer -/

/-- The answers of the decoder on a word: a well-formed command whose word it is, or an error, the word being
in a case of R69. -/
inductive DecodeEnds (c : Word32) : Except DecodeError Instr → Prop where
  | command {i : Instr} (henc : encode i = c) (hwf : i.wf = true) : DecodeEnds c (.ok i)
  | illegal (e : DecodeError) (h : WordIllegal c) : DecodeEnds c (.error e)

namespace DecodeEnds

variable {c : Word32}

theorem ofFormatZ {i : Instr} (hop : opField c = i.opcode) (hmem : i.opcode.toNat ∈ formatZOpcodes)
    (henc : encode i = encodeZ i.opcode) (hwf : i.wf = true) : DecodeEnds c (decodeZ c i) := by
  unfold decodeZ
  split
  case isTrue hzero => exact .command (by rw [henc, ← hop, encodeZ_opField hzero]) hwf
  case isFalse hzero => exact .illegal _ ((wordIllegal_iff c).mpr (by simp_all))

theorem ofFormatK {f : BitVec 16 → Instr} (hop : opField c = (f 0).opcode)
    (hmem : (f 0).opcode.toNat ∈ formatKOpcodes)
    (henc : ∀ k, encode (f k) = encodeK (f 0).opcode k) (hwf : ∀ k, (f k).wf = true) :
    DecodeEnds c (decodeK c f) := by
  unfold decodeK
  split
  case isTrue hzero => exact .command (by rw [henc, ← hop, encodeK_opField hzero]) (hwf _)
  case isFalse hzero => exact .illegal _ ((wordIllegal_iff c).mpr (by simp_all))

/-- Past the checks of format T the row decides, on a word with a mode in its field. -/
theorem ofFormatT {f : Mode → BitVec 16 → Except DecodeError Instr}
    (hmem : (opField c).toNat ∈ formatTOpcodes)
    (hrow : ∀ mode, modeField c = modeBits mode → encodeT (opField c) mode (lowField c) = c →
      DecodeEnds c (f mode (lowField c))) : DecodeEnds c (decodeT c f) := by
  unfold decodeT
  split
  case isTrue hzero =>
    rcases modeOfBits_cases (modeField c) with ⟨mode, hmode, h⟩ | ⟨hmode, h⟩ <;> rw [h]
    · exact hrow mode hmode (encodeT_opField hzero hmode)
    · exact .illegal _ ((wordIllegal_iff c).mpr (by simp [hmem, hmode]))
  case isFalse hzero => exact .illegal _ ((wordIllegal_iff c).mpr (by simp_all))

theorem ofXtr (hop : opField c = 0x50) :
    DecodeEnds c (decodeT c fun mode len => .ok (.xtr mode len)) := by
  refine ofFormatT (by rw [hop]; decide) fun mode _ henc => ?_
  rw [hop] at henc
  exact .command henc rfl

theorem ofPtr (hop : opField c = 0x51) : DecodeEnds c (decodeT c buildPtr) := by
  refine ofFormatT (by rw [hop]; decide) fun mode hmode henc => ?_
  rw [hop] at henc
  cases mode with
  | rawCast => exact .illegal _ ((wordIllegal_iff c).mpr (by simp [hop, hmode, modeBits]))
  | mantissaByte => exact .command henc rfl
  | windowNormalized => exact .command henc rfl

theorem ofBwr (hop : opField c = 0x40) : DecodeEnds c (decodeB c .bwr) := by
  have henc := encodeB_opField c
  rw [hop] at henc
  exact .command henc rfl

theorem ofPrdw (hop : opField c = 0x32) : DecodeEnds c (decodeR c .prdw) := by
  unfold decodeR
  split
  case isTrue hzero =>
    have henc := encodeR_opField hzero
    rw [hop] at henc
    exact .command henc rfl
  case isFalse hzero => exact .illegal _ ((wordIllegal_iff c).mpr (by simp_all))

theorem ofGnewi (hop : opField c = 0x10) : DecodeEnds c (decodeN c buildGnewi) := by
  unfold decodeN buildGnewi
  split
  case isTrue hzero =>
    have henc := encodeN_opField hzero
    rw [hop] at henc
    split
    case isTrue hn => exact .command henc hn
    case isFalse hn => exact .illegal _ ((wordIllegal_iff c).mpr (by simp [hop, hn]))
  case isFalse hzero => exact .illegal _ ((wordIllegal_iff c).mpr (by simp_all))

end DecodeEnds

/-- The rows of R68 format by format, and the opcodes that are none of them. -/
theorem decode_ends (c : Word32) : DecodeEnds c (decode c) := by
  fun_cases decode c
  case case1 hop | case3 hop | case4 hop | case5 hop | case6 hop | case7 hop | case8 hop |
      case9 hop | case15 hop | case16 hop | case17 hop | case19 hop =>
    exact .ofFormatZ (BitVec.eq_of_toNat_eq hop) (by decide) rfl rfl
  case case10 hop | case11 hop | case12 hop | case13 hop | case14 hop | case21 hop =>
    exact .ofFormatK (BitVec.eq_of_toNat_eq hop) (by decide) (fun _ => rfl) (fun _ => rfl)
  case case22 hop => exact .ofXtr (BitVec.eq_of_toNat_eq hop)
  case case23 hop => exact .ofPtr (BitVec.eq_of_toNat_eq hop)
  case case20 hop => exact .ofBwr (BitVec.eq_of_toNat_eq hop)
  case case18 hop => exact .ofPrdw (BitVec.eq_of_toNat_eq hop)
  case case2 hop => exact .ofGnewi (BitVec.eq_of_toNat_eq hop)
  case case24 =>
    refine .illegal _ ((wordIllegal_iff c).mpr (.inl ?_))
    simp_all [assignedOpcodes, formatZOpcodes, formatKOpcodes, formatTOpcodes]

/-- A word that decodes is the word of its command, which is well-formed. -/
theorem encode_of_decode {c : Word32} {i : Instr} (h : decode c = .ok i) :
    encode i = c ∧ i.wf = true := by
  have hends := decode_ends c
  rw [h] at hends
  cases hends with
  | command henc hwf => exact ⟨henc, hwf⟩

theorem wf_of_decode {c : Word32} {i : Instr} (h : decode c = .ok i) : i.wf = true :=
  (encode_of_decode h).2

/-- Settles O2: the decoder answers a command only on that command's own word. -/
theorem encodeInvertsDecode : Obligations.EncodeInvertsDecode := fun _ _ => encode_of_decode

/-- The decoder rejects exactly the words of R69. -/
theorem wordIllegal_iff_decode (c : Word32) : WordIllegal c ↔ ∃ e, decode c = .error e := by
  cases h : decode c with
  | ok i =>
    obtain ⟨rfl, hwf⟩ := encode_of_decode h
    simp [not_wordIllegal_encode hwf]
  | error e =>
    have hends := decode_ends c
    rw [h] at hends
    cases hends with
    | illegal _ hc => exact iff_of_true hc ⟨e, rfl⟩

/-- CLRE has one word (R117). -/
theorem decode_clre_iff (c : Word32) : decode c = .ok .clre ↔ c = 0x01000000 := by
  constructor
  · exact fun h => (encode_of_decode h).1.symm
  · rintro rfl
    exact decode_encode (i := .clre) rfl

/-! ### Issuing an illegal word (R69, R71) -/

theorem issue_of_wordIllegal {c : Word32} (h : WordIllegal c) (s : State) :
    issue c s = .next (issueIllegal s) := by
  obtain ⟨e, he⟩ := (wordIllegal_iff_decode c).mp h
  simp [issue, he]

theorem issueIllegal_of_ok {s : State} (hok : s.err = .ok) :
    issueIllegal s = s.withError .illegal 0 := if_neg (not_not_intro hok)

theorem issueIllegal_of_error {s : State} (herr : s.err ≠ .ok) : issueIllegal s = s := if_pos herr

/-- Settles O3: the decoder's errors are the cases of R69, and issuing an error's word enters ILLEGAL. -/
theorem illegalWordsRaiseIllegal : Obligations.IllegalWordsRaiseIllegal := by
  refine ⟨wordIllegal_iff_decode, fun s c rest hinputs hok hc => ?_⟩
  rw [step_of_inputs hinputs]
  exact (issue_of_wordIllegal hc _).trans (congrArg _ (issueIllegal_of_ok hok))

/-- Settles O4: the decoder, run on each word. -/
theorem exampleWordsDecode : Obligations.ExampleWordsDecode := by
  unfold Obligations.ExampleWordsDecode
  decide

/-! ### Every step answers (R70, R118, R139) -/

/-- Every meaning is a next state (R118). -/
theorem exec_next (i : Instr) (s : State) : ∃ t, exec i s = .next t := by
  cases i <;> exact ⟨_, rfl⟩

theorem issue_next (c : Word32) (s : State) : ∃ t, issue c s = .next t := by
  unfold issue
  cases decode c with
  | ok i => exact exec_next i s
  | error e => exact ⟨_, rfl⟩

theorem hostAccess_next (a : HostAccess) (s : State) : ∃ t, hostAccess a s = .next t := by
  cases a with
  | writeCmd c => exact issue_next c _
  | _ => exact ⟨_, rfl⟩

/-- Settles O13: every access answers, and with none pending the step is the state itself. -/
theorem everyStepAnswersANextState : Obligations.EveryStepAnswersANextState := by
  intro s
  cases h : s.inputs with
  | nil => exact ⟨s, by simp [step, h], fun _ => rfl⟩
  | cons a rest =>
    obtain ⟨t, ht⟩ := hostAccess_next a (s.setInputs rest)
    exact ⟨t, (step_of_inputs h).trans ht, nofun⟩

/-! ### The errors a command's own rule can end in (R71 step 5) -/

/-- No error, or one of the two that depend on the data (R120, R121). -/
def ErrCode.FromData (e : ErrCode) : Prop := e = .ok ∨ e = .divZero ∨ e = .f32Range

/-- Deriving a keystream byte leaves no error, or raises one that depends on the data. -/
def Derived.EndsByData : Derived → Prop
  | .byte _ t => t.err = .ok
  | .raised e _ _ => e.FromData

section EndsByData

variable {s : State}

theorem materialize_err (len : Nat) (s : State) : (materialize len s).err = s.err := by
  rw [(materialize_spec len s).2]

theorem returnNormalized_err (hok : s.err = .ok) (result : Option Byte) (i : Nat) :
    (returnNormalized result i s).err.FromData := by
  cases result with
  | some b => exact .inl hok
  | none => exact .inr (.inl rfl)

theorem deriveRaw_endsByData (hok : s.err = .ok) : (deriveRaw s).EndsByData := hok

theorem deriveMantissa_endsByData (hok : s.err = .ok) (i : Nat) :
    (deriveMantissa i s).EndsByData := by
  rcases deriveMantissa_cases i s with ⟨p, -, h⟩ | ⟨-, h⟩ <;> rw [h]
  · exact hok
  · exact .inr (.inr rfl)

theorem deriveWindow_endsByData (hok : s.err = .ok) (i len : Nat) :
    (deriveWindow i len s).EndsByData := by
  rcases deriveWindow_cases i len s with ⟨k, -, h⟩ | ⟨-, h⟩ <;> rw [h]
  · exact (materialize_err len s).trans hok
  · exact .inr (.inl rfl)

theorem deriveSeed_endsByData (hok : s.err = .ok) (mode : Mode) (len i : Nat) :
    (deriveSeed mode len i s).EndsByData := by
  unfold deriveSeed
  split
  · exact deriveMantissa_endsByData hok i
  · exact deriveWindow_endsByData hok i len

/-- A transform ends without an error, or with the one its derivation raised (R129). -/
theorem transformFrom_err {derive : Nat → State → Derived} {apply : Nat → Byte → State → State}
    (hderive : ∀ i t, t.err = .ok → (derive i t).EndsByData)
    (happly : ∀ i k t, (apply i k t).err = t.err) (hok : s.err = .ok) (len : Nat) :
    (transformFrom derive apply len 0 s).err.FromData := by
  refine transformFrom_induction (total := len) (fun _ t => t.err = .ok) (·.err.FromData)
    ?byte ?raise (fun t ht => .inl ht) len 0 s (Nat.zero_add len) hok
  case byte =>
    intro i k u t _ hu hd
    have ht := hderive i u hu
    rw [hd] at ht
    exact (happly i k t).trans ht
  case raise =>
    intro i e j u t _ hu hd
    have ht := hderive i u hu
    rw [hd] at ht
    exact ht

theorem xtrBody_err (hok : s.err = .ok) (mode : Mode) (len : Nat) :
    (xtrBody mode len s).err.FromData := by
  have happly : ∀ i k t, (applyXor i k t).err = t.err := fun _ _ _ => rfl
  unfold xtrBody
  split
  · exact .inl hok
  · cases mode with
    | rawCast => exact transformFrom_err (fun _ _ ht => deriveRaw_endsByData ht) happly hok len
    | mantissaByte =>
      exact transformFrom_err (fun i _ ht => deriveMantissa_endsByData ht i) happly hok len
    | windowNormalized =>
      exact transformFrom_err (fun i _ ht => deriveWindow_endsByData ht i len) happly
        ((materialize_err len s).trans hok) len

theorem ptrBody_err (hok : s.err = .ok) (mode : Mode) (len : Nat) :
    (ptrBody mode len s).err.FromData := by
  have hderive := fun i t ht => deriveSeed_endsByData (s := t) ht mode len i
  have happly : ∀ i k t, (applyPerceptron i k t).err = t.err := fun _ _ _ => rfl
  unfold ptrBody
  split
  · exact .inl hok
  · split
    · exact transformFrom_err hderive happly ((materialize_err len s).trans hok) len
    · exact transformFrom_err hderive happly hok len

end EndsByData

/-! ### The checks of every command (R71 steps 2 to 4) -/

@[simp] theorem State.hasLogistic_eq_false_iff (s : State) :
    s.hasLogistic = false ↔ s.gv = false ∨ s.gvar = .int := by
  cases h : s.gvar <;> simp [State.hasLogistic, h]

@[simp] theorem State.hasGenerator_eq_false_iff (s : State) : s.hasGenerator = false ↔ s.gv = false :=
  Iff.rfl

/-- The meaning of a command is `body` behind checks that test just what the claims' terms say. -/
structure Checks (i : Instr) (s : State) (legal inBounds genReady : Bool)
    (body : State → State) : Prop where
  exec : exec i s = .next (command legal inBounds genReady body s)
  legal : legal = i.wf
  bounds : inBounds = false ↔ OutOfBounds i s
  generator : genReady = false ↔ LacksGenerator i s
  body : s.err = .ok → (body s).err.FromData

/-- Every command but CLRE goes through the checks (R71, R117). -/
theorem exec_checks {i : Instr} (hi : i ≠ .clre) (s : State) :
    ∃ legal inBounds genReady body, Checks i s legal inBounds genReady body := by
  cases i
  case clre => exact absurd rfl hi
  case wfill k =>
    exact ⟨_, _, _, _, rfl, rfl, by simp [OutOfBounds], by simp [LacksGenerator],
      fun hok => .inl ((materialize_err _ s).trans hok)⟩
  case wnorm k | wnormv =>
    exact ⟨_, _, _, _, rfl, rfl, by simp [OutOfBounds], by simp [LacksGenerator],
      fun hok => returnNormalized_err hok _ _⟩
  case xtr mode len =>
    exact ⟨_, _, _, _, rfl, rfl, by simp [OutOfBounds], by simp [LacksGenerator],
      fun hok => xtrBody_err hok mode _⟩
  case ptr mode len =>
    exact ⟨_, _, _, _, rfl, rfl, by simp [OutOfBounds], by simp [LacksGenerator],
      fun hok => ptrBody_err hok mode _⟩
  -- the bodies of the other commands leave ERR as it is
  all_goals
    exact ⟨_, _, _, _, rfl, rfl, by simp [OutOfBounds], by simp [LacksGenerator], .inl⟩

section Outcomes

variable {i : Instr} {s : State} {legal inBounds genReady : Bool} {body : State → State}

theorem Checks.inBounds_eq_true (h : Checks i s legal inBounds genReady body)
    (hbounds : ¬ OutOfBounds i s) : inBounds = true := by
  rwa [← h.bounds, Bool.not_eq_false] at hbounds

theorem Checks.genReady_eq_true (h : Checks i s legal inBounds genReady body)
    (hgen : ¬ LacksGenerator i s) : genReady = true := by
  rwa [← h.generator, Bool.not_eq_false] at hgen

theorem command_outOfBounds (hok : s.err = .ok) :
    command true false genReady body s = s.withError .bounds 0 := by
  simp [command, hok, raise_eq_withError]

theorem command_lacksGenerator (hok : s.err = .ok) :
    command true true false body s = s.withError .badGen 0 := by
  simp [command, hok, raise_eq_withError]

theorem exec_outOfBounds (hok : s.err = .ok) (hwf : i.wf = true)
    (hbounds : OutOfBounds i s) : exec i s = .next (s.withError .bounds 0) := by
  have hi : i ≠ .clre := by
    rintro rfl
    exact hbounds
  obtain ⟨legal, inBounds, genReady, body, h⟩ := exec_checks hi s
  rw [h.exec, h.legal, hwf, h.bounds.mpr hbounds]
  exact congrArg _ (command_outOfBounds hok)

theorem exec_lacksGenerator (hok : s.err = .ok) (hwf : i.wf = true)
    (hbounds : ¬ OutOfBounds i s) (hgen : LacksGenerator i s) :
    exec i s = .next (s.withError .badGen 0) := by
  have hi : i ≠ .clre := by
    rintro rfl
    exact hgen
  obtain ⟨legal, inBounds, genReady, body, h⟩ := exec_checks hi s
  rw [h.exec, h.legal, hwf, h.inBounds_eq_true hbounds, h.generator.mpr hgen]
  exact congrArg _ (command_lacksGenerator hok)

theorem exec_passesChecks (hok : s.err = .ok) (hwf : i.wf = true)
    (hbounds : ¬ OutOfBounds i s) (hgen : ¬ LacksGenerator i s) :
    ∃ t, exec i s = .next t ∧ t.err.FromData := by
  by_cases hi : i = .clre
  · subst hi
    exact ⟨_, rfl, .inl rfl⟩
  · obtain ⟨legal, inBounds, genReady, body, h⟩ := exec_checks hi s
    refine ⟨body s, ?_, h.body hok⟩
    rw [h.exec, h.legal, hwf, h.inBounds_eq_true hbounds, h.genReady_eq_true hgen, command_ready hok]

end Outcomes

/-! ### Issuing a word (R71) -/

/-- In the error state every word but CLRE's changes nothing (R130). -/
theorem issue_refused {c : Word32} {s : State} (herr : s.err ≠ .ok) (hc : c ≠ 0x01000000) :
    issue c s = .next s := by
  unfold issue
  cases h : decode c with
  | ok i =>
    have hi : i ≠ .clre := by
      rintro rfl
      exact hc ((decode_clre_iff c).mp h)
    obtain ⟨_, _, _, _, hchecks⟩ := exec_checks hi s
    exact hchecks.exec.trans (congrArg _ (command_refused herr))
  | error e => exact congrArg _ (issueIllegal_of_error herr)

/-- What a command checks does not depend on the host's side of the state. -/
theorem outOfBounds_of_access (i : Instr) (s : State) (l : List HostAccess) (r : Option Word64) :
    OutOfBounds i { s with inputs := l, reply := r } = OutOfBounds i s := by
  cases i <;> rfl

theorem lacksGenerator_of_access (i : Instr) (s : State) (l : List HostAccess) (r : Option Word64) :
    LacksGenerator i { s with inputs := l, reply := r } = LacksGenerator i s := by
  cases i <;> rfl

/-- Settles O6: each step of R71 by the lemma on issuing or executing that states it. -/
theorem issueFollowsTheOrderOfChecks : Obligations.IssueFollowsTheOrderOfChecks := by
  intro s u c rest hinputs hu
  have hstep : step s = issue c u := hu ▸ step_of_inputs hinputs
  have herr : s.err = u.err := by rw [hu]
  have hbounds (i : Instr) : OutOfBounds i s = OutOfBounds i u :=
    hu ▸ (outOfBounds_of_access i s _ _).symm
  have hgen (i : Instr) : LacksGenerator i s = LacksGenerator i u :=
    hu ▸ (lacksGenerator_of_access i s _ _).symm
  simp only [hstep, herr, hbounds, hgen]
  refine ⟨?clre, fun h hc => issue_refused h hc, ?illegal, ?bounds, ?badGen, ?executed⟩
  case clre =>
    rintro - rfl
    exact issue_of_decode (decode_encode (i := .clre) rfl) u
  case illegal =>
    intro hok hc
    rw [issue_of_wordIllegal hc, issueIllegal_of_ok hok]
  case bounds =>
    intro i hok hi h
    rw [issue_of_decode hi, exec_outOfBounds hok (wf_of_decode hi) h]
  case badGen =>
    intro i hok hi hb h
    rw [issue_of_decode hi, exec_lacksGenerator hok (wf_of_decode hi) hb h]
  case executed =>
    intro i hok hi hb hg
    obtain ⟨t, ht, hdata⟩ := exec_passesChecks hok (wf_of_decode hi) hb hg
    exact ⟨t, (issue_of_decode hi u).trans ht, ht, hdata⟩

end Sys2Proof.Machine

/-! PROOFS. The chaotic-map iterator (O21 to O25, O27, O28): what the checks of a generator command end in,
then the seven commands, the integer map, and the sequence of draws. -/

namespace Sys2Proof.Machine

open Sys2Proof

/-! ### The checks of the generator commands (R71) -/

section Generator

variable {s : State}

theorem command_illegal {inBounds genReady : Bool} {body : State → State} (hok : s.err = .ok) :
    command false inBounds genReady body s = s.withError .illegal 0 := by
  simp [command, hok, raise_eq_withError]

/-- An ill-formed command ends in ILLEGAL (R69). -/
theorem exec_illFormed {i : Instr} (hok : s.err = .ok) (hwf : i.wf = false) :
    exec i s = .next (s.withError .illegal 0) := by
  have hi : i ≠ .clre := by
    rintro rfl
    exact absurd hwf (by decide)
  obtain ⟨legal, inBounds, genReady, body, h⟩ := exec_checks hi s
  rw [h.exec, h.legal, hwf, command_illegal hok]

theorem command_hasGenerator {body : State → State} (hok : s.err = .ok) (hgv : s.gv = true) :
    command true true s.hasGenerator body s = body s := by
  rw [State.hasGenerator, hgv, command_ready hok]

theorem command_hasLogistic {body : State → State} (hok : s.err = .ok) (hgv : s.gv = true)
    (hlog : s.gvar = .log) : command true true s.hasLogistic body s = body s := by
  have hready : s.hasLogistic = true := by simp [State.hasLogistic, hgv, hlog]
  rw [hready, command_ready hok]

/-- A result of the full width goes to DATA as it is (R27). -/
theorem State.returnResult_word64 (s : State) (v : Word64) : s.returnResult v = { s with data := v } :=
  congrArg s.setData (BitVec.setWidth_eq v)

/-! ### Construction (R78, R79) -/

theorem exec_gnewi {n : BitVec 6} (hok : s.err = .ok) (hn : legalExponent n = true) :
    exec (.gnewi n) s = .next { s with
      gv := true, gvar := .int, gn := n,
      gval := (s.data.extractLsb' 0 32).setWidth 64, gpar := 0 } := by
  change Host.Outcome.next (command (legalExponent n) true true _ s) = _
  rw [hn, command_ready hok]
  rfl

/-! ### Drawing (R75 to R77, R80) -/

theorem draw_of_int (hint : s.gvar = .int) :
    (draw s).1 = BitVec.ofNat 64 (intStep (s.gval.toNat % 2 ^ 32) s.gn.toNat) := by
  simp [draw, nextValue, hint]

theorem draw_of_log (hlog : s.gvar = .log) : (draw s).1 = logStep s.gval s.gpar := by
  simp [draw, nextValue, hlog]

theorem exec_gnext (hok : s.err = .ok) (hgv : s.gv = true) :
    exec .gnext s = .next { s with gval := (draw s).1, data := (draw s).1 } :=
  calc exec .gnext s
      = .next ((draw s).2.returnResult (draw s).1) :=
        congrArg Host.Outcome.next (command_hasGenerator hok hgv)
    _ = .next { s with gval := (draw s).1, data := (draw s).1 } :=
        congrArg Host.Outcome.next (State.returnResult_word64 _ _)

/-! ### The accessors (R81 to R84) -/

theorem exec_ggetv (hok : s.err = .ok) (hgv : s.gv = true) :
    exec .ggetv s = .next { s with data := s.gval } :=
  calc exec .ggetv s
      = .next (s.returnResult s.gval) :=
        congrArg Host.Outcome.next (command_hasGenerator hok hgv)
    _ = .next { s with data := s.gval } := congrArg Host.Outcome.next (s.returnResult_word64 _)

theorem exec_gsetv (hok : s.err = .ok) (hgv : s.gv = true) :
    exec .gsetv s = .next { s with gval := setValueOperand s } :=
  congrArg Host.Outcome.next (command_hasGenerator hok hgv)

theorem setValueOperand_of_int (hint : s.gvar = .int) :
    setValueOperand s = (s.data.extractLsb' 0 32).setWidth 64 := by
  rw [setValueOperand, hint, zext64, State.dataWord]

theorem setValueOperand_of_log (hlog : s.gvar = .log) : setValueOperand s = s.data := by
  rw [setValueOperand, hlog, State.dataOperand]

theorem exec_ggetp (hok : s.err = .ok) (hgv : s.gv = true) (hlog : s.gvar = .log) :
    exec .ggetp s = .next { s with data := s.gpar } :=
  calc exec .ggetp s
      = .next (s.returnResult s.gpar) :=
        congrArg Host.Outcome.next (command_hasLogistic hok hgv hlog)
    _ = .next { s with data := s.gpar } := congrArg Host.Outcome.next (s.returnResult_word64 _)

theorem exec_gsetp (hok : s.err = .ok) (hgv : s.gv = true) (hlog : s.gvar = .log) :
    exec .gsetp s = .next { s with gpar := s.data } :=
  congrArg Host.Outcome.next (command_hasLogistic hok hgv hlog)

end Generator

/-! ### The statements on the commands (R78 to R84) -/

/-- Settles O21: the exponent is the only check, and it is legal from 1 to 32. -/
theorem gnewiConstructsAnIntegerGenerator : Obligations.GnewiConstructsAnIntegerGenerator :=
  fun n _ hok =>
    ⟨fun h1 h32 => exec_gnewi hok ((legalExponent_iff n).mpr ⟨h1, h32⟩),
      fun hn => exec_illFormed hok ((legalExponent_eq_false_iff n).mpr hn)⟩

/-- Settles O22: GNEWL has no check but that for a pending error. -/
theorem gnewlConstructsALogisticGenerator : Obligations.GnewlConstructsALogisticGenerator :=
  fun _ hok => congrArg Host.Outcome.next (command_ready hok)

/-- Settles O23: GNEXT stores the draw twice, and the draw is the map of the variant. -/
theorem gnextDrawsOnceAndReturnsTheValue : Obligations.GnextDrawsOnceAndReturnsTheValue := by
  refine fun s hok => ⟨fun hgv => exec_lacksGenerator hok rfl not_false hgv, ?int, ?log⟩
  case int =>
    rintro v r x hgv hint rfl rfl rfl
    rw [exec_gnext hok hgv, draw_of_int hint, intStep]
  case log =>
    rintro t1 t2 x hgv hlog rfl rfl rfl
    rw [exec_gnext hok hgv, draw_of_log hlog, logStep, Config.fOne]

/-- Settles O24: the two commands where there is a generator, the operand GSETV stores under each variant,
and the invariant's clause on GVAL. -/
theorem valueAccessorsReadAndWriteGVAL : Obligations.ValueAccessorsReadAndWriteGVAL := by
  refine fun s hok => ⟨exec_ggetv hok, fun hs => hs.intValue, ?int, ?log, ?badGen⟩
  case int =>
    intro hgv hint
    rw [exec_gsetv hok hgv, setValueOperand_of_int hint]
  case log =>
    intro hgv hlog
    rw [exec_gsetv hok hgv, setValueOperand_of_log hlog]
  case badGen =>
    intro hgv
    exact ⟨exec_lacksGenerator hok rfl not_false hgv, exec_lacksGenerator hok rfl not_false hgv⟩

/-- Settles O25: the two commands with a logistic generator, and the check they share without one. -/
theorem coefficientAccessorsReadAndWriteGPAR : Obligations.CoefficientAccessorsReadAndWriteGPAR :=
  fun _ hok =>
    ⟨fun hgv hlog => ⟨exec_ggetp hok hgv hlog, exec_gsetp hok hgv hlog⟩,
      fun h => ⟨exec_lacksGenerator hok rfl not_false h, exec_lacksGenerator hok rfl not_false h⟩⟩

/-! ### The integer map (R76, R86) -/

/-- Reducing the argument first does not change the reduced product. -/
theorem intStep_mod (v n : Nat) : intStep (v % 2 ^ n) n = intStep v n := by
  have hv : v % 2 ^ n ≡ v [MOD 2 ^ n] := Nat.mod_modEq v _
  have hproduct : v % 2 ^ n * (1 + v % 2 ^ n) % 2 ^ n = v * (1 + v) % 2 ^ n :=
    hv.mul (hv.add_left 1)
  rw [intStep, hproduct, intStep]

theorem intStep_le {v n : Nat} (hn : 2 ≤ n) : intStep v n ≤ 2 ^ n - 1 := by
  have hpow : 2 ^ 2 ≤ 2 ^ n := Nat.pow_le_pow_right two_pos hn
  have hrange := intStep_range v (one_le_two.trans hn)
  omega

theorem intStep_one (v : Nat) : intStep v 1 = 2 := by
  have hrange := intStep_range v le_rfl
  omega

/-- Settles O27: a product of neighbours is even; the range of the map (`intStep_range`) gives the rest but
the dependence on `v mod 2^n`. -/
theorem integerMapFacts : Obligations.IntegerMapFacts := by
  intro v n hn
  have heven : v * (1 + v) % 2 = 0 := by
    rw [Nat.add_comm]
    exact Nat.even_iff.mp (Nat.even_mul_succ_self v)
  have hrange : intStep v n = 2 ∨ intStep v n % 2 = 1 ∧ 3 ≤ intStep v n :=
    (intStep_range v hn).imp_right fun ⟨hodd, hthree, _⟩ => ⟨hodd, hthree⟩
  refine ⟨?map, heven, hrange, intStep_le, ?one, (intStep_mod v n).symm⟩
  case map =>
    rintro _ rfl
    rfl
  case one =>
    rintro rfl
    exact intStep_one v

/-! ### The sequence of draws (R75, R85) -/

theorem drawnValue_zero (s : State) : drawnValue s 0 = (draw s).1 := rfl

/-- A draw's value is what it leaves in GVAL. -/
theorem drawnValue_eq_gval (s : State) (m : Nat) : drawnValue s m = (drawTimes (m + 1) s).gval := by
  rw [drawTimes_succ]
  rfl

theorem SameGenerator.drawnValue_eq {s t : State} (h : SameGenerator s t) :
    drawnValue s = drawnValue t := by
  obtain ⟨-, hvar, hn, hval, hpar⟩ := h
  funext m
  rw [drawnValue_eq_gval, drawnValue_eq_gval]
  exact drawTimes_congr hvar hn hval hpar (m + 1)

/-- DATA is no part of the generator. -/
theorem drawnValue_setData (s : State) (v : Word64) : drawnValue (s.setData v) = drawnValue s :=
  SameGenerator.drawnValue_eq ⟨rfl, rfl, rfl, rfl, rfl⟩

theorem gnextOutputs_succ {s : State} (hok : s.err = .ok) (hgv : s.gv = true) (k : Nat) :
    gnextOutputs (k + 1) s = (draw s).1 :: gnextOutputs k ((draw s).2.setData (draw s).1) := by
  rw [gnextOutputs, exec_gnext hok hgv]
  rfl

/-- GNEXT returns the draws of the state in order: each leaves the generator a draw leaves. -/
theorem gnextOutputs_eq_draws (k : Nat) {s : State} (hok : s.err = .ok) (hgv : s.gv = true) :
    gnextOutputs k s = (List.range k).map (drawnValue s) := by
  induction k generalizing s with
  | zero => rfl
  | succ k ih =>
    calc gnextOutputs (k + 1) s
        = (draw s).1 :: gnextOutputs k ((draw s).2.setData (draw s).1) :=
          gnextOutputs_succ hok hgv k
      _ = drawnValue s 0 :: (List.range k).map (drawnValue (draw s).2) := by
          rw [ih (s := (draw s).2.setData (draw s).1) hok hgv, drawnValue_setData, drawnValue_zero]
      _ = (List.range (k + 1)).map (drawnValue s) := by
          rw [List.range_succ_eq_map, List.map_cons, List.map_map]
          rfl

/-- Settles O28: both sequences are the draws of their states, which the generator alone decides. -/
theorem drawsDependOnTheGeneratorOnly : Obligations.DrawsDependOnTheGeneratorOnly := by
  intro k s t hsame hgv hs ht
  have hgv' : t.gv = true := hsame.1.symm.trans hgv
  have houtputs := gnextOutputs_eq_draws k hs hgv
  refine ⟨?_, houtputs⟩
  rw [houtputs, gnextOutputs_eq_draws k ht hgv', hsame.drawnValue_eq]

end Sys2Proof.Machine

/-! PROOFS. The mantissa-byte extractor (O36): the pattern `Extract` is given is the lower half of DATA. -/

namespace Sys2Proof.Machine

open Sys2Proof

/-- The low byte of the binary32 operand is that of DATA (R45, R87). -/
theorem extract_dataWord (s : State) : extract s.dataWord = s.data.extractLsb' 0 8 := by
  rw [extract, State.dataWord, BitVec.extractLsb'_extractLsb'_of_le (by decide)]

/-- Settles O36: MEXT has no check but that for a pending error, and its result goes to DATA zero-extended. -/
theorem mextReturnsTheLowByte : Obligations.MextReturnsTheLowByte := by
  intro s hok
  calc exec .mext s
      = .next (s.returnResult (extract s.dataWord)) :=
        congrArg Host.Outcome.next (command_ready hok)
    _ = .next { s with data := (s.data.extractLsb' 0 8).setWidth 64 } := by
        rw [extract_dataWord]
        rfl

end Sys2Proof.Machine

/-! PROOFS. The window and the quantiser (O37 to O44, O47): the commands on the window, the scan for minimum
and maximum, the commands that normalise, the bounds of a normalisation, then the loop of XTR WindowNormalized. -/

namespace Sys2Proof.Machine

open Sys2Proof

/-! ### The commands on the window (R92 to R95) -/

section WindowCommands

variable {s : State} {k : BitVec 16}

theorem command_inBounds {inBounds : Prop} [Decidable inBounds] {body : State → State}
    (hok : s.err = .ok) (h : inBounds) : command true (decide inBounds) true body s = body s := by
  rw [decide_eq_true h, command_ready hok]

theorem exec_wwr (hok : s.err = .ok) (hk : k.toNat < s.wcap) :
    exec (.wwr k) s = .next (s.winWrite k.toNat s.data) :=
  congrArg Host.Outcome.next (command_inBounds hok hk)

theorem exec_wrd (hok : s.err = .ok) (hk : k.toNat < s.wcap) :
    exec (.wrd k) s = .next { s with data := s.winRead k.toNat } :=
  calc exec (.wrd k) s
      = .next (s.returnResult (s.winRead k.toNat)) :=
        congrArg Host.Outcome.next (command_inBounds hok hk)
    _ = .next { s with data := s.winRead k.toNat } :=
        congrArg Host.Outcome.next (s.returnResult_word64 _)

theorem exec_wfill (hok : s.err = .ok) (hk : k.toNat ≤ s.wcap) (hgv : s.gv = true) :
    exec (.wfill k) s = .next (materialize k.toNat s) :=
  calc exec (.wfill k) s
      = .next (command true (decide (k.toNat ≤ s.wcap)) s.hasGenerator (materialize k.toNat) s) := rfl
    _ = .next (materialize k.toNat s) := by rw [decide_eq_true hk, command_hasGenerator hok hgv]

end WindowCommands

/-- Settles O37: the capacity of the window is the only check. -/
theorem wsetlSetsTheLength : Obligations.WsetlSetsTheLength :=
  ⟨fun _ => rfl, fun k s hok =>
    ⟨fun hk => congrArg Host.Outcome.next (command_inBounds (inBounds := k.toNat ≤ s.wcap) hok hk),
      fun hk => exec_outOfBounds hok rfl hk⟩⟩

/-- Settles O38: one rule for each command, and a read after the write. -/
theorem windowEntriesAreWrittenAndRead : Obligations.WindowEntriesAreWrittenAndRead := fun k s hok =>
  ⟨fun hk => ⟨_, exec_wwr hok hk, fun j => s.winRead_winWrite k.toNat j s.data, s.winWrite_frame _ _⟩,
    exec_wrd hok, fun hk => ⟨exec_outOfBounds hok rfl hk, exec_outOfBounds hok rfl hk⟩⟩

/-- A draw as a floating value is the image of the number under INT, the draw itself under LOG (R75). -/
theorem drawnFloat_eq (s : State) (j : Nat) :
    drawnFloat s j = floatOfDraw s.gvar (drawnValue s j) := by
  rw [drawnFloat, drawF, drawnValue, drawTimes_frame j s]

/-- Materialising a window leaves everything but WIN, WLEN and GVAL. -/
theorem materialize_frame (len : Nat) (s : State) :
    { materialize len s with win := s.win, wlen := s.wlen, gval := s.gval } = s := by
  rw [(materialize_spec len s).2]

/-- Settles O39: past its checks WFILL is `materialize`, which `materialize_spec` describes. -/
theorem wfillMaterialisesTheDraws : Obligations.WfillMaterialisesTheDraws := by
  refine fun k s hok => ⟨fun hk hgv => ?filled, fun hint j => ?int, fun hlog j => ?log,
    fun hk hgv => exec_lacksGenerator hok rfl (not_lt.mpr hk) hgv, fun hk => exec_outOfBounds hok rfl hk⟩
  case filled =>
    obtain ⟨hread, hstate⟩ := materialize_spec k.toNat s
    refine ⟨_, exec_wfill hok hk hgv, hread, ?_, by rw [hstate], materialize_frame _ s⟩
    rw [hstate, BitVec.ofNat_toNat, BitVec.setWidth_eq]
  case int => rw [drawnFloat_eq, hint, floatOfDraw]
  case log => rw [drawnFloat_eq, hlog, floatOfDraw]

/-! ### The scan for minimum and maximum (R90)

Both scans keep the entry with the least `key`, the value for the minimum and its negation for the maximum,
and an entry takes the place of the one kept only when its key is strictly less. -/

/-- `x` takes the place of `y` in a scan for the least `key`: a comparison with a NaN is false (R20). -/
def beats (key : Word64 → Int) (x y : Word64) : Bool :=
  !F64.isNaN x && !F64.isNaN y && decide (key x < key y)

/-- One step of a scan for the least `key`. -/
def scanStep (key : Word64 → Int) (kept x : Word64) : Word64 := if beats key x kept then x else kept

/-- The entry a scan of `first :: rest` for the least `key` finds. -/
def scanLeast (key : Word64 → Int) (first : Word64) (rest : List Word64) : Word64 :=
  rest.foldl (scanStep key) first

theorem lt_eq_beats (a b : Word64) : F64.lt a b = beats F64.units a b := rfl

theorem gt_eq_beats (a b : Word64) : F64.gt a b = beats (-F64.units ·) a b := by
  simp [F64.gt, beats]

theorem windowMin_eq_scanLeast : windowMin = scanLeast F64.units := rfl

theorem windowMax_eq_scanLeast : windowMax = scanLeast (-F64.units ·) := by
  have hstep : scanMax = scanStep (-F64.units ·) := by
    funext mx x
    rw [scanMax, gt_eq_beats, scanStep]
  funext first rest
  rw [windowMax, hstep, scanLeast]

section Scan

variable {key : Word64 → Int} {x y z : Word64}

theorem beats_iff :
    beats key x y = true ↔ F64.isNaN x = false ∧ F64.isNaN y = false ∧ key x < key y := by
  simp [beats, and_assoc]

theorem beats_self (key : Word64 → Int) (x : Word64) : beats key x x = false := by simp [beats]

theorem beats_of_nan_left (h : F64.isNaN x = true) : beats key x y = false := by simp [beats, h]

theorem beats_of_nan_right (h : F64.isNaN y = true) : beats key x y = false := by simp [beats, h]

/-- What does not beat a kept entry does not beat the entry that takes its place. -/
theorem not_beats_of_beats (hxy : beats key x y = false) (hzy : beats key z y = true) :
    beats key x z = false := by
  rw [← Bool.not_eq_true, beats_iff] at hxy ⊢
  obtain ⟨-, hy, hlt⟩ := beats_iff.mp hzy
  exact fun ⟨hx, _, hxz⟩ => hxy ⟨hx, hy, hxz.trans hlt⟩

/-- An entry that takes a kept one's place equals none that did not. -/
theorem eq_false_of_beats (hxy : beats key x y = false) (hzy : beats key z y = true)
    (hkey : ∀ a b, F64.units a = F64.units b → key a = key b) : F64.eq x z = false := by
  rw [← Bool.not_eq_true, beats_iff] at hxy
  obtain ⟨-, hy, hlt⟩ := beats_iff.mp hzy
  rw [← Bool.not_eq_true]
  intro heq
  simp only [F64.eq, Bool.and_eq_true, Bool.not_eq_true', decide_eq_true_eq] at heq
  obtain ⟨⟨hx, -⟩, hunits⟩ := heq
  exact hxy ⟨hx, hy, (hkey x z hunits).trans_lt hlt⟩

theorem scanLeast_append_singleton (key : Word64 → Int) (first : Word64) (l : List Word64) (x : Word64) :
    scanLeast key first (l ++ [x]) = scanStep key (scanLeast key first l) x :=
  List.foldl_concat _ _ _ _

/-- No entry of a window beats the one the scan finds, with or without a NaN among them. -/
theorem not_beats_scanLeast (key : Word64 → Int) (first : Word64) (rest : List Word64) :
    ∀ x ∈ first :: rest, beats key x (scanLeast key first rest) = false := by
  induction rest using List.reverseRecOn with
  | nil => simp [scanLeast, beats_self]
  | append_singleton l y ih =>
    intro x hx
    rw [← List.cons_append, List.mem_append, List.mem_singleton] at hx
    rw [scanLeast_append_singleton, scanStep]
    split
    case isTrue hy =>
      rcases hx with hx | rfl
      · exact not_beats_of_beats (ih x hx) hy
      · exact beats_self key x
    case isFalse hy =>
      rcases hx with hx | rfl
      · exact ih x hx
      · exact Bool.eq_false_iff.mpr hy

/-- The scan finds an entry that no entry before it equals. -/
theorem scanLeast_first_met (hkey : ∀ a b, F64.units a = F64.units b → key a = key b) (first : Word64)
    (rest : List Word64) : ∃ l r, first :: rest = l ++ scanLeast key first rest :: r ∧
      ∀ x ∈ l, F64.eq x (scanLeast key first rest) = false := by
  induction rest using List.reverseRecOn with
  | nil => exact ⟨[], [], rfl, by simp⟩
  | append_singleton rest y ih =>
    rw [scanLeast_append_singleton, scanStep]
    split
    case isTrue hy =>
      exact ⟨first :: rest, [], rfl,
        fun x hx => eq_false_of_beats (not_beats_scanLeast key first rest x hx) hy hkey⟩
    case isFalse hy =>
      obtain ⟨l, r, hsplit, hl⟩ := ih
      exact ⟨l, r ++ [y], by rw [← List.cons_append, hsplit]; simp, hl⟩

theorem scanLeast_mem (hkey : ∀ a b, F64.units a = F64.units b → key a = key b) (first : Word64)
    (rest : List Word64) : scanLeast key first rest ∈ first :: rest := by
  obtain ⟨l, r, hsplit, -⟩ := scanLeast_first_met hkey first rest
  rw [hsplit]
  simp

/-- A NaN in entry 0 stays (R90). -/
theorem scanLeast_of_nan (h : F64.isNaN x = true) (rest : List Word64) :
    scanLeast key x rest = x := by
  induction rest using List.reverseRecOn with
  | nil => rfl
  | append_singleton l y ih => simp [scanLeast_append_singleton, ih, scanStep, beats_of_nan_right h]

/-- A NaN met later is skipped (R90). -/
theorem scanLeast_skips_nan (h : F64.isNaN x = true) (first : Word64) (l r : List Word64) :
    scanLeast key first (l ++ x :: r) = scanLeast key first (l ++ r) := by
  simp [scanLeast, scanStep, beats_of_nan_left h]

/-- Of two zeros the one met first is kept (R90). -/
theorem scanLeast_of_zeros (hkey : ∀ a b, F64.units a = F64.units b → key a = key b)
    (hx : F64.isZero x = true) (hy : F64.isZero y = true) : scanLeast key x [y] = x := by
  have hequal : key y = key x :=
    hkey y x ((F64.units_of_isZero hy).trans (F64.units_of_isZero hx).symm)
  simp [scanLeast, scanStep, beats, hequal]

end Scan

theorem neg_units_congr (a b : Word64) (h : F64.units a = F64.units b) :
    -F64.units a = -F64.units b := congrArg Neg.neg h

theorem windowMin_mem (first : Word64) (rest : List Word64) :
    windowMin first rest ∈ first :: rest := by
  rw [windowMin_eq_scanLeast]
  exact scanLeast_mem (fun _ _ h => h) first rest

theorem windowMax_mem (first : Word64) (rest : List Word64) :
    windowMax first rest ∈ first :: rest := by
  rw [windowMax_eq_scanLeast]
  exact scanLeast_mem neg_units_congr first rest

theorem not_lt_windowMin {first x : Word64} {rest : List Word64} (hx : x ∈ first :: rest) :
    F64.lt x (windowMin first rest) = false := by
  rw [lt_eq_beats, windowMin_eq_scanLeast]
  exact not_beats_scanLeast _ first rest x hx

theorem not_gt_windowMax {first x : Word64} {rest : List Word64} (hx : x ∈ first :: rest) :
    F64.gt x (windowMax first rest) = false := by
  rw [gt_eq_beats, windowMax_eq_scanLeast]
  exact not_beats_scanLeast _ first rest x hx

/-- Settles O42: each clause is one on the scan for the least key, said of both scans. -/
theorem scanFindsMinimumAndMaximum : Obligations.ScanFindsMinimumAndMaximum := by
  refine ⟨fun first rest _ => ⟨windowMin_mem first rest, windowMax_mem first rest,
    fun x hx => ⟨not_lt_windowMin hx, not_gt_windowMax hx⟩⟩, ?_⟩
  rw [windowMin_eq_scanLeast, windowMax_eq_scanLeast]
  exact ⟨fun _ rest h => ⟨scanLeast_of_nan h rest, scanLeast_of_nan h rest⟩,
    fun first _ l r h => ⟨scanLeast_skips_nan h first l r, scanLeast_skips_nan h first l r⟩,
    fun first rest => ⟨scanLeast_first_met (fun _ _ h => h) first rest,
      scanLeast_first_met neg_units_congr first rest⟩,
    fun _ _ hz hz' => ⟨scanLeast_of_zeros (fun _ _ h => h) hz hz',
      scanLeast_of_zeros neg_units_congr hz hz'⟩⟩

/-! ### The commands that normalise (R91, R96, R97) -/

section Normalising

variable {s : State} {first : Word64} {rest : List Word64}

theorem normalize_cons (first : Word64) (rest : List Word64) (v : Word64) :
    normalize (first :: rest) v = if F64.eq (windowMax first rest) 0 then none
      else some (F64.toByte
        (normalizedValue v (windowMin first rest) (windowMax first rest))) := rfl

theorem exec_wnorm {k : BitVec 16} (hok : s.err = .ok) (hk : k.toNat < s.wlen.toNat) :
    exec (.wnorm k) s =
      .next (returnNormalized (normalize s.window (s.winRead k.toNat)) k.toNat s) :=
  congrArg Host.Outcome.next (command_inBounds hok hk)

theorem exec_wnormv (hok : s.err = .ok) (hlen : s.wlen.toNat ≠ 0) :
    exec .wnormv s = .next (returnNormalized (normalize s.window s.data) 0 s) :=
  congrArg Host.Outcome.next (command_inBounds hok hlen)

/-- How WNORM and WNORMV end on the window `first :: rest`: DIV_ZERO for a zero maximum, else the byte in DATA
and nothing else changed. -/
theorem returnNormalized_normalize (hwindow : s.window = first :: rest) (v : Word64) (k : Nat) :
    (F64.eq (windowMax first rest) 0 = true →
      returnNormalized (normalize s.window v) k s = s.withError .divZero (BitVec.ofNat 16 k)) ∧
    (F64.eq (windowMax first rest) 0 = false →
      returnNormalized (normalize s.window v) k s = { s with
        data := (F64.toByte (normalizedValue v (windowMin first rest)
          (windowMax first rest))).setWidth 64 }) := by
  rw [hwindow, normalize_cons]
  constructor <;> intro h <;> rw [h] <;> rfl

end Normalising

/-- Settles O40: past its check WNORM ends as `returnNormalized_normalize` says for entry `k`. -/
theorem wnormNormalisesAnEntry : Obligations.WnormNormalisesAnEntry := by
  refine fun k s hok => ⟨fun hk => exec_outOfBounds hok rfl hk,
    fun first rest mn mx hk hwindow hmn hmx => ?_⟩
  subst hmn hmx
  have h := returnNormalized_normalize (s := s) hwindow (s.winRead k.toNat) k.toNat
  rw [BitVec.ofNat_toNat, BitVec.setWidth_eq] at h
  rw [exec_wnorm hok hk]
  exact h.imp (congrArg _ ∘ ·) (congrArg _ ∘ ·)

/-- Settles O41: past its check WNORMV ends as `returnNormalized_normalize` says for DATA. -/
theorem wnormvNormalisesDATA : Obligations.WnormvNormalisesDATA := by
  refine fun s hok => ⟨fun hlen => exec_outOfBounds hok rfl hlen,
    fun first rest mn mx hlen hwindow hmn hmx => ?_⟩
  subst hmn hmx
  rw [exec_wnormv hok hlen]
  exact (returnNormalized_normalize (s := s) hwindow s.data 0).imp (congrArg _ ∘ ·) (congrArg _ ∘ ·)

/-! ### The bounds of a normalisation (R98)

Each of the three operations of R91 rounds a ratio that is not negative, so it stays at or below any
representable bound of the exact result, and at the bound's value only where the step before it was. -/

/-- Neighbouring values of a format are at least one part in `2^p` apart. -/
theorem patternValue_gap (p : Nat) (hp : 1 ≤ p) {m' m : Nat} (h : m' < m) :
    2 ^ p * patternValue p m' ≤ (2 ^ p - 1) * patternValue p m := by
  obtain ⟨k', hk', hval'⟩ := patternValue_significand p m' hp
  obtain ⟨k, -, hval⟩ := patternValue_significand p m hp
  have hlt := patternValue_strictMono p h
  obtain ⟨e, he⟩ := Nat.exists_eq_add_of_le
    (Nat.sub_le_sub_right (Nat.div_le_div_right (c := 2 ^ (p - 1)) h.le) 1)
  rw [he, pow_add, ← mul_assoc, Nat.mul_right_comm] at hval
  rw [hval', hval] at hlt ⊢
  have hsignificand : k' < k * 2 ^ e := Nat.lt_of_mul_lt_mul_right hlt
  have hgap : 2 ^ p * k' ≤ (2 ^ p - 1) * (k * 2 ^ e) :=
    calc 2 ^ p * k' ≤ (2 ^ p - 1) * (k' + 1) := by
          obtain ⟨n, hn⟩ : ∃ n, 2 ^ p = n + 1 := ⟨2 ^ p - 1, by omega⟩
          rw [hn, Nat.add_sub_cancel]
          nlinarith
      _ ≤ (2 ^ p - 1) * (k * 2 ^ e) := Nat.mul_le_mul_left _ hsignificand
  rw [← mul_assoc, ← mul_assoc]
  exact Nat.mul_le_mul_right _ hgap

/-- The greatest pattern below 1.0. -/
def F64.belowOne : Word64 := 0x3FEFFFFFFFFFFFFF

/-- The greatest pattern below 255.0. -/
def F64.below255 : Word64 := 0x406FDFFFFFFFFFFF

theorem F64.magnitude_of_normal {p : Word64} {e k : Nat} (he : F64.exponent p = e + 1)
    (hk : 2 ^ 52 + F64.fraction p = k) : F64.magnitude p = k * 2 ^ e := by
  rw [F64.magnitude, he, hk, if_neg (Nat.succ_ne_zero e), Nat.add_sub_cancel]

theorem F64.magnitude_fOne : F64.magnitude Config.fOne = F64.one := by
  rw [F64.magnitude_of_normal (e := 1022) (k := 2 ^ 52) (by decide) (by decide),
    F64.one_eq_mul (show 52 + 1022 = 1074 by norm_num)]

theorem F64.magnitude_f255 : F64.magnitude Config.f255 = 255 * F64.one := by
  rw [F64.magnitude_of_normal (e := 1029) (k := 255 * 2 ^ 45) (by decide) (by decide),
    F64.one_eq_mul (show 45 + 1029 = 1074 by norm_num), mul_assoc]

/-- One part in `2^53` below 1.0. -/
theorem F64.magnitude_belowOne : 2 ^ 53 * F64.magnitude F64.belowOne = (2 ^ 53 - 1) * F64.one := by
  rw [F64.magnitude_of_normal (e := 1021) (k := 2 ^ 53 - 1) (by decide) (by decide),
    F64.one_eq_mul (show 53 + 1021 = 1074 by norm_num), Nat.mul_left_comm]

/-- `2^8` parts in `2^53` below 255.0. -/
theorem F64.magnitude_below255 :
    2 ^ 53 * F64.magnitude F64.below255 = (255 * 2 ^ 53 - 2 ^ 8) * F64.one := by
  rw [F64.magnitude_of_normal (e := 1029) (k := 255 * 2 ^ 45 - 1) (by decide) (by decide),
    F64.one_eq_mul (show 45 + 1029 = 1074 by norm_num), ← mul_assoc, ← mul_assoc]
  norm_num only

theorem F64.magnitude_below255_lt : F64.magnitude F64.below255 < 255 * F64.one := by
  have h := F64.magnitude_below255
  have hpos := F64.one_pos
  omega

/-! ### Ratios that are not negative -/

/-- A finite pattern whose value is not negative and at most `bound` units. -/
structure F64.Within (bound : Nat) (p : Word64) : Prop where
  finite : F64.isFinite p = true
  nonneg : 0 ≤ F64.units p
  le : F64.units p ≤ bound

section Bounds

variable {p a b : Word64} {bound : Nat}

theorem F64.Within.magnitude_le (h : F64.Within bound p) : F64.magnitude p ≤ bound := by
  have hle := h.le
  rw [F64.units_of_nonneg h.nonneg] at hle
  exact_mod_cast hle

theorem F64.Within.mono (h : F64.Within bound p) {bound' : Nat} (hle : bound ≤ bound') :
    F64.Within bound' p := ⟨h.finite, h.nonneg, h.le.trans (Nat.cast_le.mpr hle)⟩

/-- A pattern with the sign bit and no negative value is a zero. -/
theorem F64.magnitude_eq_zero_of_sign (h : 0 ≤ F64.units p) (hs : F64.sign p = true) :
    F64.magnitude p = 0 := by
  simp only [F64.units, hs, if_true] at h
  omega

theorem F64.sign_of_units_pos (h : 0 < F64.units p) : F64.sign p = false := by
  rw [← Bool.not_eq_true]
  intro hs
  simp only [F64.units, hs, if_true] at h
  omega

/-- A product or quotient by a positive pattern is negative only as a zero. -/
theorem F64.magnitude_eq_zero_of_bne (ha : 0 ≤ F64.units a) (hb : F64.sign b = false)
    (h : (F64.sign a != F64.sign b) = true) : F64.magnitude a = 0 := by
  rw [hb, Bool.bne_false] at h
  exact F64.magnitude_eq_zero_of_sign ha h

/-- `ofRatio_le` as a bound. -/
theorem F64.ofRatio_within {neg : Bool} {n d : Nat} (hd : 0 < d) (hneg : neg = true → n = 0)
    (hp : F64.isFinite p = true) (h : n ≤ d * F64.magnitude p) :
    F64.Within (F64.magnitude p) (F64.ofRatio neg n d) := by
  obtain ⟨hfinite, hnonneg, hle, -⟩ := F64.ofRatio_le neg n d hd hneg hp h
  exact ⟨hfinite, hnonneg, hle⟩

/-- The value of a magnitude below another is at least one part in `2^53` below it. -/
theorem F64.magnitude_gap (h : F64.magnitude a < F64.magnitude b) :
    2 ^ 53 * F64.magnitude a ≤ (2 ^ 53 - 1) * F64.magnitude b := by
  rw [F64.magnitude_eq, F64.magnitude_eq] at h ⊢
  exact patternValue_gap 53 (by norm_num) ((patternValue_strictMono 53).lt_iff_lt.mp h)

end Bounds

/-! ### The three operations of R91 -/

section Operations

variable {v mn mx t : Word64}

/-- The difference is at most the target. -/
theorem F64.sub_within (hv : F64.isFinite v = true) (hmn : F64.isFinite mn = true)
    (hnonneg : 0 ≤ F64.units mn) (hle : F64.units mn ≤ F64.units v) :
    F64.Within (F64.magnitude v) (F64.sub v mn) := by
  have hv0 := F64.units_of_nonneg (hnonneg.trans hle)
  by_cases heq : F64.units v = F64.units mn
  · have hzero := F64.isZero_zero (F64.sign v && !F64.sign mn)
    rw [F64.sub_of_equal hv hmn heq]
    exact ⟨F64.isFinite_of_isZero hzero, (F64.units_of_isZero hzero).ge,
      (F64.units_of_isZero hzero).trans_le (by omega)⟩
  · rw [F64.sub_of_finite hv hmn heq, decide_eq_false (not_lt.mpr hle)]
    exact F64.ofRatio_within Nat.one_pos nofun hv (by omega)

/-- The quotient by the maximum is at most 1.0, is 1.0 for the maximum itself, and does not round up to 1.0 from
any smaller difference. -/
theorem F64.div_within_one (hmx : F64.isFinite mx = true) (hpos : 0 < F64.units mx)
    (ht : F64.Within (F64.magnitude mx) t) :
    F64.Within F64.one (F64.div t mx) ∧
    (F64.magnitude t = F64.magnitude mx → F64.units (F64.div t mx) = F64.one) ∧
    (F64.magnitude t < F64.magnitude mx → F64.Within (F64.magnitude F64.belowOne) (F64.div t mx)) := by
  have hmx0 : 0 < F64.magnitude mx := by
    rw [F64.units_of_nonneg hpos.le] at hpos
    exact_mod_cast hpos
  have hz : F64.isZero mx = false := by
    rw [← Bool.not_eq_true, ← F64.magnitude_eq_zero_iff]
    exact hmx0.ne'
  have hneg : (F64.sign t != F64.sign mx) = true → F64.magnitude t * F64.one = 0 := fun h => by
    rw [F64.magnitude_eq_zero_of_bne ht.nonneg (F64.sign_of_units_pos hpos) h, zero_mul]
  rw [F64.div_of_finite ht.finite hmx hz]
  obtain ⟨hfinite, hnonneg, hle, hexact⟩ := F64.ofRatio_le _ (F64.magnitude t * F64.one) _ hmx0 hneg
    (y := Config.fOne) (by decide)
    (by rw [F64.magnitude_fOne]; exact Nat.mul_le_mul_right _ ht.magnitude_le)
  rw [F64.magnitude_fOne] at hle hexact
  refine ⟨⟨hfinite, hnonneg, hle⟩, fun h => hexact (by rw [h]), fun h => ?_⟩
  refine F64.ofRatio_within hmx0 hneg (by decide) (Nat.le_of_mul_le_mul_left ?_ (Nat.two_pow_pos 53))
  calc 2 ^ 53 * (F64.magnitude t * F64.one)
      = 2 ^ 53 * F64.magnitude t * F64.one := by rw [mul_assoc]
    _ ≤ (2 ^ 53 - 1) * F64.magnitude mx * F64.one := Nat.mul_le_mul_right _ (F64.magnitude_gap h)
    _ = F64.magnitude mx * ((2 ^ 53 - 1) * F64.one) := by ring
    _ = 2 ^ 53 * (F64.magnitude mx * F64.magnitude F64.belowOne) := by
        rw [← F64.magnitude_belowOne]; ring

/-- A factor below 1.0 is far enough below it for the product with 255.0 to round below 255.0. -/
theorem roundPattern_le_below255 {n : Nat} (h : n ≤ F64.magnitude F64.belowOne) :
    roundPattern 53 (n * (255 * F64.one)) F64.one ≤ F64.below255.toNat % 2 ^ 63 := by
  have hnext : patternValue 53 (F64.below255.toNat % 2 ^ 63 + 1) = 255 * F64.one := by
    rw [← F64.magnitude_f255, F64.magnitude_eq]
    rfl
  rw [roundPattern_le_iff_of_odd 53 _ _ F64.one_pos (by norm_num) _ (by decide), hnext,
    ← F64.magnitude_eq]
  have hone := F64.magnitude_belowOne
  have h255 := F64.magnitude_below255
  have hpos := F64.one_pos
  have hlt : 510 * n < F64.magnitude F64.below255 + 255 * F64.one := by omega
  calc 2 * (n * (255 * F64.one)) = F64.one * (510 * n) := by ring
    _ < F64.one * (F64.magnitude F64.below255 + 255 * F64.one) := Nat.mul_lt_mul_of_pos_left hlt hpos

/-- The product with 255.0 is at most 255.0, and 255.0 for the factor 1.0 alone. -/
theorem F64.mul_within_255 (ht : F64.Within F64.one t) :
    F64.Within (255 * F64.one) (F64.mul t Config.f255) ∧
    (F64.units t = F64.one → F64.units (F64.mul t Config.f255) = (255 * F64.one : Nat)) ∧
    (F64.Within (F64.magnitude F64.belowOne) t →
      F64.units (F64.mul t Config.f255) < (255 * F64.one : Nat)) := by
  have hneg : (F64.sign t != F64.sign Config.f255) = true →
      F64.magnitude t * (255 * F64.one) = 0 := fun h => by
    rw [F64.magnitude_eq_zero_of_bne ht.nonneg (by decide) h, zero_mul]
  rw [F64.mul_of_finite ht.finite (by decide), F64.magnitude_f255]
  obtain ⟨hfinite, hnonneg, hle, hexact⟩ := F64.ofRatio_le _ _ _ F64.one_pos hneg
    (y := Config.f255) (by decide)
    (by rw [F64.magnitude_f255]; exact Nat.mul_le_mul_right _ ht.magnitude_le)
  rw [F64.magnitude_f255] at hle hexact
  refine ⟨⟨hfinite, hnonneg, hle⟩, fun h => hexact ?_, fun h => ?_⟩
  · rw [F64.units_of_nonneg ht.nonneg, Nat.cast_inj] at h
    rw [h]
  · obtain ⟨-, -, hbelow, -⟩ := F64.ofRatio_le_of_pattern _ _ _ F64.one_pos hneg
      (y := F64.below255) (by decide) (roundPattern_le_below255 h.magnitude_le)
    exact hbelow.trans_lt (Nat.cast_lt.mpr F64.magnitude_below255_lt)

end Operations

/-! ### The byte of a normalisation -/

section NormalisedByte

variable {p : Word64}

theorem F64.abs_eq_withSign (p : Word64) : F64.abs p = F64.withSign false (p.toNat % 2 ^ 63) := by
  have hlt := Nat.mod_lt p.toNat (show 0 < 2 ^ 63 by norm_num)
  apply BitVec.eq_of_toNat_eq
  rw [F64.withSign_toNat false _ hlt, F64.abs, BitVec.toNat_setWidth, BitVec.toNat_append]
  simp only [BitVec.extractLsb'_toNat, BitVec.toNat_ofNat, Nat.shiftRight_zero, Nat.zero_mod,
    Nat.zero_shiftLeft, Nat.zero_or, Bool.false_eq_true, if_false, add_zero]
  omega

/-- The byte of a value that is not negative is that of its absolute value. -/
theorem F64.toByte_abs {bound : Nat} (h : F64.Within bound p) :
    F64.toByte (F64.abs p) = F64.toByte p := by
  have hlt := Nat.mod_lt p.toNat (show 0 < 2 ^ 63 by norm_num)
  have hfinite : F64.isFinite (F64.abs p) = true := by
    rw [F64.isFinite_iff, F64.abs_eq_withSign, F64.withSign_mod _ _ hlt, ← F64.isFinite_iff]
    exact h.finite
  have hunits : F64.units (F64.abs p) = F64.units p := by
    rw [F64.units_of_nonneg h.nonneg, F64.units_eq, F64.abs_eq_withSign, F64.sign_withSign _ _ hlt,
      F64.magnitude_eq, F64.withSign_mod _ _ hlt, ← F64.magnitude_eq]
    rfl
  apply BitVec.eq_of_toNat_eq
  have habs := F64.toByte_of_finite hfinite
  rw [F64.trunc, hunits, ← F64.trunc, ← F64.toByte_of_finite h.finite] at habs
  exact_mod_cast habs

/-- Between 0 and 255.0 narrowing does not wrap, and 255 is the byte of 255.0 alone. -/
theorem F64.toByte_eq_255_iff (h : F64.Within (255 * F64.one) p) :
    F64.toByte p = 255 ↔ F64.units p = (255 * F64.one : Nat) := by
  have hle := h.magnitude_le
  have hquotient : F64.magnitude p / F64.one ≤ 255 := Nat.div_le_of_le_mul (by rwa [mul_comm])
  have htop : F64.magnitude p / F64.one = 255 ↔ F64.magnitude p = 255 * F64.one := by
    rw [Nat.div_eq_iff F64.one_pos]
    omega
  have hbyte : (F64.toByte p).toNat = F64.magnitude p / F64.one % 256 := by
    have htrunc := F64.toByte_of_finite h.finite
    rw [F64.trunc, F64.units_of_nonneg h.nonneg, ← Int.ofNat_tdiv] at htrunc
    exact_mod_cast htrunc
  rw [F64.units_of_nonneg h.nonneg, Nat.cast_inj, ← htop, ← BitVec.toNat_inj, hbyte,
    Nat.mod_eq_of_lt (by omega)]
  rfl

/-- The byte is 255 exactly when the difference is the maximum: below it the quotient is below 1.0, and the
product below 255.0. -/
theorem F64.toByte_eq_255_iff_difference {t mx : Word64} (hmx : F64.isFinite mx = true)
    (hpos : 0 < F64.units mx) (ht : F64.Within (F64.magnitude mx) t) :
    F64.toByte (F64.mul (F64.div t mx) Config.f255) = 255 ↔ F64.magnitude t = F64.magnitude mx := by
  obtain ⟨hquotient, hone, hbelow⟩ := F64.div_within_one hmx hpos ht
  obtain ⟨hproduct, htop, hless⟩ := F64.mul_within_255 hquotient
  rw [F64.toByte_eq_255_iff hproduct]
  constructor
  · intro h
    by_contra hne
    exact (hless (hbelow (lt_of_le_of_ne ht.magnitude_le hne))).ne h
  · exact fun h => htop (hone h)

end NormalisedByte

/-! ### The window's bounds -/

section WindowBounds

variable {first x : Word64} {rest : List Word64}

theorem units_windowMin_le (hfinite : ∀ y ∈ first :: rest, F64.isFinite y = true)
    (hx : x ∈ first :: rest) : F64.units (windowMin first rest) ≤ F64.units x := by
  have hnan := fun y hy => (F64.not_nan_inf_of_finite (hfinite y hy)).1
  have h := not_lt_windowMin hx
  rw [← Bool.not_eq_true,
    (F64.compare_of_not_nan (hnan x hx) (hnan _ (windowMin_mem first rest))).1] at h
  exact not_lt.mp h

theorem units_le_windowMax (hfinite : ∀ y ∈ first :: rest, F64.isFinite y = true)
    (hx : x ∈ first :: rest) : F64.units x ≤ F64.units (windowMax first rest) := by
  have hnan := fun y hy => (F64.not_nan_inf_of_finite (hfinite y hy)).1
  have h := not_gt_windowMax hx
  rw [← Bool.not_eq_true,
    (F64.compare_of_not_nan (hnan x hx) (hnan _ (windowMax_mem first rest))).2.1] at h
  exact not_lt.mp h

end WindowBounds

/-- With a positive maximum the window normalises, to the byte of the third operation: it is not negative, so
the absolute value changes nothing. -/
theorem normalize_of_within {first v t : Word64} {rest : List Word64} {bound : Nat}
    (hnan : F64.isNaN (windowMax first rest) = false) (hpos : 0 < F64.units (windowMax first rest))
    (ht : t = F64.mul (F64.div (F64.sub v (windowMin first rest)) (windowMax first rest)) Config.f255)
    (hwithin : F64.Within bound t) : normalize (first :: rest) v = some (F64.toByte t) := by
  have hne : F64.eq (windowMax first rest) 0 = false := by
    have hzero : F64.units 0 = 0 := F64.units_of_isZero (by decide)
    rw [← Bool.not_eq_true, (F64.compare_of_not_nan hnan (by decide)).2.2, hzero]
    exact hpos.ne'
  rw [normalize_cons, hne, normalizedValue, ← ht, F64.toByte_abs hwithin]
  rfl

/-- Settles O43: each operation stays within its bound, and 255 needs the difference to be the maximum. -/
theorem normalisationStaysWithin255 : Obligations.NormalisationStaysWithin255 := by
  rintro first v rest mn mx t1 t2 t3 hfinite hv rfl rfl hmn hmx rfl rfl ht3
  have hmnv := units_windowMin_le hfinite hv
  have hvmx := units_le_windowMax hfinite hv
  have hmxfin := hfinite _ (windowMax_mem first rest)
  have hmnfin := hfinite _ (windowMin_mem first rest)
  have hv0 := F64.units_of_nonneg (hmn.trans hmnv)
  have hmx0 := F64.units_of_nonneg hmx.le
  have hdifference := F64.sub_within (hfinite v hv) hmnfin hmn hmnv
  have hwithin := hdifference.mono (bound' := F64.magnitude (windowMax first rest)) (by omega)
  have hquotient := (F64.div_within_one hmxfin hmx hwithin).1
  have hproduct := (F64.mul_within_255 hquotient).1
  have htop := F64.toByte_eq_255_iff_difference hmxfin hmx hwithin
  have hd0 := F64.units_of_nonneg hwithin.nonneg
  change t3 = F64.mul _ Config.f255 at ht3
  rw [← ht3] at hproduct htop
  have hnormalize := normalize_of_within (F64.not_nan_inf_of_finite hmxfin).1 hmx ht3 hproduct
  refine ⟨⟨hwithin.finite, hwithin.nonneg, hmx0 ▸ hwithin.le⟩,
    ⟨hquotient.finite, hquotient.nonneg, hquotient.le⟩,
    ⟨hproduct.finite, hproduct.nonneg, hproduct.le⟩, hnormalize, ?top, fun h => ?target⟩
  case top => rw [htop, hd0, hmx0, Nat.cast_inj]
  case target =>
    have hmax := htop.mp h
    have hle := hdifference.magnitude_le
    have hequal : F64.units v = F64.units (windowMax first rest) := by omega
    refine ⟨(F64.compare_of_not_nan (F64.not_nan_inf_of_finite (hfinite v hv)).1
      (F64.not_nan_inf_of_finite hmxfin).1).2.2.mpr hequal, fun hexact => ?_⟩
    have hmn0 := F64.units_of_nonneg hmn
    rw [← F64.magnitude_eq_zero_iff]
    omega

/-- Refutes O44: in the window (1e-300, 1.0) the positive minimum is absorbed when it is subtracted from the
target 1.0, and the byte is 255. -/
theorem not_topByteNeedsAZeroMinimum : ¬ Obligations.TopByteNeedsAZeroMinimum := by
  intro h
  have hfinite : ∀ x ∈ [(0x01A56E1FC2F8F359 : Word64), 0x3FF0000000000000], F64.isFinite x = true := by
    simp only [List.mem_cons, List.not_mem_nil, or_false, forall_eq_or_imp, forall_eq]
    decide
  have hzero := (h 0x01A56E1FC2F8F359 0x3FF0000000000000 [0x3FF0000000000000] hfinite (by simp)
    (by decide +kernel) (by decide +kernel) (by decide +kernel)).1
  exact absurd hzero (by decide +kernel)

/-! ### The loop of XTR by its keystream (R57, R102 to R104, R129) -/

/-- What deriving byte `i` ends in when the draws leave `t` and the keystream has `key` there. -/
def Derived.ofKey (e : ErrCode) (i : Nat) (key : Option Byte) (t : State) : Derived :=
  match key with
  | some k => .byte k t
  | none => .raised e i t

/-- A byte of BUF under its keystream byte, or as it was where there is none. -/
def xorKey (x : Byte) (key : Option Byte) : Byte := x ^^^ key.getD 0

/-- `t` is `rest` but for BUF, which holds the bytes of `u`, those below `n` xored with the keystream. -/
structure State.XoredBelow (n : Nat) (key : Nat → Option Byte) (u rest t : State) : Prop where
  bytes : ∀ a, t.bufRead a = if a < n then xorKey (u.bufRead a) (key a) else u.bufRead a
  state : t.setBuf u.buf = rest

section Loop

variable {derive : Nat → State → Derived} {next : State → State} {key : Nat → Option Byte}
  {e : ErrCode} {total n : Nat} {u : State}

/-- The loop of XTR from `u`, for a derivation that takes the state on by `next`, whatever BUF holds, and has
the keystream `key`: it completes all `total` bytes, or ends at the first byte `n` that has no key. -/
theorem transformFrom_applyXor (hread : ∀ t a, (next t).bufRead a = t.bufRead a)
    (hbuf : ∀ t b, next (t.setBuf b) = (next t).setBuf b)
    (hderive : ∀ i t, i < total → t.setBuf u.buf = next^[i] u →
      derive i t = .ofKey e i (key i) (next t))
    (hn : n ≤ total) (hsome : ∀ i < n, key i ≠ none) (hnone : n < total → key n = none) :
    State.XoredBelow n key u (if n < total then raise e n (next^[n + 1] u) else next^[n] u)
      (transformFrom derive applyXor total 0 u) := by
  have hstep (i : Nat) (t : State) (h : t.setBuf u.buf = next^[i] u) :
      (next t).setBuf u.buf = next^[i + 1] u := by
    rw [Function.iterate_succ_apply', ← h, hbuf]
  refine transformFrom_induction (total := total)
    (fun i t => i ≤ n ∧ State.XoredBelow i key u (next^[i] u) t) _
    ?byte ?raise ?done total 0 u (Nat.zero_add total) ⟨Nat.zero_le n, fun _ => rfl, rfl⟩
  case byte =>
    rintro i k t t' hi ⟨hin, hbytes, hstate⟩ hd
    rw [hderive i t hi hstate] at hd
    cases hkey : key i with
    | none => rw [hkey] at hd; cases hd
    | some k' =>
      rw [hkey] at hd
      cases hd
      have hne : i ≠ n := by
        rintro rfl
        exact absurd ((hnone hi).symm.trans hkey) (by simp)
      refine ⟨by omega, fun a => ?_, hstep i t hstate⟩
      rw [(applyXor_spec i k (next t)).1, hread, hread, hbytes, hbytes, if_neg (lt_irrefl i)]
      by_cases ha : a = i
      · subst ha
        rw [if_pos rfl, if_pos (Nat.lt_succ_self a), hkey]
        rfl
      · simp only [if_neg ha, show a < i + 1 ↔ a < i by omega]
  case raise =>
    rintro i e' j t t' hi ⟨hin, hbytes, hstate⟩ hd
    rw [hderive i t hi hstate] at hd
    cases hkey : key i with
    | some k => rw [hkey] at hd; cases hd
    | none =>
      rw [hkey] at hd
      cases hd
      obtain rfl : i = n := by
        by_contra hne
        exact hsome i (by omega) hkey
      rw [if_pos hi]
      exact ⟨fun a => (hread t a).trans (hbytes a), congrArg (raise e i) (hstep i t hstate)⟩
  case done =>
    rintro t ⟨hin, ht⟩
    obtain rfl : total = n := le_antisymm hin hn
    rwa [if_neg (lt_irrefl total)]

end Loop

/-! ### States with the same generator (R85) -/

section SameGenerator

variable {s t u : State}

theorem SameGenerator.trans (hst : SameGenerator s t) (htu : SameGenerator t u) :
    SameGenerator s u := by
  obtain ⟨hgv, hvar, hn, hval, hpar⟩ := hst
  obtain ⟨hgv', hvar', hn', hval', hpar'⟩ := htu
  exact ⟨hgv.trans hgv', hvar.trans hvar', hn.trans hn', hval.trans hval', hpar.trans hpar'⟩

theorem SameGenerator.drawTimes (h : SameGenerator s t) (k : Nat) :
    SameGenerator (drawTimes k s) (drawTimes k t) := by
  induction k generalizing s t with
  | zero => exact h
  | succ k ih =>
    obtain ⟨hgv, hvar, hn, hval, hpar⟩ := h
    exact ih ⟨hgv, hvar, hn, draw_congr hvar hn hval hpar, hpar⟩

theorem SameGenerator.drawnFloat_eq (h : SameGenerator s t) (j : Nat) :
    drawnFloat s j = drawnFloat t j := by
  obtain ⟨-, hvar, hn, hval, hpar⟩ := h
  exact drawnFloat_congr hvar hn hval hpar j

theorem drawnFloat_drawTimes (m j : Nat) (s : State) :
    drawnFloat (Machine.drawTimes m s) j = drawnFloat s (m + j) := by
  rw [drawnFloat, ← drawTimes_add, drawnFloat]

/-- Materialising a window takes `len` draws. -/
theorem materialize_sameGenerator (len : Nat) (s : State) :
    SameGenerator (materialize len s) (Machine.drawTimes len s) := by
  rw [(materialize_spec len s).2, drawTimes_frame len s]
  exact ⟨rfl, rfl, rfl, rfl, rfl⟩

end SameGenerator

/-! ### Windows drawn one after the other (R100) -/

section Windows

variable (len m : Nat) (s : State)

theorem materialize_setBuf (b : List Host.Cell) :
    materialize len (s.setBuf b) = (materialize len s).setBuf b := by
  have hfill (count j : Nat) (t : State) :
      fillFrom count j (t.setBuf b) = (fillFrom count j t).setBuf b := by
    induction count generalizing j t with
    | zero => rfl
    | succ c ih => exact ih (j + 1) ((drawF t).2.winWrite j (drawF t).1)
  exact congrArg (State.setWlen · (BitVec.ofNat 16 len)) (hfill len 0 s)

theorem materialize_bufRead (a : Nat) : (materialize len s).bufRead a = s.bufRead a := by
  have h := materialize_frame len s
  exact State.bufRead_congr (congrArg State.buf h) (congrArg State.launches h) a

/-- Windows write WIN, WLEN and GVAL and nothing else. -/
theorem iterate_materialize_frame :
    { (materialize len)^[m] s with win := s.win, wlen := s.wlen, gval := s.gval } = s := by
  induction m with
  | zero => rfl
  | succ m ih =>
    rw [Function.iterate_succ_apply', (materialize_spec len _).2]
    exact ih

/-- `m` windows take `m * len` draws. -/
theorem iterate_materialize_sameGenerator :
    SameGenerator ((materialize len)^[m] s) (drawTimes (m * len) s) := by
  induction m with
  | zero =>
    rw [Nat.zero_mul]
    exact ⟨rfl, rfl, rfl, rfl, rfl⟩
  | succ m ih =>
    rw [Function.iterate_succ_apply', Nat.succ_mul, drawTimes_add]
    exact (materialize_sameGenerator len _).trans (ih.drawTimes len)

/-- The last of the windows is what WIN holds. -/
theorem iterate_materialize_winRead (k : Nat) :
    ((materialize len)^[m + 1] s).winRead k =
      if k < len then drawnFloat s (m * len + k) else s.winRead k := by
  induction m with
  | zero =>
    rw [Nat.zero_mul, Nat.zero_add k]
    exact (materialize_spec len s).1 k
  | succ m ih =>
    rw [Function.iterate_succ_apply', (materialize_spec len _).1]
    by_cases hk : k < len
    · rw [if_pos hk, if_pos hk, (iterate_materialize_sameGenerator len (m + 1) s).drawnFloat_eq,
        drawnFloat_drawTimes]
    · rw [if_neg hk, ih, if_neg hk, if_neg hk]

theorem iterate_materialize_wlen :
    ((materialize len)^[m + 1] s).wlen = BitVec.ofNat 16 len := by
  rw [Function.iterate_succ_apply', (materialize_spec len _).2]

end Windows

/-! ### XTR in mode WindowNormalized (R91, R100, R104) -/

section XtrWindow

variable {s t : State} {len i : Nat}

theorem deriveWindow_eq_ofKey (i len : Nat) (t : State) :
    deriveWindow i len t = .ofKey .divZero i
      (normalize (materialize len t).window ((materialize len t).winRead i)) (materialize len t) := by
  rcases deriveWindow_cases i len t with ⟨k, hkey, h⟩ | ⟨hkey, h⟩ <;> rw [h, hkey] <;> rfl

/-- A state with the generator that the windows before byte `i` leave derives byte `i` of the keystream. -/
theorem deriveWindow_eq_windowByte (hlen : len < 2 ^ 16) (hi : i < len)
    (h : SameGenerator t (drawTimes (windowStart len i) s)) :
    deriveWindow i len t = .ofKey .divZero i (windowByte s len i) (materialize len t) := by
  have hdraws (j : Nat) : drawnFloat t j = drawnFloat s (windowStart len i + j) := by
    rw [h.drawnFloat_eq, drawnFloat_drawTimes]
  have hwindow : drawnWindow t 0 len = drawnWindow s (windowStart len i) len := by
    simp only [drawnWindow, hdraws, Nat.zero_add]
  rw [deriveWindow_eq_ofKey, materialize_window len hlen, (materialize_spec len t).1, if_pos hi,
    hwindow, hdraws, windowByte]

theorem windowStart_eq (len i : Nat) : windowStart len i = (i + 1) * len := by
  rw [windowStart, Nat.succ_mul, Nat.add_comm]

/-- The loop of XTR after its throwaway window: it ends in the state that the throwaway window and `d` windows
leave, with DIV_ZERO raised there if byte `n` had no key. -/
theorem xtrBody_windowNormalized {n d : Nat} (hpos : 0 < len) (hlen : len < 2 ^ 16) (hn : n ≤ len)
    (hsome : ∀ i < n, windowByte s len i ≠ none) (hnone : n < len → windowByte s len n = none)
    (hall : n = len → d = n) (hpart : n < len → d = n + 1) :
    State.XoredBelow n (windowByte s len) (materialize len s)
      (if n < len then raise .divZero n ((materialize len)^[d + 1] s)
        else (materialize len)^[d + 1] s)
      (xtrBody .windowNormalized len s) := by
  have hderive (i : Nat) (t : State) (hi : i < len)
      (ht : t.setBuf (materialize len s).buf = (materialize len)^[i] (materialize len s)) :
      deriveWindow i len t = .ofKey .divZero i (windowByte s len i) (materialize len t) := by
    have hgen := iterate_materialize_sameGenerator len (i + 1) s
    rw [Function.iterate_succ_apply, ← ht, ← windowStart_eq] at hgen
    exact deriveWindow_eq_windowByte hlen hi hgen
  have hloop := transformFrom_applyXor (materialize_bufRead len) (materialize_setBuf len) hderive
    hn hsome hnone
  rw [xtrBody, if_neg hpos.ne', Function.iterate_succ_apply]
  by_cases h : n < len
  · rw [if_pos h] at hloop ⊢
    rw [hpart h]
    exact hloop
  · rw [if_neg h] at hloop ⊢
    rw [hall (by omega)]
    exact hloop

theorem exec_xtr {mode : Mode} {len : BitVec 16} (hok : s.err = .ok) (hgv : s.gv = true)
    (hlen : len.toNat ≤ s.bufcap) :
    exec (.xtr mode len) s = .next (xtrBody mode len.toNat s) :=
  calc exec (.xtr mode len) s
      = .next (command true (decide (len.toNat ≤ s.bufcap)) s.hasGenerator
          (xtrBody mode len.toNat) s) := rfl
    _ = .next (xtrBody mode len.toNat s) := by rw [decide_eq_true hlen, command_hasGenerator hok hgv]

/-- A state that is `w` but for BUF, with an error raised if `failed`: all but BUF, ERR and ERRIDX are those
of `w`. -/
theorem frame_of_setBuf_eq {w : State} {b : List Host.Cell} {failed : Prop} [Decidable failed]
    {e : ErrCode} {n : Nat} (h : t.setBuf b = if failed then raise e n w else w) :
    { t with buf := w.buf, err := w.err, erridx := w.erridx } = w := by
  have hall : { t.setBuf b with buf := w.buf, err := w.err, erridx := w.erridx } = w := by
    rw [h]
    split <;> rfl
  exact hall

end XtrWindow

/-- Settles O47: the loop by its keystream, and what its windows leave in GVAL, WIN and WLEN. -/
theorem xtrWindowXorsUntilAZeroMaximum : Obligations.XtrWindowXorsUntilAZeroMaximum := by
  intro len n d s hok hgv hpos hlen hn hsome hnone hall hpart
  refine ⟨fun i first rest mn mx hwindow hmn hmx => ?key, _, exec_xtr hok hgv hlen, ?_⟩
  case key =>
    rw [windowByte, hwindow, normalize_cons, hmn, hmx]
    rfl
  obtain ⟨hbytes, hstate⟩ := xtrBody_windowNormalized hpos len.isLt hn hsome hnone hall hpart
  obtain ⟨d, rfl⟩ : ∃ c, d = c + 1 := ⟨d - 1, by omega⟩
  have hlast := iterate_materialize_winRead len.toNat (d + 1) s
  have hwlen := iterate_materialize_wlen len.toNat (d + 1) s
  have hframe := iterate_materialize_frame len.toNat (d + 1 + 1) s
  obtain ⟨-, -, -, hgval, -⟩ := iterate_materialize_sameGenerator len.toNat (d + 1 + 1) s
  generalize xtrBody .windowNormalized len.toNat s = t at *
  generalize (materialize len.toNat)^[d + 1 + 1] s = w at *
  have hcore := frame_of_setBuf_eq hstate
  have herr := congrArg State.err hstate
  have hidx := congrArg State.erridx hstate
  simp only [State.setBuf_err, State.setBuf_erridx] at herr hidx
  simp only [materialize_bufRead] at hbytes
  refine ⟨fun a k ha hk => ?xored, fun a ha => ?kept, ?gval, fun j => ?win, ?wlen, fun h => ?completed,
    fun h => ?failed, ?frame⟩
  case xored =>
    rw [hbytes, if_pos ha, hk]
    rfl
  case kept => rw [hbytes, if_neg (not_lt.mpr ha)]
  case gval =>
    rw [Nat.add_comm, ← Nat.succ_mul, ← hgval]
    exact (congrArg State.gval hcore :)
  case win =>
    rw [windowStart_eq, Nat.add_one_sub_one, ← hlast]
    exact State.winRead_congr (congrArg State.win hcore) (congrArg State.launches hcore) j
  case wlen =>
    rw [← BitVec.setWidth_eq len, ← BitVec.ofNat_toNat, ← hwlen]
    exact (congrArg State.wlen hcore :)
  case completed =>
    rw [herr, hidx, if_neg h.not_lt]
    exact ⟨(congrArg State.err hframe :).trans hok, (congrArg State.erridx hframe :)⟩
  case failed =>
    rw [herr, hidx, if_pos h, raise_err, raise_erridx, BitVec.toNat_ofNat]
    exact ⟨rfl, Nat.mod_eq_of_lt (h.trans len.isLt)⟩
  case frame =>
    exact (congrArg (fun x : State => { x with
        buf := s.buf, gval := s.gval, win := s.win, wlen := s.wlen, err := s.err,
        erridx := s.erridx }) hcore).trans
      (congrArg (fun x : State => { x with buf := s.buf, err := s.err, erridx := s.erridx }) hframe)

end Sys2Proof.Machine

/-! PROOFS. The XOR cipher engine (O45, O46, O48, O49): the keystream of each mode, XTR in the modes that draw
once a byte, and what XTR in any mode leaves in BUF and ERR. -/

namespace Sys2Proof.Machine

open Sys2Proof

/-! ### The checks of a transform (R101, R113, R127) -/

section Checks

variable {mode : Mode} {s : State}

theorem wf_ptr (hmode : mode ≠ .rawCast) (len : BitVec 16) : (Instr.ptr mode len).wf = true := by
  cases mode with
  | rawCast => exact absurd rfl hmode
  | mantissaByte | windowNormalized => rfl

theorem exec_ptr {len : BitVec 16} (hok : s.err = .ok) (hgv : s.gv = true) (hmode : mode ≠ .rawCast)
    (hlen : len.toNat ≤ s.bufcap) :
    exec (.ptr mode len) s = .next (ptrBody mode len.toNat s) := by
  have hlegal : legalPerceptronMode mode = true := wf_ptr hmode len
  calc exec (.ptr mode len) s
      = .next (command (legalPerceptronMode mode) (decide (len.toNat ≤ s.bufcap)) s.hasGenerator
          (ptrBody mode len.toNat) s) := rfl
    _ = .next (ptrBody mode len.toNat s) := by
        rw [hlegal, decide_eq_true hlen, command_hasGenerator hok hgv]

/-- XTR completes only from a state that passes its checks. -/
theorem exec_xtr_completed {len : BitVec 16} {t : State} (hok : s.err = .ok)
    (h : exec (.xtr mode len) s = .next t) (ht : t.err = .ok) :
    len.toNat ≤ s.bufcap ∧ s.gv = true ∧ t = xtrBody mode len.toNat s := by
  have hlen : len.toNat ≤ s.bufcap := by
    by_contra hlen
    cases h.symm.trans (exec_outOfBounds hok rfl (not_le.mp hlen))
    cases ht
  have hgv : s.gv = true := by
    by_contra hgv
    cases h.symm.trans (exec_lacksGenerator hok rfl (not_lt.mpr hlen) (eq_false_of_ne_true hgv))
    cases ht
  cases h.symm.trans (exec_xtr hok hgv hlen)
  exact ⟨hlen, hgv, rfl⟩

end Checks

/-- Settles O48: each check by the lemma on it, then the body for length 0. -/
theorem transformsCheckBeforeTheyStart : Obligations.TransformsCheckBeforeTheyStart := by
  intro mode len s hok
  refine ⟨fun hlen => exec_outOfBounds hok rfl hlen,
    fun hlen hgv => exec_lacksGenerator hok rfl (not_lt.mpr hlen) hgv,
    fun hgv => exec_xtr hok hgv (Nat.zero_le _), ?ptrIllegal,
    fun hmode hlen => exec_outOfBounds hok (wf_ptr hmode len) hlen,
    fun hmode hlen hgv => exec_lacksGenerator hok (wf_ptr hmode len) (not_lt.mpr hlen) hgv,
    fun hmode hgv => exec_ptr hok hgv hmode (Nat.zero_le _)⟩
  case ptrIllegal =>
    rintro rfl
    exact exec_illFormed hok rfl

/-! ### The keystream of a mode (R89, R99, R100) -/

/-- Byte `i` of the keystream that XTR of length `len` has in a mode, or none where the derivation fails. -/
def keystream (mode : Mode) (len : Nat) (s : State) (i : Nat) : Option Byte :=
  match mode with
  | .rawCast => some (rawByte s i)
  | .mantissaByte => mantissaByte s i
  | .windowNormalized => windowByte s len i

/-- The keystream is a function of the generator (R85). -/
theorem SameGenerator.keystream_eq {s t : State} (h : SameGenerator s t) (mode : Mode) (len : Nat) :
    keystream mode len s = keystream mode len t := by
  have hvar : s.gvar = t.gvar := h.2.1
  funext i
  cases mode with
  | rawCast => simp only [keystream, rawByte, h.drawnValue_eq, hvar]
  | mantissaByte => simp only [keystream, mantissaByte, h.drawnFloat_eq]
  | windowNormalized => simp only [keystream, windowByte, drawnWindow, h.drawnFloat_eq]

theorem xorKey_xorKey (x : Byte) (key : Option Byte) : xorKey (xorKey x key) key = x := by
  rw [xorKey, xorKey, BitVec.xor_assoc, BitVec.xor_self, BitVec.xor_zero]

/-- Some byte is the first without a key, or every byte below the length has one. -/
theorem exists_first_without_key (key : Nat → Option Byte) (len : Nat) :
    ∃ n ≤ len, (∀ i < n, key i ≠ none) ∧ (n < len → key n = none) := by
  induction len with
  | zero => exact ⟨0, le_rfl, nofun, nofun⟩
  | succ len ih =>
    obtain ⟨n, hn, hsome, hnone⟩ := ih
    by_cases h : key n = none
    · exact ⟨n, by omega, hsome, fun _ => h⟩
    · obtain rfl : n = len := by
        by_contra hne
        exact h (hnone (by omega))
      refine ⟨n + 1, le_rfl, fun i hi => ?_, fun hlt => absurd hlt (lt_irrefl _)⟩
      rcases Nat.lt_succ_iff_lt_or_eq.mp hi with hi | rfl
      · exact hsome i hi
      · exact h

/-! ### XTR in the modes that draw once a byte (R89, R99, R102, R103) -/

section OneDraw

variable {s t : State} {i : Nat}

theorem iterate_draw (k : Nat) (s : State) : (fun t => (draw t).2)^[k] s = drawTimes k s := by
  induction k generalizing s with
  | zero => rfl
  | succ k ih => exact ih (draw s).2

/-- Draws write GVAL and nothing else. -/
theorem drawTimes_restore_gval (k : Nat) (s : State) : { drawTimes k s with gval := s.gval } = s := by
  rw [drawTimes_frame k s]

theorem drawTimes_gvar (k : Nat) (s : State) : (drawTimes k s).gvar = s.gvar :=
  (congrArg State.gvar (drawTimes_restore_gval k s) :)

/-- A state with the generator that `i` draws leave derives byte `i` of the RawCast keystream. -/
theorem deriveRaw_eq_rawByte (h : SameGenerator t (drawTimes i s)) (e : ErrCode) :
    deriveRaw t = .ofKey e i (some (rawByte s i)) (draw t).2 := by
  have hvalue : (draw t).1 = drawnValue s i := congrFun h.drawnValue_eq 0
  have hvar : t.gvar = s.gvar := h.2.1.trans (drawTimes_gvar i s)
  rw [deriveRaw, hvalue, hvar]
  rfl

theorem deriveMantissa_eq_mantissaByte (h : SameGenerator t (drawTimes i s)) :
    deriveMantissa i t = .ofKey .f32Range i (mantissaByte s i) (draw t).2 := by
  have hfloat : (drawF t).1 = drawnFloat s i := h.drawnFloat_eq 0
  rw [mantissaByte, ← hfloat]
  rcases deriveMantissa_cases i t with ⟨p, hp, hd⟩ | ⟨hp, hd⟩ <;> rw [hd, hp] <;> rfl

/-- The loop of XTR for a derivation that draws once a byte. -/
theorem transformFrom_applyXor_draw {derive : Nat → State → Derived} {key : Nat → Option Byte}
    {e : ErrCode} {len n : Nat}
    (hderive : ∀ i t, SameGenerator t (drawTimes i s) → derive i t = .ofKey e i (key i) (draw t).2)
    (hn : n ≤ len) (hsome : ∀ i < n, key i ≠ none) (hnone : n < len → key n = none) :
    State.XoredBelow n key s (if n < len then raise e n (drawTimes (n + 1) s) else drawTimes n s)
      (transformFrom derive applyXor len 0 s) := by
  rw [← iterate_draw, ← iterate_draw]
  refine transformFrom_applyXor (fun _ _ => rfl) (fun _ _ => rfl) (fun i t _ ht => hderive i t ?_)
    hn hsome hnone
  rw [← iterate_draw, ← ht]
  exact ⟨rfl, rfl, rfl, rfl, rfl⟩

/-- XTR in a mode that draws once a byte: it ends after `n` draws with all bytes done, or with F32_RANGE at
byte `n` after `n + 1`. -/
theorem xtrBody_of_ne_windowNormalized {mode : Mode} {len n : Nat} (hmode : mode ≠ .windowNormalized)
    (hn : n ≤ len) (hsome : ∀ i < n, keystream mode len s i ≠ none)
    (hnone : n < len → keystream mode len s n = none) :
    State.XoredBelow n (keystream mode len s) s
      (if n < len then raise .f32Range n (drawTimes (n + 1) s) else drawTimes n s)
      (xtrBody mode len s) := by
  cases mode with
  | rawCast =>
    have hbody : xtrBody .rawCast len s = transformFrom (fun _ => deriveRaw) applyXor len 0 s := by
      cases len <;> rfl
    rw [hbody]
    exact transformFrom_applyXor_draw (fun _ _ h => deriveRaw_eq_rawByte h _) hn hsome hnone
  | mantissaByte =>
    have hbody : xtrBody .mantissaByte len s = transformFrom deriveMantissa applyXor len 0 s := by
      cases len <;> rfl
    rw [hbody]
    exact transformFrom_applyXor_draw (fun _ _ => deriveMantissa_eq_mantissaByte) hn hsome hnone
  | windowNormalized => exact absurd rfl hmode

end OneDraw

/-- Settles O45: every byte has a key, so the loop completes. -/
theorem xtrRawXorsTheNarrowedDraws : Obligations.XtrRawXorsTheNarrowedDraws := by
  intro len s hok hgv hlen
  obtain ⟨hbytes, hstate⟩ := xtrBody_of_ne_windowNormalized (mode := .rawCast) (s := s) nofun
    (le_refl len.toNat) (fun _ _ => Option.some_ne_none _) (fun h => absurd h (lt_irrefl _))
  rw [if_neg (lt_irrefl _)] at hstate
  refine ⟨_, exec_xtr hok hgv hlen, hbytes, fun hint a => ?int, fun hlog a => ?log,
    (congrArg State.gval hstate :), ?frame⟩
  case int => rw [rawByte, hint, narrowDraw]
  case log => rw [rawByte, hlog, narrowDraw]
  case frame =>
    exact (congrArg (fun x : State => { x with gval := s.gval }) hstate).trans
      (drawTimes_restore_gval _ s)

/-- Settles O46: the loop by the MantissaByte keystream. -/
theorem xtrMantissaXorsUntilADrawOverflows : Obligations.XtrMantissaXorsUntilADrawOverflows := by
  intro len n s hok hgv hlen hn hsome hnone
  refine ⟨fun i => rfl, _, exec_xtr hok hgv hlen, ?_⟩
  obtain ⟨hbytes, hstate⟩ := xtrBody_of_ne_windowNormalized (mode := .mantissaByte) nofun hn hsome hnone
  generalize xtrBody .mantissaByte len.toNat s = t at *
  refine ⟨fun a k ha hk => ?xored, fun a ha => ?kept, fun h => ?completed, fun h => ?failed, ?frame⟩
  case xored =>
    rw [hbytes, if_pos ha, show keystream .mantissaByte len.toNat s a = some k from hk]
    rfl
  case kept => rw [hbytes, if_neg (not_lt.mpr ha)]
  case completed =>
    rw [if_neg h.not_lt, h] at hstate
    have hdraws := drawTimes_restore_gval len.toNat s
    exact ⟨(congrArg State.err hstate :).trans ((congrArg State.err hdraws :).trans hok),
      (congrArg State.erridx hstate :).trans (congrArg State.erridx hdraws :),
      (congrArg State.gval hstate :)⟩
  case failed =>
    rw [if_pos h] at hstate
    refine ⟨congrArg State.err hstate, ?_, (congrArg State.gval hstate :)⟩
    rw [show t.erridx = BitVec.ofNat 16 n from congrArg State.erridx hstate, BitVec.toNat_ofNat]
    exact Nat.mod_eq_of_lt (h.trans len.isLt)
  case frame =>
    refine (congrArg (fun x : State =>
      { x with gval := s.gval, err := s.err, erridx := s.erridx }) hstate).trans ?_
    have hdraws (k : Nat) := congrArg (fun x : State => { x with err := s.err, erridx := s.erridx })
      (drawTimes_restore_gval k s)
    split
    · exact (hdraws (n + 1) :)
    · exact (hdraws n :)

/-! ### XTR in any mode (R102 to R105) -/

section AnyMode

variable {mode : Mode} {len n : Nat} {s r t : State}

/-- A loop that ends in an error at its first byte without a key has no error exactly when it completes. -/
theorem State.XoredBelow.err_eq_ok_iff {key : Nat → Option Byte} {e : ErrCode} {u w w' : State}
    (h : State.XoredBelow n key u (if n < len then raise e n w else w') t) (he : e ≠ .ok)
    (hw' : w'.err = .ok) (hn : n ≤ len) : t.err = .ok ↔ n = len := by
  obtain ⟨-, hstate⟩ := h
  have herr := congrArg State.err hstate
  rw [State.setBuf_err] at herr
  rcases hn.eq_or_lt with rfl | hlt
  · rw [herr, if_neg (lt_irrefl n)]
    exact iff_of_true hw' rfl
  · rw [herr, if_pos hlt, raise_err]
    exact iff_of_false he hlt.ne

/-- What XTR does to BUF, by its keystream, and when it leaves no error. -/
theorem xtrBody_xors (hok : s.err = .ok) (hlen : len < 2 ^ 16) (hn : n ≤ len)
    (hsome : ∀ i < n, keystream mode len s i ≠ none) (hnone : n < len → keystream mode len s n = none) :
    (∀ a, (xtrBody mode len s).bufRead a =
      if a < n then xorKey (s.bufRead a) (keystream mode len s a) else s.bufRead a) ∧
    ((xtrBody mode len s).err = .ok ↔ n = len) := by
  by_cases hmode : mode = .windowNormalized
  · subst hmode
    rcases len.eq_zero_or_pos with rfl | hpos
    · obtain rfl : n = 0 := Nat.le_zero.mp hn
      exact ⟨fun _ => rfl, iff_of_true hok rfl⟩
    · have h := xtrBody_windowNormalized (d := min (n + 1) len) hpos hlen hn hsome hnone
        (by omega) (by omega)
      have hframe := iterate_materialize_frame len (min (n + 1) len + 1) s
      refine ⟨fun a => ?_, h.err_eq_ok_iff nofun ((congrArg State.err hframe :).trans hok) hn⟩
      rw [h.bytes, materialize_bufRead]
      rfl
  · have h := xtrBody_of_ne_windowNormalized hmode hn hsome hnone
    have hframe := drawTimes_restore_gval n s
    exact ⟨h.bytes, h.err_eq_ok_iff nofun ((congrArg State.err hframe :).trans hok) hn⟩

/-- XTR run again on the BUF it left, from the generator it began with, undoes itself (R105): the two runs
have the same keystream. -/
theorem xtrBody_replay (hok : s.err = .ok) (hlen : len < 2 ^ 16)
    (hdone : (xtrBody mode len s).err = .ok) (hgen : SameGenerator s r) (hr : r.err = .ok)
    (hbuf : ∀ a, r.bufRead a = (xtrBody mode len s).bufRead a) :
    (xtrBody mode len r).err = .ok ∧ ∀ a, (xtrBody mode len r).bufRead a = s.bufRead a := by
  obtain ⟨n, hn, hsome, hnone⟩ := exists_first_without_key (keystream mode len s) len
  obtain ⟨hbytes, herr⟩ := xtrBody_xors hok hlen hn hsome hnone
  rw [hgen.keystream_eq] at hsome hnone hbytes
  obtain ⟨hbytes', herr'⟩ := xtrBody_xors hr hlen hn hsome hnone
  refine ⟨herr'.mpr (herr.mp hdone), fun a => ?_⟩
  rw [hbytes', hbuf, hbytes]
  by_cases ha : a < n
  · rw [if_pos ha, if_pos ha, xorKey_xorKey]
  · rw [if_neg ha, if_neg ha]

end AnyMode

/-- Settles O49: XTR leaves what its checks and its keystream look at, but for the registers put back. -/
theorem xtrIsSelfInverseUnderReplay : Obligations.XtrIsSelfInverseUnderReplay := by
  intro mode len s t hok ht hterr
  have hwrites := exec_writesOnly ht
  obtain ⟨hgv', -, -⟩ := hwrites.generator (by simp)
  obtain ⟨hlen, hgv, rfl⟩ := exec_xtr_completed hok ht hterr
  exact ⟨_, exec_xtr hterr (hgv'.trans hgv) (hlen.trans_eq hwrites.bufcap.symm),
    xtrBody_replay hok len.isLt hterr ⟨hgv'.symm, rfl, rfl, rfl, rfl⟩ hterr fun _ => rfl⟩

end Sys2Proof.Machine

/-! PROOFS. The perceptron (O52 to O58): what `Reseed` and `Evaluate` compute, the commands on them, then
the loop of PTR as the loop of XTR with the last reseed put on top. -/

namespace Sys2Proof.Machine

open Sys2Proof

/-! ### The sum of R108 -/

theorem doubledSum_eq_sum (row : Eight Weight) (bias : Bias) (x : Byte) :
    doubledSum row bias x = biasHalves bias + 2 * ∑ j, weightedBit row x j := by
  rw [Fin.sum_univ_eight]
  rfl

/-- A row of weights that is zero but at `i` sums to its weighted bit at `i`. -/
theorem doubledSum_of_diagonal {row : Eight Weight} {i : Fin 8} (hoff : ∀ j ≠ i, Eight.get row j = .zero)
    (bias : Bias) (x : Byte) : doubledSum row bias x = biasHalves bias + 2 * weightedBit row x i := by
  have hzero (j : Fin 8) (hj : j ≠ i) : weightedBit row x j = 0 := by
    rw [weightedBit, hoff j hj]
    exact zero_mul _
  rw [doubledSum_eq_sum, Fintype.sum_eq_single i hzero]

theorem evaluate_getLsbD_eq_true_iff (w : Eight (Eight Weight)) (b : Eight Bias) (x : Byte)
    (i : Fin 8) :
    (evaluate w b x).getLsbD i.val = true ↔ 0 ≤ doubledSum (Eight.get w i) (Eight.get b i) x := by
  rw [evaluate_getLsbD, outputBit, decide_eq_true_iff]

/-- `doubledSum` is twice the sum of R108 in rational arithmetic. -/
theorem doubledSum_cast (row : Eight Weight) (bias : Bias) (x : Byte) :
    (doubledSum row bias x : ℚ) = ((biasHalves bias : ℚ) / 2 +
      ∑ j : Fin 8, (weightValue (Eight.get row j) : ℚ) * (if x.getLsbD j.val then 1 else 0)) * 2 := by
  rw [doubledSum_eq_sum]
  simp only [weightedBit]
  push_cast
  ring

/-- With the reset contents every sum is `-1/2`. -/
theorem evaluate_reset (x : Byte) : evaluate State.reset.w State.reset.b x = 0 := by
  refine BitVec.eq_of_getLsbD_eq fun i hi => ?_
  have hsum : doubledSum (Eight.get State.reset.w ⟨i, hi⟩) (Eight.get State.reset.b ⟨i, hi⟩) x = -1 := by
    rw [doubledSum_eq_sum]
    simp [State.reset, weightedBit, weightValue, biasHalves]
  have hbit := evaluate_getLsbD State.reset.w State.reset.b x ⟨i, hi⟩
  rw [outputBit, hsum] at hbit
  rw [hbit, BitVec.ofNat_eq_ofNat, BitVec.getLsbD_zero]
  rfl

/-- R114, bit by bit: the sum is `x[i] - 1/2` under a key bit 0 and `1/2 - x[i]` under a key bit 1. -/
theorem evaluate_reseed (k x : Byte) (s : State) :
    evaluate (reseed k s).w (reseed k s).b x = x ^^^ k := by
  refine BitVec.eq_of_getLsbD_eq fun i hi => ?_
  obtain ⟨hw, hb, -⟩ := reseed_spec k s
  have hoff (j : Fin 8) (hj : j ≠ ⟨i, hi⟩) :
      Eight.get (Eight.get (reseed k s).w ⟨i, hi⟩) j = .zero := by
    rw [hw, reseedWeight, if_pos hj]
  have hbit := evaluate_getLsbD (reseed k s).w (reseed k s).b x ⟨i, hi⟩
  rw [outputBit, doubledSum_of_diagonal hoff, weightedBit, hw, hb, reseedWeight, if_neg (by simp),
    reseedBias] at hbit
  rw [hbit, BitVec.getLsbD_xor]
  cases x.getLsbD i <;> cases k.getLsbD i <;> rfl

/-- Settles O55: `evaluate_reseed` is the statement. -/
theorem evaluateAfterReseedIsXor : Obligations.EvaluateAfterReseedIsXor := evaluate_reseed

/-! ### The commands on the perceptron (R109 to R112) -/

/-- The byte operand is the low byte of DATA, bit by bit (R27). -/
theorem dataByte_getLsbD (s : State) (i : Fin 8) : s.dataByte.getLsbD i.val = s.data.getLsbD i.val := by
  simp [State.dataByte]

/-- Settles O52: PRESEED has no check but that for a pending error, and `reseed` writes each cell by its
bit. -/
theorem preseedLoadsTheMatrix : Obligations.PreseedLoadsTheMatrix := by
  intro s hok
  obtain ⟨hw, hb, hframe⟩ := reseed_spec s.dataByte s
  refine ⟨_, congrArg Host.Outcome.next (command_ready hok), fun i j => ?_, fun i => ?_, rfl, hframe⟩
  · rw [hw, reseedWeight, dataByte_getLsbD]
  · rw [hb, reseedBias, dataByte_getLsbD]

theorem exec_peval {s : State} (hok : s.err = .ok) :
    exec .peval s = .next { s with data := (evaluate s.w s.b s.dataByte).setWidth 64 } :=
  congrArg Host.Outcome.next (command_ready hok)

/-- Settles O53: `doubledSum` is twice the sum of the statement. -/
theorem pevalEvaluatesThePerceptron : Obligations.PevalEvaluatesThePerceptron := by
  refine ⟨⟨rfl, rfl, rfl, rfl, rfl⟩, fun s hok => ⟨_, exec_peval hok, rfl, fun i => ?bit⟩,
    fun s hok hw hb => ?reset⟩
  case bit =>
    rw [evaluate_getLsbD_eq_true_iff, ← Int.cast_nonneg_iff (R := ℚ), doubledSum_cast,
      mul_nonneg_iff_of_pos_right two_pos]
    simp only [← dataByte_getLsbD]
  case reset =>
    rw [exec_peval hok, hw, hb, evaluate_reset]
    rfl

/-- A row's bits `2j+1 : 2j` are the code of its weight `j` (R111). -/
theorem rowBits_extractLsb' (row : Eight Weight) (j : Fin 8) :
    (rowBits row).extractLsb' (2 * j.val) 2 = weightBits (Eight.get row j) := by
  refine BitVec.eq_of_getLsbD_eq fun i hi => ?_
  unfold rowBits
  rw [BitVec.getLsbD_extractLsb', BitVec.getLsbD_setWidth]
  simp only [BitVec.getLsbD_append]
  interval_cases i <;> fin_cases j <;> simp

theorem biasBits_eq_byteOfBits (b : Eight Bias) :
    biasBits b = byteOfBits fun i => decide (Eight.get b i = .plusHalf) := by
  have hbit (x : Bias) : biasBit x = BitVec.ofBool (decide (x = .plusHalf)) := by cases x <;> rfl
  simp only [biasBits, byteOfBits, hbit]

/-- Settles O54: a row is its weight codes side by side, the biases are a byte of their bits. -/
theorem readBackShowsWeightsAndBiases : Obligations.ReadBackShowsWeightsAndBiases := by
  refine ⟨fun row s hok => ⟨_, congrArg Host.Outcome.next (command_ready hok), fun j => ?row⟩,
    fun s hok => ⟨_, congrArg Host.Outcome.next (command_ready hok), fun i => ?bias⟩⟩
  case row =>
    rw [rowBits_extractLsb']
    rfl
  case bias => rw [biasBits_eq_byteOfBits, byteOfBits_getLsbD, decide_eq_true_iff]

/-! ### The last reseed of a transform (R113) -/

/-- `s` with the perceptron that the first `n` bytes of a keystream leave: that of the last of them. -/
def reseedLast (n : Nat) (key : Nat → Option Byte) (s : State) : State :=
  match n with
  | 0 => s
  | m + 1 =>
    match key m with
    | some k => reseed k s
    | none => s

section ReseedLast

variable {n : Nat} {key : Nat → Option Byte}

theorem reseedLast_succ {k : Byte} (hkey : key n = some k) (s : State) :
    reseedLast (n + 1) key s = reseed k s := by
  rw [reseedLast, hkey]

/-- A reseed writes W and B, with values that no other register enters. -/
theorem reseedLast_eq_setPerceptron (n : Nat) (key : Nat → Option Byte) (t : State) :
    ∃ w b, reseedLast n key t = t.setPerceptron w b ∧ (n = 0 → w = t.w ∧ b = t.b) ∧
      ∀ k s, 0 < n → key (n - 1) = some k → w = (reseed k s).w ∧ b = (reseed k s).b := by
  refine ⟨(reseedLast n key t).w, (reseedLast n key t).b, ?state, ?zero, fun k s hpos hkey => ?succ⟩
  case state =>
    cases n with
    | zero => rfl
    | succ m =>
      rw [reseedLast]
      cases key m <;> rfl
  case zero =>
    rintro rfl
    exact ⟨rfl, rfl⟩
  case succ =>
    obtain ⟨m, rfl⟩ : ∃ m, n = m + 1 := ⟨n - 1, by omega⟩
    rw [Nat.add_sub_cancel] at hkey
    rw [reseedLast_succ hkey]
    exact ⟨rfl, rfl⟩

theorem reseedLast_sameGenerator (t : State) : SameGenerator (reseedLast n key t) t := by
  obtain ⟨w, b, h, -⟩ := reseedLast_eq_setPerceptron n key t
  rw [h]
  exact ⟨rfl, rfl, rfl, rfl, rfl⟩

/-- An operation that neither looks at W and B nor writes them may come before the reseed or after it. -/
theorem map_reseedLast {f : State → State}
    (hf : ∀ t w b, f (t.setPerceptron w b) = (f t).setPerceptron w b) (t : State) :
    f (reseedLast n key t) = reseedLast n key (f t) := by
  cases n with
  | zero => rfl
  | succ m =>
    rw [reseedLast, reseedLast]
    cases key m with
    | none => rfl
    | some k => exact hf t _ _

/-- A byte of PTR's loop is one of XTR's, then the reseed (R114). -/
theorem applyPerceptron_reseedLast {k : Byte} (hkey : key n = some k) (t : State) :
    applyPerceptron n k (reseedLast n key t) = reseedLast (n + 1) key (applyXor n k t) := by
  obtain ⟨w, b, h, -⟩ := reseedLast_eq_setPerceptron n key t
  rw [applyPerceptron, evaluate_reseed, reseedLast_succ hkey, h]
  rfl

end ReseedLast

/-! ### The loop of PTR beside the loop of XTR (R57, R113, R114) -/

section Loop

variable {derive : Nat → State → Derived} {next : State → State} {key : Nat → Option Byte}
  {position : Nat → Nat} {e : ErrCode} {total n : Nat} {s : State}

/-- The loops of PTR and XTR side by side, for a derivation that takes the state on by `next`, byte `i`'s from
draw number `position i`: PTR's ends where XTR's does, with the last reseed on top. -/
theorem transformFrom_applyPerceptron
    (hnext : ∀ t w b, next (t.setPerceptron w b) = (next t).setPerceptron w b)
    (hgen : ∀ i t, SameGenerator t (drawTimes (position i) s) →
      SameGenerator (next t) (drawTimes (position (i + 1)) s))
    (hderive : ∀ i t, i < total → SameGenerator t (drawTimes (position i) s) →
      derive i t = .ofKey e i (key i) (next t))
    (hn : n ≤ total) (hsome : ∀ i < n, key i ≠ none) (hnone : n < total → key n = none)
    (count i : Nat) (t : State) (htotal : i + count = total) (hin : i ≤ n)
    (ht : SameGenerator t (drawTimes (position i) s)) :
    transformFrom derive applyPerceptron count i (reseedLast i key t) =
      reseedLast n key (transformFrom derive applyXor count i t) := by
  induction count generalizing i t with
  | zero =>
    obtain rfl : i = n := by omega
    rfl
  | succ count ih =>
    have hxtr := hderive i t (by omega) ht
    have hptr := hderive i (reseedLast i key t) (by omega) ((reseedLast_sameGenerator t).trans ht)
    rw [map_reseedLast hnext] at hptr
    rw [transformFrom, transformFrom, hptr, hxtr]
    cases hkey : key i with
    | none =>
      obtain rfl : i = n := by
        by_contra hne
        exact hsome i (by omega) hkey
      exact map_reseedLast (f := raise e i) (fun _ _ _ => rfl) (next t)
    | some k =>
      have hne : i ≠ n := by
        rintro rfl
        exact absurd ((hnone (by omega)).symm.trans hkey) (by simp)
      simp only [Derived.ofKey]
      rw [applyPerceptron_reseedLast hkey]
      exact ih (i + 1) (applyXor i k (next t)) (by omega) (by omega) (hgen i t ht)

end Loop

/-! ### PTR by what XTR does (R113, R114) -/

section Ptr

variable {mode : Mode} {n : Nat} {s t : State}

theorem materialize_setPerceptron (len : Nat) (s : State) (w : Eight (Eight Weight)) (b : Eight Bias) :
    materialize len (s.setPerceptron w b) = (materialize len s).setPerceptron w b := by
  have hfill (count j : Nat) (t : State) :
      fillFrom count j (t.setPerceptron w b) = (fillFrom count j t).setPerceptron w b := by
    induction count generalizing j t with
    | zero => rfl
    | succ c ih => exact ih (j + 1) ((drawF t).2.winWrite j (drawF t).1)
  exact congrArg (State.setWlen · (BitVec.ofNat 16 len)) (hfill len 0 s)

/-- PTR does what XTR does, with the last reseed on top; `n` is the first byte without a key, or the
length. -/
theorem ptrBody_eq_reseedLast {len : Nat} (hmode : mode ≠ .rawCast) (hlen : len < 2 ^ 16) (hn : n ≤ len)
    (hsome : ∀ i < n, keystream mode len s i ≠ none) (hnone : n < len → keystream mode len s n = none) :
    ptrBody mode len s = reseedLast n (keystream mode len s) (xtrBody mode len s) := by
  rcases len.eq_zero_or_pos with rfl | hpos
  · obtain rfl : n = 0 := Nat.le_zero.mp hn
    rfl
  rw [ptrBody, xtrBody.eq_def, if_neg hpos.ne', if_neg hpos.ne']
  cases mode with
  | rawCast => exact absurd rfl hmode
  | mantissaByte =>
    refine transformFrom_applyPerceptron (next := fun t => (draw t).2) (position := id)
      (fun _ _ _ => rfl) (fun i t ht => ?_) (fun _ _ _ => deriveMantissa_eq_mantissaByte)
      hn hsome hnone len 0 s (Nat.zero_add len) (Nat.zero_le n) ⟨rfl, rfl, rfl, rfl, rfl⟩
    rw [id, drawTimes_succ]
    exact ht.drawTimes 1
  | windowNormalized =>
    refine transformFrom_applyPerceptron (next := materialize len) (position := windowStart len)
      (materialize_setPerceptron len) (fun i t ht => ?_)
      (fun _ _ hi => deriveWindow_eq_windowByte hlen hi)
      hn hsome hnone len 0 _ (Nat.zero_add len) (Nat.zero_le n) ?_
    · rw [windowStart_eq, Nat.succ_mul, ← windowStart_eq, drawTimes_add]
      exact (materialize_sameGenerator len t).trans (ht.drawTimes len)
    · rw [windowStart_eq, Nat.zero_add, Nat.one_mul]
      exact materialize_sameGenerator len s

/-- What PTR leaves, told by what XTR leaves from the same state. -/
theorem exec_ptr_of_exec_xtr {len : BitVec 16} (hok : s.err = .ok) (hgv : s.gv = true)
    (hmode : mode ≠ .rawCast) (hlen : len.toNat ≤ s.bufcap) (hn : n ≤ len.toNat)
    (hsome : ∀ i < n, keystream mode len.toNat s i ≠ none)
    (hnone : n < len.toNat → keystream mode len.toNat s n = none)
    (hxtr : exec (.xtr mode len) s = .next t) :
    ∃ w b, exec (.ptr mode len) s = .next (t.setPerceptron w b) ∧ (n = 0 → w = s.w ∧ b = s.b) ∧
      ∀ k, 0 < n → keystream mode len.toNat s (n - 1) = some k →
        w = (reseed k s).w ∧ b = (reseed k s).b := by
  obtain ⟨hw, hb⟩ := (exec_writesOnly hxtr).perceptron (by simp)
  cases hxtr.symm.trans (exec_xtr hok hgv hlen)
  obtain ⟨w, b, heq, hzero, hlast⟩ := reseedLast_eq_setPerceptron n (keystream mode len.toNat s)
    (xtrBody mode len.toNat s)
  refine ⟨w, b, ?_, by rwa [hw, hb] at hzero, fun k => hlast k s⟩
  rw [exec_ptr hok hgv hmode hlen, ptrBody_eq_reseedLast hmode len.isLt hn hsome hnone, heq]

/-- Commands with the same checks, whose bodies agree but for W and B, agree but for W and B. -/
theorem command_eq_setPerceptron {body body' : State → State} (legal inBounds genReady : Bool)
    (h : ∃ w b, body' s = (body s).setPerceptron w b) :
    ∃ w b, command legal inBounds genReady body' s =
      (command legal inBounds genReady body s).setPerceptron w b := by
  unfold command
  split_ifs
  case neg => exact h
  all_goals exact ⟨s.w, s.b, rfl⟩

end Ptr

/-! ### The statements on PTR (R113, R114, R129) -/

/-- Settles O58: the checks are the same, and past them PTR adds the last reseed to what XTR does. -/
theorem ptrAndXtrAgreeButForThePerceptron : Obligations.PtrAndXtrAgreeButForThePerceptron := by
  intro mode len s hmode
  obtain ⟨n, hn, hsome, hnone⟩ := exists_first_without_key (keystream mode len.toNat s) len.toNat
  obtain ⟨w, b, heq, -⟩ := reseedLast_eq_setPerceptron n (keystream mode len.toNat s)
    (xtrBody mode len.toNat s)
  obtain ⟨w', b', hcommand⟩ := command_eq_setPerceptron true (decide (len.toNat ≤ s.bufcap))
    s.hasGenerator ⟨w, b, (ptrBody_eq_reseedLast hmode len.isLt hn hsome hnone).trans heq⟩
  have hlegal : legalPerceptronMode mode = true := wf_ptr hmode len
  refine ⟨_, _, rfl, rfl, ?_⟩
  rw [hlegal, hcommand]
  rfl

/-- Settles O56: what XTR MantissaByte leaves (O46), with the last reseed on top. -/
theorem ptrMantissaReseedsAndEvaluates : Obligations.PtrMantissaReseedsAndEvaluates := by
  intro len n s hok hgv hlen hn hsome hnone
  obtain ⟨-, t, hxtr, hbytes, hkept, hdone, hfailed, hframe⟩ :=
    xtrMantissaXorsUntilADrawOverflows len n s hok hgv hlen hn hsome hnone
  obtain ⟨w, b, hptr, hzero, hlast⟩ :=
    exec_ptr_of_exec_xtr (mode := .mantissaByte) hok hgv nofun hlen hn hsome hnone hxtr
  refine ⟨_, hptr, fun a k ha hk => ?_, hkept, hdone, hfailed, hzero, hlast,
    congrArg (State.setPerceptron · s.w s.b) hframe⟩
  rw [evaluate_reseed]
  exact hbytes a k ha hk

/-- Settles O57: what XTR WindowNormalized leaves (O47), with the last reseed on top. -/
theorem ptrWindowReseedsAndEvaluates : Obligations.PtrWindowReseedsAndEvaluates := by
  intro len n d s hok hgv hpos hlen hn hsome hnone hall hpart
  obtain ⟨-, t, hxtr, hbytes, hkept, hgval, hwin, hwlen, hdone, hfailed, hframe⟩ :=
    xtrWindowXorsUntilAZeroMaximum len n d s hok hgv hpos hlen hn hsome hnone hall hpart
  obtain ⟨w, b, hptr, hzero, hlast⟩ :=
    exec_ptr_of_exec_xtr (mode := .windowNormalized) hok hgv nofun hlen hn hsome hnone hxtr
  refine ⟨_, hptr, fun a k ha hk => ?_, hkept, hgval, hwin, hwlen, hdone, hfailed, hzero, hlast,
    congrArg (State.setPerceptron · s.w s.b) hframe⟩
  rw [evaluate_reseed]
  exact hbytes a k ha hk

end Sys2Proof.Machine

/-! PROOFS. Buffer access and error clearing (O8, O59): CLRE and the other words of its opcode, then BWR and
BRD. -/

namespace Sys2Proof.Machine

open Sys2Proof

/-! ### CLRE (R117) -/

/-- Of the words of CLRE's opcode only CLRE's own has no must-be-zero bit set (R69 (b)). -/
theorem wordIllegal_of_clre_opcode {c : Word32} (hop : c.toNat / 2 ^ 24 = 1) (hc : c ≠ 0x01000000) :
    WordIllegal c := by
  have hbits : c.toNat % 2 ^ 24 ≠ 0 := by
    intro hzero
    have hword : c.toNat = 0x01000000 := by omega
    exact hc (BitVec.eq_of_toNat_eq hword)
  exact .inr (.inl ⟨by rw [hop]; decide, hbits⟩)

/-- Settles O8: another word of the opcode is refused like any word, and is illegal where words are not
refused. -/
theorem clreClearsTheErrorAndNothingElse : Obligations.ClreClearsTheErrorAndNothingElse := by
  obtain ⟨-, hraises⟩ := illegalWordsRaiseIllegal
  refine ⟨fun _ => rfl, decode_clre_iff, fun s c rest hinputs hop hc =>
    ⟨fun herr => ?refused, fun hok => ?illegal⟩⟩
  case refused => exact (step_of_inputs hinputs).trans (issue_refused herr hc)
  case illegal => exact hraises s c rest hinputs hok (wordIllegal_of_clre_opcode hop hc)

/-! ### BWR and BRD (R115, R116) -/

section BufferCommands

variable {s : State} {k : BitVec 16}

theorem exec_bwr {imm8 : Byte} (hok : s.err = .ok) (hk : k.toNat < s.bufcap) :
    exec (.bwr k imm8) s = .next (s.bufWrite k.toNat imm8) :=
  congrArg Host.Outcome.next (command_inBounds hok hk)

theorem exec_brd (hok : s.err = .ok) (hk : k.toNat < s.bufcap) :
    exec (.brd k) s = .next { s with data := (s.bufRead k.toNat).setWidth 64 } :=
  calc exec (.brd k) s
      = .next (s.returnResult (s.bufRead k.toNat)) :=
        congrArg Host.Outcome.next (command_inBounds hok hk)
    _ = .next { s with data := (s.bufRead k.toNat).setWidth 64 } := rfl

end BufferCommands

/-- Settles O59: one rule for each command, and a read after the write. -/
theorem bufferBytesAreWrittenAndRead : Obligations.BufferBytesAreWrittenAndRead := fun k imm8 s hok =>
  ⟨fun hk => ⟨_, exec_bwr hok hk, fun a => s.bufRead_bufWrite k.toNat a imm8, s.bufWrite_frame _ _⟩,
    exec_brd hok, fun hk => ⟨exec_outOfBounds hok rfl hk, exec_outOfBounds hok rfl hk⟩⟩

end Sys2Proof.Machine

/-! PROOFS. Errors (O7, O18 to O20, O50): which error a command can leave, and when; then the error state's
refusals, that INVALID_SEED is never raised, and the way back from a transform that stopped part-way. -/

namespace Sys2Proof.Machine

open Sys2Proof

/-! ### The error a command leaves (R119 to R127) -/

/-- The codes a command can leave in ERR when no error was pending, each with what it says of the checks
(R127): that of the check which failed, or past the checks none or one that depends on the data. INVALID_SEED
is not among them. -/
inductive LeavesErr (i : Instr) (s : State) : ErrCode → Prop where
  | illegal (hwf : i.wf = false) : LeavesErr i s .illegal
  | bounds (hbounds : OutOfBounds i s) : LeavesErr i s .bounds
  | badGen (hgen : LacksGenerator i s) : LeavesErr i s .badGen
  | ok (hbounds : ¬ OutOfBounds i s) (hgen : ¬ LacksGenerator i s) : LeavesErr i s .ok
  | divZero (hbounds : ¬ OutOfBounds i s) (hgen : ¬ LacksGenerator i s) : LeavesErr i s .divZero
  | f32Range (hbounds : ¬ OutOfBounds i s) (hgen : ¬ LacksGenerator i s) : LeavesErr i s .f32Range

theorem exec_leavesErr {i : Instr} {s t : State} (hok : s.err = .ok) (h : exec i s = .next t) :
    LeavesErr i s t.err := by
  by_cases hwf : i.wf = false
  case pos =>
    cases h.symm.trans (exec_illFormed hok hwf)
    exact .illegal hwf
  have hwf : i.wf = true := Bool.eq_true_of_not_eq_false hwf
  by_cases hbounds : OutOfBounds i s
  case pos =>
    cases h.symm.trans (exec_outOfBounds hok hwf hbounds)
    exact .bounds hbounds
  by_cases hgen : LacksGenerator i s
  case pos =>
    cases h.symm.trans (exec_lacksGenerator hok hwf hbounds hgen)
    exact .badGen hgen
  obtain ⟨u, hu, hdata⟩ := exec_passesChecks hok hwf hbounds hgen
  cases h.symm.trans hu
  rcases hdata with he | he | he <;> rw [he]
  · exact .ok hbounds hgen
  · exact .divZero hbounds hgen
  · exact .f32Range hbounds hgen

/-- Settles O18: an operand out of range is what the code BOUNDS says of the checks. -/
theorem outOfRangeRaisesBounds : Obligations.OutOfRangeRaisesBounds := by
  refine fun i s hwf hok => ⟨exec_outOfBounds hok hwf, fun t hbounds h herr => ?_⟩
  have hleaves := exec_leavesErr hok h
  rw [herr] at hleaves
  cases hleaves with
  | bounds hout => exact hbounds hout

/-- Settles O19: a missing generator is what the code BADGEN says of the checks. -/
theorem missingGeneratorRaisesBadgen : Obligations.MissingGeneratorRaisesBadgen := by
  refine fun i s hwf hok hbounds => ⟨exec_lacksGenerator hok hwf hbounds, fun t hgen h herr => ?_⟩
  have hleaves := exec_leavesErr hok h
  rw [herr] at hleaves
  cases hleaves with
  | badGen hlacks => exact hgen hlacks

/-! ### The error state (R130) -/

/-- Settles O7: a word is refused, and what the other ports do (O9) is said of every state. -/
theorem errorStateRefusesEveryOtherWord : Obligations.ErrorStateRefusesEveryOtherWord := by
  intro s rest herr
  obtain ⟨-, hstatus, haux, hread, hwrite, -⟩ := portsAnswerTheHost s rest
  exact ⟨fun c hinputs hc => (step_of_inputs hinputs).trans (issue_refused herr hc), hstatus, haux, hread,
    hwrite⟩

/-! ### INVALID_SEED (R122) -/

section InvalidSeed

variable {s t : State}

theorem exec_invalidSeed {i : Instr} (h : exec i s = .next t) (ht : t.err = .invalidSeed) :
    s.err = .invalidSeed := by
  by_cases hok : s.err = .ok
  case pos =>
    -- `LeavesErr` has no case for the code
    have hleaves := exec_leavesErr hok h
    rw [ht] at hleaves
    cases hleaves
  case neg =>
    cases exec_ends h with
    | cleared _ => cases ht
    | refused _ => exact ht
    | completed hok' _ | failed hok' _ _ _ => exact absurd hok' hok

theorem issue_invalidSeed {c : Word32} (h : issue c s = .next t) (ht : t.err = .invalidSeed) :
    s.err = .invalidSeed := by
  cases hdecode : decode c with
  | ok i => exact exec_invalidSeed ((issue_of_decode hdecode s).symm.trans h) ht
  | error e =>
    cases h.symm.trans (issue_of_wordIllegal ((wordIllegal_iff_decode c).mpr ⟨e, hdecode⟩) s)
    by_cases hok : s.err = .ok
    · rw [issueIllegal_of_ok hok] at ht
      cases ht
    · rwa [issueIllegal_of_error hok] at ht

/-- Of the accesses only a word and a reset touch ERR, and a reset clears it. -/
theorem hostAccess_invalidSeed {a : HostAccess} (h : hostAccess a s = .next t)
    (ht : t.err = .invalidSeed) : s.err = .invalidSeed := by
  cases a with
  | writeCmd c => exact issue_invalidSeed (s := s.setReply none) h ht
  | reset => cases h; cases ht
  | readCmd | readStatus | writeStatus _ | readAux | writeAux _ | readData | writeData _ =>
    cases h
    exact ht

theorem step_invalidSeed (h : step s = .next t) (ht : t.err = .invalidSeed) : s.err = .invalidSeed := by
  cases hinputs : s.inputs with
  | nil =>
    rw [step, hinputs] at h
    cases h
    exact ht
  | cons a rest =>
    exact hostAccess_invalidSeed (s := s.setInputs rest) ((step_of_inputs hinputs).symm.trans h) ht

end InvalidSeed

/-- Settles O20: no check and no rule raises the code, and the commands that take a pattern store it without
looking at it. -/
theorem invalidSeedIsNeverRaised : Obligations.InvalidSeedIsNeverRaised := by
  refine ⟨fun _ _ _ => exec_invalidSeed, fun _ _ => step_invalidSeed, fun s v hok =>
    ⟨fun n h1 h32 => ⟨_, exec_gnewi hok ((legalExponent_iff n).mpr ⟨h1, h32⟩), hok⟩,
      ⟨_, gnewlConstructsALogisticGenerator _ hok, hok⟩,
      fun hgv => ⟨_, exec_gsetv hok hgv, hok⟩,
      fun hgv hlog => ⟨_, exec_gsetp hok hgv hlog, hok⟩⟩⟩

/-! ### The way back from a partial transform (R114, R129) -/

section WayBack

variable {len : BitVec 16} {s t r : State}

/-- After CLRE, with GVAL and GPAR put back, the block has the generator it began with (R129): no other of the
generator registers was written. -/
theorem sameGenerator_put_back {ws : List Register} (h : s.WritesOnly ws t) (hgen : .generator ∉ ws) :
    SameGenerator s { clearError t with gval := s.gval, gpar := s.gpar } := by
  obtain ⟨hgv, hvar, hn⟩ := h.generator hgen
  exact ⟨hgv.symm, hvar.symm, hn.symm, rfl, rfl⟩

/-- F32_RANGE is raised past the checks. -/
theorem exec_xtr_f32Range {mode : Mode} (hok : s.err = .ok) (h : exec (.xtr mode len) s = .next t)
    (ht : t.err = .f32Range) : len.toNat ≤ s.bufcap ∧ s.gv = true := by
  have hleaves := exec_leavesErr hok h
  rw [ht] at hleaves
  cases hleaves with
  | f32Range hbounds hgen => exact ⟨not_lt.mp hbounds, Bool.eq_true_of_not_eq_false hgen⟩

/-- After XTR MantissaByte ended in F32_RANGE at byte `i`, XTR of length `i` on the BUF it left, from the
generator it began with, completes and restores BUF: every byte below `i` has a key, and meets it twice. -/
theorem exec_xtr_undoes_partial (hok : s.err = .ok) (h : exec (.xtr .mantissaByte len) s = .next t)
    (ht : t.err = .f32Range) (hgen : SameGenerator s r) (hr : r.err = .ok) (hcap : r.bufcap = s.bufcap)
    (hbuf : ∀ a, r.bufRead a = t.bufRead a) :
    ∃ u, exec (.xtr .mantissaByte t.erridx) r = .next u ∧ u.err = .ok ∧
      ∀ a, u.bufRead a = s.bufRead a := by
  obtain ⟨hlen, hgv⟩ := exec_xtr_f32Range hok h ht
  obtain ⟨n, hn, hsome, hnone⟩ := exists_first_without_key (mantissaByte s) len.toNat
  obtain ⟨-, t', ht', hxored, hkept, hdone, hfailed, -⟩ :=
    xtrMantissaXorsUntilADrawOverflows len n s hok hgv hlen hn hsome hnone
  cases h.symm.trans ht'
  have hlt : n < len.toNat := hn.lt_of_ne fun hall => nomatch ht.symm.trans (hdone hall).1
  obtain ⟨-, hidx, -⟩ := hfailed hlt
  subst hidx
  have hkey : mantissaByte s = mantissaByte r := hgen.keystream_eq .mantissaByte 0
  rw [hkey] at hsome hxored
  obtain ⟨-, u, hu, hxored', hkept', hdone', -⟩ :=
    xtrMantissaXorsUntilADrawOverflows t.erridx t.erridx.toNat r hr (hgen.1.symm.trans hgv)
      (hcap.symm ▸ hlt.le.trans hlen) le_rfl hsome (fun hlt => absurd hlt (lt_irrefl _))
  refine ⟨u, hu, (hdone' rfl).1, fun a => ?_⟩
  rcases lt_or_ge a t.erridx.toNat with ha | ha
  · obtain ⟨k, hk⟩ := Option.ne_none_iff_exists'.mp (hsome a ha)
    rw [hxored' a k ha hk, hbuf, hxored a k ha hk, BitVec.xor_assoc, BitVec.xor_self, BitVec.xor_zero]
  · rw [hkept' a ha, hbuf, hkept a ha]

/-- In a mode both offer, PTR leaves the error and the bytes that XTR leaves (R114). -/
theorem exec_ptr_agrees_exec_xtr {mode : Mode} (hmode : mode ≠ .rawCast) (len : BitVec 16) (s : State) :
    ∃ t u, exec (.xtr mode len) s = .next t ∧ exec (.ptr mode len) s = .next u ∧
      t.err = u.err ∧ t.erridx = u.erridx ∧ ∀ a, t.bufRead a = u.bufRead a := by
  obtain ⟨t, u, hxtr, hptr, heq⟩ := ptrAndXtrAgreeButForThePerceptron mode len s hmode
  rw [← heq] at hxtr
  exact ⟨_, u, hxtr, hptr, rfl, rfl, fun _ => rfl⟩

end WayBack

/-- Settles O50: for XTR the shorter run undoes the first one, and both runs of PTR leave what those of XTR
leave. -/
theorem partialTransformIsUndoneByItsPrefix : Obligations.PartialTransformIsUndoneByItsPrefix := by
  intro len s t c hok ht hc
  cases hc
  have hmode : Mode.mantissaByte ≠ .rawCast := nofun
  refine ⟨fun h => ?xtr, fun h => ?ptr⟩
  case xtr =>
    have hwrites := exec_writesOnly h
    exact exec_xtr_undoes_partial hok h ht (sameGenerator_put_back hwrites (by simp)) rfl hwrites.bufcap
      fun _ => rfl
  case ptr =>
    have hwrites := exec_writesOnly h
    obtain ⟨t', u, hxtr, hptr, herr, hidx, hbytes⟩ := exec_ptr_agrees_exec_xtr hmode len s
    cases h.symm.trans hptr
    obtain ⟨v, hv, hverr, hvbytes⟩ := exec_xtr_undoes_partial hok hxtr (herr.trans ht)
      (sameGenerator_put_back hwrites (by simp)) rfl hwrites.bufcap fun a => (hbytes a).symm
    rw [hidx] at hv
    obtain ⟨v', w, hxtr', hptr', herr', -, hbytes'⟩ := exec_ptr_agrees_exec_xtr hmode t.erridx
      { clearError t with gval := s.gval, gpar := s.gpar }
    cases hv.symm.trans hxtr'
    exact ⟨w, hptr', herr'.symm.trans hverr, fun a => (hbytes' a).symm.trans (hvbytes a)⟩

end Sys2Proof.Machine

/-! PROOFS. The integer generator (O51): its draws are positive integers below `2^32`, which convert to
binary32 and give a window a positive maximum, so a transform derives every byte. -/

namespace Sys2Proof.Machine

open Sys2Proof

/-- An integer image (R24) is far below `2^128 - 2^103`, where the conversion begins to overflow (R22). -/
theorem F64.toF32_ofNat_ne_none {v : Nat} (hv : v < 2 ^ 32) : F64.toF32 (F64.ofNat v) ≠ none := by
  obtain ⟨hfinite, hunits⟩ := integerImagesAreExact v hv
  have hmag : F64.magnitude (F64.ofNat v) = v * F64.one := by
    have habs := congrArg (|·|) hunits
    rw [F64.units_eq, abs_signedNumerator, ← Nat.cast_mul, Nat.abs_cast] at habs
    exact_mod_cast habs
  obtain ⟨-, -, -, hoverflow, -⟩ := conversionToBinary32RoundsAndOverflows.2 (F64.ofNat v)
  rw [Ne, hoverflow hfinite, hmag, not_le]
  exact Nat.mul_lt_mul_of_pos_right (hv.trans (by norm_num)) F64.one_pos

/-- A window of finite positive entries has a positive maximum, so it normalises (R91). -/
theorem normalize_ne_none_of_positive {window : List Word64} (hne : window ≠ [])
    (hentry : ∀ x ∈ window, F64.isFinite x = true ∧ 0 < F64.units x) (v : Word64) :
    normalize window v ≠ none := by
  obtain ⟨first, rest, rfl⟩ := List.exists_cons_of_ne_nil hne
  obtain ⟨hfinite, hpos⟩ := hentry _ (windowMax_mem first rest)
  have hmax : F64.eq (windowMax first rest) 0 = false := by
    obtain ⟨hnan, -⟩ := F64.not_nan_inf_of_finite hfinite
    have hzero : F64.units 0 = 0 := F64.units_of_isZero (by decide)
    rw [← Bool.not_eq_true, (F64.compare_of_not_nan hnan (by decide)).2.2, hzero]
    exact hpos.ne'
  rw [normalize_cons, hmax]
  exact Option.some_ne_none _

section IntegerGenerator

variable {s : State} (hint : s.gvar = .int) (h1 : 1 ≤ s.gn.toNat) (h32 : s.gn.toNat ≤ 32)

include hint h1 h32

/-- An integer draw as a floating value is the image of a positive number below `2^32` (R24, R35). -/
theorem drawnFloat_of_int (m : Nat) :
    ∃ v : Nat, 0 < v ∧ v < 2 ^ 32 ∧ drawnFloat s m = F64.ofNat v := by
  obtain ⟨hrange, -, -⟩ := (integerDrawsStayInTheirRange s hint h1 h32).1 m _ rfl
  have hpow : 2 ^ s.gn.toNat ≤ 2 ^ 32 := Nat.pow_le_pow_right two_pos h32
  rw [← drawnValue_eq_gval] at hrange
  refine ⟨(drawnValue s m).toNat, by omega, by omega, ?_⟩
  rw [drawnFloat_eq, hint, floatOfDraw]

/-- No byte of a keystream lacks a key (R89, R99, R100). -/
theorem keystream_ne_none_of_int (mode : Mode) {len i : Nat} (hi : i < len) :
    keystream mode len s i ≠ none := by
  cases mode with
  | rawCast => exact Option.some_ne_none _
  | mantissaByte =>
    obtain ⟨v, -, hv, heq⟩ := drawnFloat_of_int hint h1 h32 i
    rw [keystream, mantissaByte, heq, Ne, Option.map_eq_none_iff]
    exact F64.toF32_ofNat_ne_none hv
  | windowNormalized =>
    have hentry : ∀ x ∈ drawnWindow s (windowStart len i) len,
        F64.isFinite x = true ∧ 0 < F64.units x := by
      intro x hx
      obtain ⟨j, -, rfl⟩ := List.mem_map.mp hx
      obtain ⟨v, hpos, hv, heq⟩ := drawnFloat_of_int hint h1 h32 (windowStart len i + j)
      obtain ⟨hfinite, hunits⟩ := integerImagesAreExact v hv
      rw [heq, hunits]
      exact ⟨hfinite, mul_pos (Nat.cast_pos.mpr hpos) (Nat.cast_pos.mpr F64.one_pos)⟩
    have hne : drawnWindow s (windowStart len i) len ≠ [] := by
      rw [drawnWindow, Ne, List.map_eq_nil_iff, List.range_eq_nil]
      omega
    exact normalize_ne_none_of_positive hne hentry _

end IntegerGenerator

/-- Settles O51: every byte has a key, so XTR completes, and PTR leaves the error that XTR leaves. -/
theorem integerGeneratorNeverFailsATransform : Obligations.IntegerGeneratorNeverFailsATransform := by
  intro mode len s hok hgv hint h1 h32 hlen
  have hxtr := exec_xtr (mode := mode) hok hgv hlen
  have herr : (xtrBody mode len.toNat s).err = .ok :=
    (xtrBody_xors hok len.isLt le_rfl (fun i hi => keystream_ne_none_of_int hint h1 h32 mode hi)
      (fun h => absurd h (lt_irrefl _))).2.mpr rfl
  refine ⟨⟨_, hxtr, herr⟩, fun hmode => ?ptr⟩
  case ptr =>
    obtain ⟨t, u, ht, hu, herr', -, -⟩ := exec_ptr_agrees_exec_xtr hmode len s
    cases hxtr.symm.trans ht
    exact ⟨u, hu, herr'.symm.trans herr⟩

end Sys2Proof.Machine
